-- ==== Sys2Proof/Syntax.lean ====
section
/-! DEFINITION. The twelve commands of the opcode map (R112), one constructor per row of spec/opcode_table.json.
No command has an operand field (R110), so no constructor has an argument. -/

namespace Sys2Proof

/-- The HTB command set (R112). -/
inductive Instr where
  /-- 0x0: nothing (R230). -/
  | nop
  /-- 0x1: IN raw bytes to FT (R150). -/
  | freq
  /-- 0x2: FT to finished tree (R165). -/
  | build
  /-- 0x3: tree to CT (R181). -/
  | codegen
  /-- 0x4: IN, FT, CT to container in OUT (R191). -/
  | encode
  /-- 0x5: container header in IN to FT, PADBITS, HLEN (R210). -/
  | hdrparse
  /-- 0x6: payload in IN and tree to bytes in OUT (R213). -/
  | decode
  /-- 0x7: IN raw bytes to container in OUT (R198). -/
  | compress
  /-- 0x8: container in IN to bytes in OUT (R218). -/
  | decompress
  /-- 0x9: back to reset state, keeping IN and IN_LEN (R231). -/
  | clear
  /-- 0xA: FT to leaves and working list (R161). -/
  | seed
  /-- 0xB: sort, remove two, append their parent (R163). -/
  | merge
  deriving DecidableEq, Repr

end Sys2Proof
end

