-- ==== Sys2Proof/Word.lean ====
section
/-! DEFINITION. The two word types of HTB: the byte of IN, OUT and a symbol (R6), and the 32-bit register and
command word (R8, R110). -/

namespace Sys2Proof

/-- A byte of a buffer, and a Symbol: "a raw byte value (0–255)" (R6, R80). -/
abbrev Byte := BitVec 8

/-- The value of a register, and a command word: REGW = 32 bits (R8, R31, R110). -/
abbrev Word := BitVec 32

end Sys2Proof
end

