-- ==== Sys2Proof/WellFormed.lean ====
section
/-! DEFINITION. What a well-formed command is. A command has no operand (R110), so every term of `Instr` is well
formed; what can be ill formed is a command WORD (R111, R113). -/

namespace Sys2Proof

/-- A command is well formed: no constructor carries a field that could be out of range (R110). -/
def Instr.wf : Instr → Bool
  | .nop | .freq | .build | .codegen | .encode | .hdrparse
  | .decode | .compress | .decompress | .clear | .seed | .merge => true

/-- Field ZERO of a command word, bits 31:4 (R110). -/
def wordZero (c : Word) : BitVec 28 := c.extractLsb' 4 28

/-- Field OP of a command word, bits 3:0 (R110). -/
def wordOp (c : Word) : BitVec 4 := c.extractLsb' 0 4

/-- A command word is well formed: bits 31:4 are zero (R111) and OP is none of the reserved codes 0xC to 0xF (R113). -/
def wordWf (c : Word) : Bool := wordZero c == 0 && decide ((wordOp c).toNat < 0xC)

end Sys2Proof
end

