-- ==== Sys2Proof/Decode.lean ====
section
/-! DEFINITION. The decoder of command words (R110 to R113), total on every 32-bit word and rejecting by name; after it
the encoder, written from the word column of R112; and the host's entry point `decodeTableWord`. -/

namespace Sys2Proof

/-- Why a word is no command. Both lead to the error IllegalCommand, so neither stops the machine. -/
inductive DecodeError where
  /-- A bit of field ZERO is set (R111). -/
  | upperBitsNotZero (c : Word)
  /-- OP is one of the reserved codes 0xC to 0xF (R113). -/
  | reservedOp (op : BitVec 4)
  deriving DecidableEq, Repr

/-- The row of the opcode map for an operation code (R112); the reserved codes have none (R113). -/
def decodeOp (op : BitVec 4) : Except DecodeError Instr :=
  match op with
  | 0x0#4 => .ok .nop
  | 0x1#4 => .ok .freq
  | 0x2#4 => .ok .build
  | 0x3#4 => .ok .codegen
  | 0x4#4 => .ok .encode
  | 0x5#4 => .ok .hdrparse
  | 0x6#4 => .ok .decode
  | 0x7#4 => .ok .compress
  | 0x8#4 => .ok .decompress
  | 0x9#4 => .ok .clear
  | 0xA#4 => .ok .seed
  | 0xB#4 => .ok .merge
  | r => .error (.reservedOp r)

/-- Decoding a written word (R111): field ZERO first, then the operation code. -/
def decodeWord (c : Word) : Except DecodeError Instr :=
  if wordZero c = 0 then decodeOp (wordOp c) else .error (.upperBitsNotZero c)

/-- The word of a command (R112, column "word"). -/
def encode : Instr → Word
  | .nop        => 0x00000000#32
  | .freq       => 0x00000001#32
  | .build      => 0x00000002#32
  | .codegen    => 0x00000003#32
  | .encode     => 0x00000004#32
  | .hdrparse   => 0x00000005#32
  | .decode     => 0x00000006#32
  | .compress   => 0x00000007#32
  | .decompress => 0x00000008#32
  | .clear      => 0x00000009#32
  | .seed       => 0x0000000A#32
  | .merge      => 0x0000000B#32

/-- The 32-bit word that a table row's `nbits` bits stand for: every bit at or above `nbits` is zero, and a value with a
bit above bit 31 is no command word (R110: one length, 32 bits). A register has no byte order inside the model (R86). -/
def tableWord (nbits w : Nat) : Option Word :=
  let v := w % 2 ^ nbits
  if v < 2 ^ 32 then some (BitVec.ofNat 32 v) else none

/-- The command the decoder reads from the bits of an opcode-table row, bit 0 the least significant. -/
def decodeTableWord (nbits w : Nat) : Option Instr :=
  match tableWord nbits w with
  | none => none
  | some c =>
    match decodeWord c with
    | .ok i => some i
    | .error _ => none

end Sys2Proof
end

