-- ==== Sys2Proof/Config.lean ====
section
/-! DEFINITION. What an implementation fixes (the capacities of IN and OUT, R9) and the free values: what the spec calls
unspecified is an opaque function here, with no body, so that nothing can be proved of its value.
The first argument `k` of a free value is the number of the draw, State's `freeCount` (log entry 4). -/

namespace Sys2Proof

/-- The two open parameters of R9: 0 ≤ IN_CAP ≤ 2^24 and 0 ≤ OUT_CAP ≤ 2^32 − 1. -/
structure Caps where
  /-- IN_CAP: number of bytes the input buffer IN holds. -/
  inCap : Fin (2 ^ 24 + 1)
  /-- OUT_CAP: number of bytes the output buffer OUT holds. -/
  outCap : Fin (2 ^ 32)
  deriving DecidableEq, Repr

namespace Config

/-- The capacities of the one machine `State.reset` names: the largest R9 allows.
DESIGN CHOICE (log entry 5); every statement is over all capacities. -/
def resetCaps : Caps := ⟨⟨2 ^ 24, by decide⟩, ⟨2 ^ 32 - 1, by decide⟩⟩

/-! Registers after an error (R247, R52), each within the bits R38 to R43 give it: its upper bits still read as zero. -/

/-- OUT_LEN after an error (R247, R52; R220 says 0, log entry 10). -/
opaque freeOutLen : Nat → BitVec 32
/-- NSYM after an error (R247): bits 8:0 (R39). -/
opaque freeNsym : Nat → BitVec 9
/-- PADBITS after an error (R247): bits 2:0 (R40). -/
opaque freePadBits : Nat → BitVec 3
/-- BITLEN after an error (R247): 32 bits (R41). -/
opaque freeBitLen : Nat → BitVec 32
/-- HLEN after an error (R247): bits 9:0 (R42). -/
opaque freeHlen : Nat → BitVec 10
/-- NNODES after an error (R247): bits 9:0 (R43). -/
opaque freeNnodes : Nat → BitVec 10
/-- ROOT after an error (R247): bits 8:0 (R43). -/
opaque freeRoot : Nat → BitVec 9
/-- WL_LEN after an error (R247): bits 8:0 (R43). -/
opaque freeWlLen : Nat → BitVec 9
/-- CT_LEN after an error (R247): bits 8:0 (R43). -/
opaque freeCtLen : Nat → BitVec 9

/-! Arrays after an error (R247, R52): how many entries and what they hold, in the widths of R44 to R48. -/

/-- FT after an error: entries (sym, cnt). -/
opaque freeFt : Nat → List (BitVec 8 × BitVec 16)
/-- NODE after an error: entries (is it a leaf, sym, weight, left, right). -/
opaque freeNode : Nat → List (Bool × BitVec 8 × BitVec 24 × BitVec 9 × BitVec 9)
/-- WL after an error: node identifiers. -/
opaque freeWl : Nat → List (BitVec 9)
/-- CT after an error: entries (sym, len, val). -/
opaque freeCt : Nat → List (BitVec 8 × BitVec 8 × BitVec 255)

/-! Array entries at positions at or beyond the array's current length (10_state.md section 3, U13): draw `k`, position. -/

/-- The entry of FT at a position at or beyond NSYM. -/
opaque staleFt : Nat → Nat → BitVec 8 × BitVec 16
/-- The entry of NODE at an identifier at or beyond NNODES. -/
opaque staleNode : Nat → Nat → Bool × BitVec 8 × BitVec 24 × BitVec 9 × BitVec 9
/-- The entry of WL at a position at or beyond WL_LEN. -/
opaque staleWl : Nat → Nat → BitVec 9
/-- The entry of CT at a position at or beyond CT_LEN. -/
opaque staleCt : Nat → Nat → BitVec 8 × BitVec 8 × BitVec 255

/-! Bytes of the buffers. -/

/-- The byte of OUT at an offset that no result covers (R38, R83, R276): draw `k`, offset. -/
opaque freeOutByte : Nat → Nat → Byte
/-- The byte of IN at an offset the host has not written since reset (R82, U14). It depends on the offset alone: IN is
plain storage, and reading it again gives the same byte (R82, R88). -/
opaque freeInByte : Nat → Byte

end Config

end Sys2Proof
end

