-- ==== Sys2Proof/Machine/State.lean ====
section
/-! DEFINITION. The state of HTB (10_state.md), plain data: the register file, the arrays, the two buffers, the
capacities, and the model's own three fields (the host's remaining accesses, what the host last read, the counter of
free values). Counts, lengths, weights and identifiers are naturals, as R54 allows; their widths are an invariant
(Safety.lean). -/

namespace Sys2Proof.Machine

/-- An entry of FT: a Symbol and its count, 0 to 65535 (R44). -/
structure FtEntry where
  sym : Byte
  cnt : Nat
  deriving DecidableEq, Repr

/-- A node of the arena (R14, R45). -/
inductive Node where
  | leaf (sym : Byte) (weight : Nat)
  | internal (weight left right : Nat)
  deriving DecidableEq, Repr

/-- A code table tuple (symbol, code-length, code-value) (R48, R122). -/
structure CodeTuple where
  sym : Byte
  len : Nat
  val : Nat
  deriving DecidableEq, Repr

/-- Bytes of a buffer: cells (offset, byte) with strictly rising offsets (Ops.lean, `Memory.wf`). An offset that is not
listed holds no byte the spec specifies. -/
abbrev Memory := List Host.Cell

/-- The eight bits of STATUS (R34), a read-only register whose bits 31:8 are hard-wired to zero. -/
structure Status where
  done : Bool
  err : Bool
  ftValid : Bool
  hdrValid : Bool
  wlValid : Bool
  treeValid : Bool
  ctValid : Bool
  outValid : Bool
  deriving DecidableEq, Repr

/-- STATUS = 0 (R51). -/
def Status.zero : Status := ⟨false, false, false, false, false, false, false, false⟩

/-- What a command can `raise` (R240, R241). -/
inductive Cause where
  /-- Format(1): the container is 1 byte long or shorter than its header. -/
  | formatTruncated
  /-- Format(2): byte 1 is above 7. -/
  | formatPadRange
  /-- Format(3): byte 1 is not 0 but there is no payload byte. -/
  | formatPadNoPayload
  /-- Format(4): the bit-stream ends inside a code. -/
  | formatMidCode
  /-- Format(5): a single-symbol container has payload bits. -/
  | formatSinglePayload
  /-- Degenerate(0): a tree was asked for from an empty table. -/
  | degenerate
  /-- Overflow(s): the count of `s` would pass 65535. -/
  | overflow (s : Byte)
  /-- Sequence(op): the command with code `op` lacked its precondition. -/
  | sequence (op : BitVec 4)
  /-- Sequence(0x100 + s): ENCODE met the byte `s`, which has no tuple in CT. -/
  | noCode (s : Byte)
  /-- Capacity(1): IN_LEN > IN_CAP. -/
  | capacityIn
  /-- Capacity(2): the result does not fit OUT. -/
  | capacityOut
  /-- IllegalCommand(c): the word `c` is not a command. -/
  | illegalCommand (c : Word)
  deriving DecidableEq, Repr

/-- One access of the host to HTB (R275). -/
inductive HostAction where
  /-- Write a byte of IN at an offset (R80, R82). -/
  | writeIn (off : Nat) (b : Byte)
  /-- Write a register by number: 0 is CMD and runs a command, 4 is IN_LEN, all others ignore it (R31, R33, R37). -/
  | writeReg (num : Nat) (v : Word)
  /-- Read a register by number (R31). -/
  | readReg (num : Nat)
  /-- Read a byte of IN (R80). -/
  | readIn (off : Nat)
  /-- Read a byte of OUT (R83). -/
  | readOut (off : Nat)
  /-- Read an entry of FT (10_state.md section 3). -/
  | readFt (i : Nat)
  /-- Read an entry of NODE (10_state.md section 3). -/
  | readNode (i : Nat)
  /-- Read an entry of WL (10_state.md section 3). -/
  | readWl (i : Nat)
  /-- Read an entry of CT (10_state.md section 3). -/
  | readCt (i : Nat)
  /-- `.mov`: copy OUT[0..OUT_LEN) to IN[0..OUT_LEN) and write IN_LEN <- OUT_LEN (R97, R125). -/
  | mov
  deriving DecidableEq, Repr

/-- What a read of the host returned (R275, column "host gets back"). -/
inductive HostValue where
  | nothing
  | word (v : Word)
  | byte (b : Byte)
  | entry (e : FtEntry)
  | node (n : Node)
  | ident (k : Nat)
  | tuple (t : CodeTuple)
  deriving DecidableEq, Repr

/-- The state of HTB. -/
structure State where
  /-- IN_CAP and OUT_CAP (R9): parameters, written by no step. -/
  caps : Caps
  /-- Register 1, STATUS (R34). -/
  status : Status
  /-- Register 2, ERRCODE, bits 3:0 (R35). -/
  errCode : BitVec 4
  /-- Register 3, ERRINFO (R36). -/
  errInfo : Word
  /-- Register 4, IN_LEN (R37). -/
  inLen : Word
  /-- Register 5, OUT_LEN (R38). -/
  outLen : Nat
  /-- Register 6, NSYM (R39). -/
  nsym : Nat
  /-- Register 7, PADBITS (R40). -/
  padBits : Nat
  /-- Register 8, BITLEN (R41). -/
  bitLen : Nat
  /-- Register 9, HLEN (R42). -/
  hlen : Nat
  /-- Register 10, NNODES (R43). -/
  nnodes : Nat
  /-- Register 11, ROOT (R43). -/
  root : Nat
  /-- Register 12, WL_LEN (R43). -/
  wlLen : Nat
  /-- Register 13, CT_LEN (R43). -/
  ctLen : Nat
  /-- The frequency table FT (R44). -/
  ft : List FtEntry
  /-- The node arena NODE (R45). -/
  node : List Node
  /-- The working list WL (R46). -/
  wl : List Nat
  /-- The code table CT (R48). -/
  ct : List CodeTuple
  /-- The input buffer IN: the bytes the host has written (R80 to R82). -/
  inMem : Memory
  /-- The output buffer OUT: the bytes of the last result (R80, R83). -/
  outMem : Memory
  /-- The model's own: the accesses the host still has to make, oldest first (log entry 1). -/
  host : List HostAction
  /-- The model's own: what the host's last read returned (log entry 6). -/
  hostData : HostValue
  /-- The model's own: the number of the current draw of free values (log entry 4). -/
  freeCount : Nat
  deriving DecidableEq, Repr

/-- The state after reset (R51) of a machine with the capacities `caps`: every register and flag 0, every array empty,
no byte of IN or OUT specified. -/
def State.resetWith (caps : Caps) : State where
  caps := caps
  status := Status.zero
  errCode := 0
  errInfo := 0
  inLen := 0
  outLen := 0
  nsym := 0
  padBits := 0
  bitLen := 0
  hlen := 0
  nnodes := 0
  root := 0
  wlLen := 0
  ctLen := 0
  ft := []
  node := []
  wl := []
  ct := []
  inMem := []
  outMem := []
  host := []
  hostData := .nothing
  freeCount := 0

/-- The machine right after reset (R51, R270); its capacities are a DESIGN CHOICE (log entry 5). -/
def State.reset : State := State.resetWith Config.resetCaps

/-- What stops the machine. HTB's own errors are no stop: they are a state (R247). All three are raised by a HOST access
outside what R80 says exists; the spec does not say what such an access does, so stopping is safe (log entry 7). -/
inductive Fault where
  /-- Raised by the host's read or write of IN at an offset at or above IN_CAP, and by `.mov` of more than IN_CAP bytes. Safe. -/
  | inOffset (off : Nat)
  /-- Raised by the host's read of OUT at an offset at or above OUT_CAP. Safe. -/
  | outOffset (off : Nat)
  /-- Raised by the host's read of an array at a position at or above its size (256, 511, 256, 256 entries). Safe. -/
  | arrayIndex (i : Nat)
  deriving DecidableEq, Repr

/-- Why a command has no meaning in the model. -/
inductive Refusal where
  /-- Raised by an arm of `exec` whose command has no meaning yet. Safe. No arm does. -/
  | notModelled (mnemonic : String)
  deriving DecidableEq, Repr

end Sys2Proof.Machine
end

