-- ==== Sys2Proof/Machine/Flags.lean ====
section
/-! DEFINITION. STATUS (R34): its value as a register, every flag update the commands make, and the flag
preconditions of the stage commands (R244). No command reads any other flag. -/

namespace Sys2Proof.Machine

/-- STATUS as the host reads it (R34): DONE is bit 0, OUT_VALID is bit 7, bits 31:8 read as zero. -/
def Status.toWord (f : Status) : Word :=
  BitVec.ofNat 32 (f.done.toNat + 2 * f.err.toNat + 4 * f.ftValid.toNat + 8 * f.hdrValid.toNat
    + 16 * f.wlValid.toNat + 32 * f.treeValid.toNat + 64 * f.ctValid.toNat + 128 * f.outValid.toNat)

/-- `DONE <- 1`, the last line of every command but CLEAR (R34, R230). -/
def Status.setDone (f : Status) : Status := { f with done := true }

/-- The six validity flags `<- 0`, DONE and ERR as they are (R53). -/
def Status.clearValid (f : Status) : Status :=
  { f with ftValid := false, hdrValid := false, wlValid := false, treeValid := false, ctValid := false,
           outValid := false }

/-- STATUS after `raise` (R247): ERR and DONE set, the six validity flags cleared. -/
def Status.errored : Status := { Status.zero with done := true, err := true }

/-- FREQ: `FT_VALID <- 1` (R150). -/
def Status.afterFreq (f : Status) : Status := { f with ftValid := true }

/-- HDRPARSE: `FT_VALID <- 1`, `HDR_VALID <- 1` (R210). -/
def Status.afterHdrparse (f : Status) : Status := { f with ftValid := true, hdrValid := true }

/-- SEED: `WL_VALID <- 1`, TREE_VALID exactly when NSYM = 1, `CT_VALID <- 0` (R161). -/
def Status.afterSeed (f : Status) (nsym : Nat) : Status :=
  { f with wlValid := true, treeValid := nsym == 1, ctValid := false }

/-- MERGE: `TREE_VALID <- 1` when the list is down to one node, else as it was (R163). -/
def Status.afterMerge (f : Status) (wlLen : Nat) : Status :=
  { f with treeValid := wlLen == 1 || f.treeValid }

/-- CODEGEN: `CT_VALID <- 1` (R181). -/
def Status.afterCodegen (f : Status) : Status := { f with ctValid := true }

/-- ENCODE: `OUT_VALID <- 1`, `HDR_VALID <- 0` (R191). -/
def Status.afterEncode (f : Status) : Status := { f with outValid := true, hdrValid := false }

/-- DECODE, and the empty results of COMPRESS and DECOMPRESS: `OUT_VALID <- 1` (R213, R198, R218). -/
def Status.setOutValid (f : Status) : Status := { f with outValid := true }

/-- R244: SEED and BUILD require FT_VALID. -/
def State.seedReady (s : State) : Bool := s.status.ftValid

/-- R244: MERGE requires WL_VALID and WL_LEN ≥ 2. -/
def State.mergeReady (s : State) : Bool := s.status.wlValid && decide (2 ≤ s.wlLen)

/-- R244: CODEGEN requires TREE_VALID. -/
def State.codegenReady (s : State) : Bool := s.status.treeValid

/-- R244: ENCODE requires FT_VALID and CT_VALID. -/
def State.encodeReady (s : State) : Bool := s.status.ftValid && s.status.ctValid

/-- R244: DECODE requires HDR_VALID and TREE_VALID. -/
def State.decodeReady (s : State) : Bool := s.status.hdrValid && s.status.treeValid

/-- R244, R213: IN_LEN still holds the parsed header and padding, the second Sequence test of DECODE. -/
def State.lengthConsistent (s : State) : Bool :=
  decide (s.hlen ≤ s.inLen.toNat) && !(s.inLen.toNat == s.hlen && s.padBits != 0)

end Sys2Proof.Machine
end

