-- ==== Sys2Proof/Machine/Ops.lean ====
section
/-! DEFINITION. The shared operations: bit-strings (R11), buffers (R82, R83), the stable sort (R12), the clearing step
(R53), taking an error (R240, R241, R247), and how a command is run (R243). -/

namespace Sys2Proof.Machine

/-- The outcome of a command or of a host access. -/
abbrev Result := Host.Outcome State Fault Refusal

/-! ## Bit-strings, first bit leftmost (R11) -/

/-- `val(c)`: the first bit is the most significant; val(ε) = 0. -/
def bitVal (c : List Bool) : Nat := c.foldl (fun v b => 2 * v + b.toNat) 0

/-- `bits_k(v)`: the k-bit string of v, most significant bit first. -/
def bitsOf (k v : Nat) : List Bool := (List.range k).map fun t => (v >>> (k - 1 - t)) % 2 == 1

/-! ## Buffers -/

/-- The canonical form: strictly rising offsets. An unlisted offset reads as no byte at all, so no cell can repeat what an
unlisted offset reads as. -/
abbrev Memory.wf (m : Memory) : Prop := (m.map Prod.fst).Pairwise (· < ·)

/-- What an unlisted offset reads as: no byte, neither IN nor OUT has specified contents at reset (R51). -/
def Memory.unlisted : Option Byte := none

/-- The byte a buffer holds at an offset. -/
def Memory.read : Memory → Nat → Option Byte
  | [], _ => Memory.unlisted
  | (x, b) :: m, a => if a = x then some b else Memory.read m a

/-- Set the byte at an offset, keeping the canonical form. -/
def Memory.write (a : Nat) (b : Byte) : Memory → Memory
  | [] => [(a, b)]
  | (x, y) :: m =>
    if a < x then (a, b) :: (x, y) :: m
    else if a = x then (a, b) :: m
    else (x, y) :: Memory.write a b m

/-- Set the bytes at the offsets from `a` upward. -/
def Memory.writeBytes (a : Nat) : List Byte → Memory → Memory
  | [], m => m
  | b :: bs, m => Memory.writeBytes (a + 1) bs (Memory.write a b m)

/-! ## The stable ascending sort by weight (R12) -/

/-- Insert `x`, which stood before every element of the sorted list, ahead of the elements that are not lighter. -/
def insertByWeight (w : Nat → Nat) (x : Nat) : List Nat → List Nat
  | [] => [x]
  | y :: ys => if w x ≤ w y then x :: y :: ys else y :: insertByWeight w x ys

/-- `ssort(xs)` (R12): weights non-decreasing, equal weights in their order before the sort. -/
def ssort (w : Nat → Nat) : List Nat → List Nat
  | [] => []
  | x :: xs => insertByWeight w x (ssort w xs)

/-! ## Entries as the hardware holds them, in the widths of R44, R45 and R48 -/

/-- An FT entry from its bits (R44). -/
def ftOfBits (e : BitVec 8 × BitVec 16) : FtEntry := ⟨e.1, e.2.toNat⟩

/-- A node from its bits (R45). -/
def nodeOfBits (n : Bool × BitVec 8 × BitVec 24 × BitVec 9 × BitVec 9) : Node :=
  if n.1 then .leaf n.2.1 n.2.2.1.toNat
  else .internal n.2.2.1.toNat n.2.2.2.1.toNat n.2.2.2.2.toNat

/-- A tuple from its bits (R48). -/
def tupleOfBits (t : BitVec 8 × BitVec 8 × BitVec 255) : CodeTuple := ⟨t.1, t.2.1.toNat, t.2.2.toNat⟩

/-! ## The clearing step -/

/-- `internal_clear()` (R53): the arrays, the nine result registers and the six validity flags; the bytes of OUT are left
unspecified. IN, IN_LEN, DONE, ERR, ERRCODE and ERRINFO stay. -/
def internalClear (s : State) : State :=
  { s with
    status := s.status.clearValid
    outLen := 0, nsym := 0, padBits := 0, bitLen := 0, hlen := 0, nnodes := 0, root := 0, wlLen := 0, ctLen := 0
    ft := [], node := [], wl := [], ct := [], outMem := [] }

/-! ## Errors -/

/-- The cause code, ERRCODE[3:0] (R240). -/
def Cause.code : Cause → BitVec 4
  | .formatTruncated | .formatPadRange | .formatPadNoPayload | .formatMidCode | .formatSinglePayload => 1
  | .degenerate => 2
  | .overflow _ => 3
  | .sequence _ | .noCode _ => 4
  | .capacityIn | .capacityOut => 5
  | .illegalCommand _ => 6

/-- The detail value for ERRINFO (R241). -/
def Cause.info : Cause → Word
  | .formatTruncated => 1
  | .formatPadRange => 2
  | .formatPadNoPayload => 3
  | .formatMidCode => 4
  | .formatSinglePayload => 5
  | .degenerate => 0
  | .overflow s => BitVec.ofNat 32 s.toNat
  | .sequence op => BitVec.ofNat 32 op.toNat
  | .noCode s => BitVec.ofNat 32 (0x100 + s.toNat)
  | .capacityIn => 1
  | .capacityOut => 2
  | .illegalCommand c => c

/-- `raise E(info)` (R247), HTB's error entry: ERR, DONE, ERRCODE and ERRINFO written, the six validity flags cleared,
IN and IN_LEN kept. OUT_LEN to CT_LEN, the arrays and every byte of OUT become free values (log entry 9): draw
`freeCount`, each within the widths and lengths the hardware has (R38 to R48). -/
def raise (e : Cause) (s : State) : State :=
  { s with
    status := Status.errored
    errCode := e.code
    errInfo := e.info
    outLen := (Config.freeOutLen s.freeCount).toNat
    nsym := (Config.freeNsym s.freeCount).toNat
    padBits := (Config.freePadBits s.freeCount).toNat
    bitLen := (Config.freeBitLen s.freeCount).toNat
    hlen := (Config.freeHlen s.freeCount).toNat
    nnodes := (Config.freeNnodes s.freeCount).toNat
    root := (Config.freeRoot s.freeCount).toNat
    wlLen := (Config.freeWlLen s.freeCount).toNat
    ctLen := (Config.freeCtLen s.freeCount).toNat
    ft := ((Config.freeFt s.freeCount).take 256).map ftOfBits
    node := ((Config.freeNode s.freeCount).take 511).map nodeOfBits
    wl := ((Config.freeWl s.freeCount).take 256).map BitVec.toNat
    ct := ((Config.freeCt s.freeCount).take 256).map tupleOfBits
    outMem := [] }

/-! ## Running a command -/

/-- Number a new draw of free values: what was unspecified before a command that runs need not read the same after it. -/
def State.fresh (s : State) : State := { s with freeCount := s.freeCount + 1 }

/-- `DONE <- 1`. -/
def State.finish (s : State) : State := { s with status := s.status.setDone }

/-- The common checks and ends of every command but NOP and CLEAR (R243): refused while ERR = 1 with no state change;
else the body runs, and ends with DONE or with its first error. -/
def run (body : State → Except Cause State) (s : State) : Result :=
  if s.status.err then .next s
  else
    match body s.fresh with
    | .ok t => .next t.finish
    | .error e => .next (raise e s.fresh)

/-- The return from the error state, CLEAR (R231, R249): the reset state but for IN and IN_LEN. -/
def clearAll (s : State) : State :=
  { internalClear s with status := Status.zero, errCode := 0, errInfo := 0 }

/-- R243 steps 1 and 2 for a word that is no command: refused while ERR = 1, else IllegalCommand(c). -/
def illegalCommand (c : Word) (s : State) : Result :=
  if s.status.err then .next s else .next (raise (.illegalCommand c) s.fresh)

end Sys2Proof.Machine
end

