-- ==== Sys2Proof/Machine/Operands.lean ====
section
/-! DEFINITION. The operands of the commands. They are all implicit (R30): bytes of IN below IN_LEN, entries of the
arrays found by position (R14), by symbol (R47) or by code (R47), and the register file by number (R31). -/

namespace Sys2Proof.Machine

/-! ## IN -/

/-- `MemRead(IN, a, 1)` (R82): the byte the host last wrote there; a byte never written since reset is a free value
(log entry 2). -/
def State.memReadIn (s : State) (a : Nat) : Byte :=
  match s.inMem.read a with
  | some b => b
  | none => Config.freeInByte a

/-- IN[0..IN_LEN), the data of a command (R81). -/
def State.input (s : State) : List Byte := (List.range s.inLen.toNat).map s.memReadIn

/-- IN_LEN ≤ IN_CAP (R245). -/
def State.inputFits (s : State) : Bool := decide (s.inLen.toNat ≤ s.caps.inCap.val)

/-! ## Nodes (R14, R45) -/

/-- `w(k)` of a node. -/
def Node.weight : Node → Nat
  | .leaf _ w => w
  | .internal w _ _ => w

/-- `isLeaf(k)` of a node. -/
def Node.isLeaf : Node → Bool
  | .leaf _ _ => true
  | .internal _ _ _ => false

/-- The child identifiers of a node, left then right; a leaf has none. -/
def Node.children : Node → List Nat
  | .leaf _ _ => []
  | .internal _ l r => [l, r]

/-- NODE[k]; an entry at or beyond the array's length is unspecified (10_state.md section 3, log entry 8). -/
def State.nodeAt (s : State) (k : Nat) : Node :=
  match s.node[k]? with
  | some n => n
  | none => nodeOfBits (Config.staleNode s.freeCount k)

/-- `w(k)`. -/
def State.weightOf (s : State) (k : Nat) : Nat := (s.nodeAt k).weight

/-! ## Look-ups by symbol (R47) -/

/-- `ftpos(s)`: the least i with FT[i].sym = s, or none. -/
def ftpos (ft : List FtEntry) (s : Byte) : Option Nat := ft.findIdx? fun e => e.sym == s

/-- `code(s)`: the first tuple of CT with the symbol s, or none. -/
def codeOf (ct : List CodeTuple) (s : Byte) : Option CodeTuple := ct.find? fun t => t.sym == s

/-- The bit-string of a tuple, `bits_len(val)` (R48, R122). -/
def CodeTuple.bits (t : CodeTuple) : List Bool := bitsOf t.len t.val

/-! ## Array entries and OUT as the host reads them -/

/-- FT[i] as the host reads it. -/
def State.ftAt (s : State) (i : Nat) : FtEntry :=
  match s.ft[i]? with
  | some e => e
  | none => ftOfBits (Config.staleFt s.freeCount i)

/-- WL[i] as the host reads it. -/
def State.wlAt (s : State) (i : Nat) : Nat :=
  match s.wl[i]? with
  | some k => k
  | none => (Config.staleWl s.freeCount i).toNat

/-- CT[i] as the host reads it. -/
def State.ctAt (s : State) (i : Nat) : CodeTuple :=
  match s.ct[i]? with
  | some t => t
  | none => tupleOfBits (Config.staleCt s.freeCount i)

/-- OUT[a] as the host reads it (R83): the byte last written there when OUT_VALID = 1 and a < OUT_LEN, else an
unspecified byte (log entry 3). -/
def State.outByte (s : State) (a : Nat) : Byte :=
  if s.status.outValid && decide (a < s.outLen) then
    match s.outMem.read a with
    | some b => b
    | none => Config.freeOutByte s.freeCount a
  else Config.freeOutByte s.freeCount a

/-- OUT[0..OUT_LEN) as the host reads it. -/
def State.output (s : State) : List Byte := (List.range s.outLen).map s.outByte

/-! ## The register file (R31) -/

/-- A host read of a register: CMD reads as zero, numbers 14, 15 and above read as zero. -/
def State.readReg (s : State) (num : Nat) : Word :=
  match num with
  | 1 => s.status.toWord
  | 2 => s.errCode.zeroExtend 32
  | 3 => s.errInfo
  | 4 => s.inLen
  | 5 => BitVec.ofNat 32 s.outLen
  | 6 => BitVec.ofNat 32 s.nsym
  | 7 => BitVec.ofNat 32 s.padBits
  | 8 => BitVec.ofNat 32 s.bitLen
  | 9 => BitVec.ofNat 32 s.hlen
  | 10 => BitVec.ofNat 32 s.nnodes
  | 11 => BitVec.ofNat 32 s.root
  | 12 => BitVec.ofNat 32 s.wlLen
  | 13 => BitVec.ofNat 32 s.ctLen
  | _ => 0

/-- A host write of a register other than CMD: IN_LEN stores the value, every other register ignores it (R31, R37). -/
def State.writeReg (s : State) (num : Nat) (v : Word) : State :=
  match num with
  | 4 => { s with inLen := v }
  | _ => s

end Sys2Proof.Machine
end

