-- ==== Sys2Proof/Machine/CodeTable.lean ====
section
/-! DEFINITION. The code table generator: CODEGEN (42_code_table_generator.md). -/

namespace Sys2Proof.Machine

/-- `walk(k, c)` (R181): a leaf gives one tuple, an internal node its left subtree and then its right. The first argument
bounds the depth by the number of nodes (R16). -/
def walk (nodeOf : Nat → Node) : Nat → Nat → List Bool → List CodeTuple
  | 0, _, _ => []
  | n + 1, k, c =>
    match nodeOf k with
    | .leaf s _ => [⟨s, c.length, bitVal c⟩]
    | .internal _ l r => walk nodeOf n l (c ++ [false]) ++ walk nodeOf n r (c ++ [true])

/-- The code table of the tree under ROOT. -/
def State.codeTable (s : State) : List CodeTuple := walk s.nodeAt s.nnodes s.root []

/-- The body of CODEGEN without its DONE line (R181). -/
def codegenBody (s : State) : Except Cause State :=
  if !s.codegenReady then .error (.sequence 0x3)
  else .ok { s with ct := s.codeTable, ctLen := s.codeTable.length, status := s.status.afterCodegen }

/-- CODEGEN (R181). -/
def execCodegen (s : State) : Result := run codegenBody s

end Sys2Proof.Machine
end

