-- ==== Sys2Proof/Machine/Control.lean ====
section
/-! DEFINITION. The control commands NOP and CLEAR (45_control_ops.md). -/

namespace Sys2Proof.Machine

/-- NOP (R230): `DONE <- 1`; refused while ERR = 1 (R243). -/
def execNop (s : State) : Result :=
  if s.status.err then .next s else .next s.finish

/-- CLEAR (R231): accepted while ERR = 1 too; the reset state but for IN and IN_LEN. -/
def execClear (s : State) : Result := .next (clearAll s.fresh)

end Sys2Proof.Machine
end

