-- ==== Sys2Proof/Machine/Frequency.lean ====
section
/-! DEFINITION. The symbol frequency counter (40_frequency_counter.md). -/

namespace Sys2Proof.Machine

/-- One turn of FREQ's loop (R150): the first entry with the symbol counts up, or Overflow when it stands at 65535
(R152); with no entry, a new one at the end. -/
def countSym (s : Byte) : List FtEntry → Except Cause (List FtEntry)
  | [] => .ok [⟨s, 1⟩]
  | e :: es =>
    if e.sym = s then
      if e.cnt < 65535 then .ok (⟨e.sym, e.cnt + 1⟩ :: es) else .error (.overflow s)
    else
      match countSym s es with
      | .ok es' => .ok (e :: es')
      | .error c => .error c

/-- FREQ's loop over the input bytes, in order (R150). -/
def countAll : List Byte → List FtEntry → Except Cause (List FtEntry)
  | [], ft => .ok ft
  | s :: bs, ft =>
    match countSym s ft with
    | .ok ft' => countAll bs ft'
    | .error c => .error c

/-- The body of FREQ without its DONE line (R150). -/
def freqBody (s : State) : Except Cause State :=
  let s := internalClear s
  if !s.inputFits then .error .capacityIn
  else
    match countAll s.input [] with
    | .error c => .error c
    | .ok ft => .ok { s with ft := ft, nsym := ft.length, status := s.status.afterFreq }

/-- FREQ (R150). -/
def execFreq (s : State) : Result := run freqBody s

end Sys2Proof.Machine
end

