-- ==== Sys2Proof/Machine/TreeBuilder.lean ====
section
/-! DEFINITION. The tree builder: SEED, MERGE, BUILD (41_tree_builder.md). -/

namespace Sys2Proof.Machine

/-- The body of SEED without its DONE line (R161); `op` is 0xA for SEED and 0x2 inside BUILD. -/
def seedBody (op : BitVec 4) (s : State) : Except Cause State :=
  if !s.seedReady then .error (.sequence op)
  else if s.nsym < 1 then .error .degenerate
  else
    .ok { s with
      node := s.ft.map fun e => .leaf e.sym e.cnt
      nnodes := s.nsym
      wl := List.range s.nsym
      wlLen := s.nsym
      root := 0
      ct := []
      ctLen := 0
      status := s.status.afterSeed s.nsym }

/-- One sort and merge (R163), without MERGE's `require` and DONE lines: the two lightest become the children of a new
node at the end of the sorted remainder. A position beyond the list would be unspecified (U13); with WL_LEN ≥ 2 none is. -/
def mergeOnce (s : State) : State :=
  let sorted := ssort s.weightOf s.wl
  let a := sorted.getD 0 (Config.staleWl s.freeCount 0).toNat
  let b := sorted.getD 1 (Config.staleWl s.freeCount 1).toNat
  let k := s.nnodes
  let len := s.wlLen - 1
  { s with
    node := s.node ++ [.internal (s.weightOf a + s.weightOf b) a b]
    nnodes := k + 1
    wl := sorted.drop 2 ++ [k]
    wlLen := len
    root := if len = 1 then k else s.root
    status := s.status.afterMerge len }

/-- The body of MERGE without its DONE line (R163). -/
def mergeBody (s : State) : Except Cause State :=
  if !s.mergeReady then .error (.sequence 0xB) else .ok (mergeOnce s)

/-- BUILD's loop `while WL_LEN > 1` (R165). WL_LEN falls by one per merge (R16), so WL_LEN turns are enough. -/
def mergeLoop : Nat → State → State
  | 0, s => s
  | n + 1, s => if s.wlLen > 1 then mergeLoop n (mergeOnce s) else s

/-- The body of BUILD without its DONE line (R165). -/
def buildBody (s : State) : Except Cause State :=
  match seedBody 0x2 s with
  | .error c => .error c
  | .ok t => .ok (mergeLoop t.wlLen t)

/-- SEED (R161). -/
def execSeed (s : State) : Result := run (seedBody 0xA) s

/-- MERGE (R163). -/
def execMerge (s : State) : Result := run mergeBody s

/-- BUILD (R165). -/
def execBuild (s : State) : Result := run buildBody s

end Sys2Proof.Machine
end

