-- ==== Sys2Proof/Machine/Encoder.lean ====
section
/-! DEFINITION. The bit-packing encoder: ENCODE and COMPRESS (43_bit_packing_encoder.md). -/

namespace Sys2Proof.Machine

/-- Pass 1 (R191): the length L of the bit-stream, or the first input byte without a code. -/
def measure (ct : List CodeTuple) : List Byte → Nat → Except Cause Nat
  | [], n => .ok n
  | s :: bs, n =>
    match codeOf ct s with
    | none => .error (.noCode s)
    | some t => measure ct bs (n + t.len)

/-- The bits of the code of a byte, first bit first (R192); pass 1 has found a code for every byte. -/
def codeBits (ct : List CodeTuple) (s : Byte) : List Bool :=
  match codeOf ct s with
  | none => []
  | some t => t.bits

/-- `pack` (R192): `acc` is ACC, `n` is BITCNT; the bytes written from offset H on. -/
def pack : Byte → Nat → List Bool → List Byte
  | acc, n, [] => if n > 0 then [acc <<< (8 - n)] else []
  | acc, n, b :: bs =>
    let acc' := (acc <<< 1) ||| BitVec.ofNat 8 b.toNat
    if n + 1 = 8 then acc' :: pack 0 0 bs else pack acc' (n + 1) bs

/-- The three bytes of a header entry (R118): the symbol, `cnt >> 8`, `cnt & 0xFF`. -/
def entryBytes (e : FtEntry) : List Byte :=
  [e.sym, BitVec.ofNat 8 (e.cnt >>> 8), BitVec.ofNat 8 (e.cnt &&& 0xFF)]

/-- The header (R114 to R118): `n - 1`, the padding count, the entries in table order. -/
def headerBytes (n pad : Nat) (ft : List FtEntry) : List Byte :=
  BitVec.ofNat 8 (n - 1) :: BitVec.ofNat 8 pad :: ft.flatMap entryBytes

/-- H = 2 + 3 × n (R116). -/
def headerLength (n : Nat) : Nat := 2 + 3 * n

/-- P = ceil(L / 8) (R10, R119). -/
def payloadLength (bits : Nat) : Nat := (bits + 7) / 8

/-- pad = 8 × P − L (R117, R191). -/
def padCount (bits : Nat) : Nat := 8 * payloadLength bits - bits

/-- The result of a command that fills OUT: its bytes from offset 0 (R83), OUT_LEN their number; bytes at and beyond
OUT_LEN are unspecified (R38). -/
def State.putOut (s : State) (bytes : List Byte) : State :=
  { s with outMem := Memory.writeBytes 0 bytes [], outLen := bytes.length }

/-- The body of ENCODE without its DONE line (R191). -/
def encodeBody (s : State) : Except Cause State :=
  if !s.encodeReady then .error (.sequence 0x4)
  else if !s.inputFits then .error .capacityIn
  else
    match measure s.ct s.input 0 with
    | .error c => .error c
    | .ok bits =>
      let h := headerLength s.nsym
      let pad := padCount bits
      if s.caps.outCap.val < h + payloadLength bits then .error .capacityOut
      else
        let container := headerBytes s.nsym pad s.ft ++ pack 0 0 (s.input.flatMap (codeBits s.ct))
        .ok { s.putOut container with bitLen := bits, padBits := pad, hlen := h, status := s.status.afterEncode }

/-- ENCODE (R191). -/
def execEncode (s : State) : Result := run encodeBody s

/-- The empty result of COMPRESS and DECOMPRESS (R120, R198, R218): no byte of OUT, no bits. FREQ's and HDRPARSE's
clearing step has left PADBITS and HLEN zero. -/
def State.putEmpty (s : State) : State :=
  { s.putOut [] with bitLen := 0, padBits := 0, hlen := 0, status := s.status.setOutValid }

/-- The body of COMPRESS without its DONE line (R198): FREQ, then for a table that is not empty BUILD, CODEGEN, ENCODE. -/
def compressBody (s : State) : Except Cause State :=
  match freqBody s with
  | .error c => .error c
  | .ok s1 =>
    if s1.nsym = 0 then .ok s1.putEmpty
    else
      match buildBody s1 with
      | .error c => .error c
      | .ok s2 =>
        match codegenBody s2 with
        | .error c => .error c
        | .ok s3 => encodeBody s3

/-- COMPRESS (R198). -/
def execCompress (s : State) : Result := run compressBody s

end Sys2Proof.Machine
end

