-- ==== Sys2Proof/Machine/Decoder.lean ====
section
/-! DEFINITION. The header decoder, tree reconstructor and bit-serial decoder: HDRPARSE, DECODE, DECOMPRESS
(44_header_decoder.md). -/

namespace Sys2Proof.Machine

/-- Entry i of the header in IN (R118): the symbol, then the frequency high byte and low byte (R84). -/
def State.headerEntry (s : State) (i : Nat) : FtEntry :=
  ⟨s.memReadIn (2 + 3 * i), (s.memReadIn (3 + 3 * i)).toNat <<< 8 ||| (s.memReadIn (4 + 3 * i)).toNat⟩

/-- The body of HDRPARSE without its DONE lines (R210). -/
def hdrparseBody (s : State) : Except Cause State :=
  let s := internalClear s
  let len := s.inLen.toNat
  if !s.inputFits then .error .capacityIn
  else if len = 0 then .ok { s with status := s.status.afterHdrparse }
  else if len < 2 then .error .formatTruncated
  else
    let n := (s.memReadIn 0).toNat + 1
    let h := headerLength n
    let pad := (s.memReadIn 1).toNat
    if len < h then .error .formatTruncated
    else if 7 < pad then .error .formatPadRange
    else if len = h ∧ pad ≠ 0 then .error .formatPadNoPayload
    else
      .ok { s with
        ft := (List.range n).map s.headerEntry
        nsym := n
        padBits := pad
        hlen := h
        status := s.status.afterHdrparse }

/-- HDRPARSE (R210). -/
def execHdrparse (s : State) : Result := run hdrparseBody s

/-- T, the number of payload bits after the padding is dropped (R213). -/
def State.payloadBits (s : State) : Nat := 8 * (s.inLen.toNat - s.hlen) - s.padBits

/-- Bit j of the bit-stream in IN (R85, R213). -/
def State.streamBit (s : State) (j : Nat) : Bool :=
  ((s.memReadIn (s.hlen + j / 8)).toNat >>> (7 - j % 8)) % 2 == 1

/-- The T bits DECODE walks along. -/
def State.stream (s : State) : List Bool := (List.range s.payloadBits).map s.streamBit

/-- The decoder's loop (R213): `cur` is the current node, `n` the number of bytes written; a leaf gives its symbol, if OUT
has room, and the walk goes back to the root. `cur` is the root, which is no leaf here, or a node the walk has found
internal, so the third line of the match is never taken. -/
def decodeBits (nodeOf : Nat → Node) (root cap : Nat) : List Bool → Nat → Nat → Except Cause (List Byte)
  | [], cur, _ => if cur = root then .ok [] else .error .formatMidCode
  | b :: bs, cur, n =>
    match nodeOf cur with
    | .leaf _ _ => .error .formatMidCode
    | .internal _ l r =>
      let next := if b then r else l
      match nodeOf next with
      | .internal _ _ _ => decodeBits nodeOf root cap bs next n
      | .leaf sym _ =>
        if n < cap then
          match decodeBits nodeOf root cap bs root (n + 1) with
          | .ok out => .ok (sym :: out)
          | .error c => .error c
        else .error .capacityOut

/-- The decoded bytes (R213), with the single-leaf case (R214): the symbol as many times as the header frequency says. -/
def State.decoded (s : State) : Except Cause (List Byte) :=
  match s.nodeAt s.root with
  | .leaf sym w =>
    if s.payloadBits ≠ 0 then .error .formatSinglePayload
    else if s.caps.outCap.val < w then .error .capacityOut
    else .ok (List.replicate w sym)
  | .internal _ _ _ => decodeBits s.nodeAt s.root s.caps.outCap.val s.stream s.root 0

/-- The body of DECODE without its DONE line (R213). -/
def decodeBody (s : State) : Except Cause State :=
  if !s.decodeReady then .error (.sequence 0x6)
  else if !s.inputFits then .error .capacityIn
  else if !s.lengthConsistent then .error (.sequence 0x6)
  else
    match s.decoded with
    | .error c => .error c
    | .ok out => .ok { s.putOut out with bitLen := s.payloadBits, status := s.status.setOutValid }

/-- DECODE (R213). -/
def execDecode (s : State) : Result := run decodeBody s

/-- The body of DECOMPRESS without its DONE line (R218): HDRPARSE, then for a container that is not empty BUILD, DECODE. -/
def decompressBody (s : State) : Except Cause State :=
  match hdrparseBody s with
  | .error c => .error c
  | .ok s1 =>
    if s1.nsym = 0 then .ok s1.putEmpty
    else
      match buildBody s1 with
      | .error c => .error c
      | .ok s2 => decodeBody s2

/-- DECOMPRESS (R218). -/
def execDecompress (s : State) : Result := run decompressBody s

end Sys2Proof.Machine
end

