-- ==== Sys2Proof/Machine/Dispatch.lean ====
section
/-! DEFINITION. One arm per command of R112. -/

namespace Sys2Proof.Machine

/-- The command i run at s (R243 steps 1 and 3). -/
def exec (i : Instr) (s : State) : Host.Outcome State Fault Refusal :=
  match i with
  | .nop => Sys2Proof.Machine.execNop s
  | .freq => Sys2Proof.Machine.execFreq s
  | .build => Sys2Proof.Machine.execBuild s
  | .codegen => Sys2Proof.Machine.execCodegen s
  | .encode => Sys2Proof.Machine.execEncode s
  | .hdrparse => Sys2Proof.Machine.execHdrparse s
  | .decode => Sys2Proof.Machine.execDecode s
  | .compress => Sys2Proof.Machine.execCompress s
  | .decompress => Sys2Proof.Machine.execDecompress s
  | .clear => Sys2Proof.Machine.execClear s
  | .seed => Sys2Proof.Machine.execSeed s
  | .merge => Sys2Proof.Machine.execMerge s

end Sys2Proof.Machine
end

