-- ==== Sys2Proof/Machine/HostAccess.lean ====
section
/-! DEFINITION. The host's accesses other than a write to CMD (R31, R80 to R83, R97, R275). A read has no side effect on
HTB (R88); its value goes to the model's own field `hostData` (log entry 6). -/

namespace Sys2Proof.Machine

/-- Write a byte of IN (R80, R82). The spec gives IN no offset at or above IN_CAP (log entry 7). -/
def hostWriteIn (off : Nat) (b : Byte) (s : State) : Result :=
  if off < s.caps.inCap.val then .next { s with inMem := Memory.write off b s.inMem } else .fault (.inOffset off)

/-- Write a register other than CMD (R31). -/
def hostWriteReg (num : Nat) (v : Word) (s : State) : Result := .next (s.writeReg num v)

/-- Read a register (R31). -/
def hostReadReg (num : Nat) (s : State) : Result := .next { s with hostData := .word (s.readReg num) }

/-- Read a byte of IN (R80). -/
def hostReadIn (off : Nat) (s : State) : Result :=
  if off < s.caps.inCap.val then .next { s with hostData := .byte (s.memReadIn off) } else .fault (.inOffset off)

/-- Read a byte of OUT (R83). -/
def hostReadOut (off : Nat) (s : State) : Result :=
  if off < s.caps.outCap.val then .next { s with hostData := .byte (s.outByte off) } else .fault (.outOffset off)

/-- Read an entry of FT, of 256 (R44, R80). -/
def hostReadFt (i : Nat) (s : State) : Result :=
  if i < 256 then .next { s with hostData := .entry (s.ftAt i) } else .fault (.arrayIndex i)

/-- Read an entry of NODE, of 511 (R45, R80). -/
def hostReadNode (i : Nat) (s : State) : Result :=
  if i < 511 then .next { s with hostData := .node (s.nodeAt i) } else .fault (.arrayIndex i)

/-- Read an entry of WL, of 256 (R46, R80). -/
def hostReadWl (i : Nat) (s : State) : Result :=
  if i < 256 then .next { s with hostData := .ident (s.wlAt i) } else .fault (.arrayIndex i)

/-- Read an entry of CT, of 256 (R48, R80). -/
def hostReadCt (i : Nat) (s : State) : Result :=
  if i < 256 then .next { s with hostData := .tuple (s.ctAt i) } else .fault (.arrayIndex i)

/-- `.mov` (R97, R125): IN[0..OUT_LEN) <- OUT[0..OUT_LEN), IN_LEN <- OUT_LEN. -/
def hostMov (s : State) : Result :=
  if s.outLen ≤ s.caps.inCap.val then
    .next { s with inMem := Memory.writeBytes 0 s.output s.inMem, inLen := BitVec.ofNat 32 s.outLen }
  else .fault (.inOffset s.caps.inCap.val)

/-- `.in <bytes>` (R125) as host accesses: the bytes from offset 0, then their number to IN_LEN. -/
def hostLoad (bytes : List Byte) : List HostAction :=
  (bytes.zipIdx.map fun p => .writeIn p.2 p.1) ++ [.writeReg 4 (BitVec.ofNat 32 bytes.length)]

/-- A mnemonic statement, or `.word <hex>` (R125): a host write of the word to CMD. -/
def hostCommand (c : Word) : HostAction := .writeReg 0 c

end Sys2Proof.Machine
end

