-- ==== Sys2Proof/Machine/Step.lean ====
section
/-! DEFINITION. One step: the host's next access, and the command it runs when it is a write to CMD (R15, R33, R243). -/

namespace Sys2Proof.Machine

/-- A host write of the word c to CMD (R33, R111, R243). -/
def issueCommand (c : Word) (s : State) : Host.Outcome State Fault Refusal :=
  match decodeWord c with
  | .ok i => exec i s
  | .error _ => illegalCommand c s

/-- One access of the host (R275). -/
def hostStep (a : HostAction) (s : State) : Host.Outcome State Fault Refusal :=
  match a with
  | .writeIn off b => hostWriteIn off b s
  | .writeReg num v => if num = 0 then issueCommand v s else hostWriteReg num v s
  | .readReg num => hostReadReg num s
  | .readIn off => hostReadIn off s
  | .readOut off => hostReadOut off s
  | .readFt i => hostReadFt i s
  | .readNode i => hostReadNode i s
  | .readWl i => hostReadWl i s
  | .readCt i => hostReadCt i s
  | .mov => hostMov s

/-- One step: the oldest access the host still has to make; with none, the machine is idle (R15, log entry 1). -/
def step (s : State) : Host.Outcome State Fault Refusal :=
  match s.host with
  | [] => .next s
  | a :: rest => hostStep a { s with host := rest }

/-- The state in which the host's next access is a write to CMD of the word whose bits are w (log entry 1). A value that
is no 32-bit word cannot be written to a register; it changes nothing. -/
def State.withFetchWord (s : State) (nbits w : Nat) : State :=
  match tableWord nbits w with
  | none => s
  | some c => { s with host := hostCommand c :: s.host }

end Sys2Proof.Machine
end

