-- ==== Sys2Proof/Safety.lean ====
section
/-! DEFINITION. The terms the claims use: what a successful run is (R17), the invariant of the machine (R34, R38 to R48,
R52, R167), closed forms of what the commands compute (R115 to R119, R151, R168, R192), and the source's own invariants and properties
(R19, R20; R20's entropy bound is of the metrics that R5 leaves out). -/

namespace Sys2Proof.Machine

/-- A run succeeded: DONE = 1 and ERR = 0 (R17). -/
def State.succeeded (s : State) : Bool := s.status.done && !s.status.err

/-- The host may use OUT[0..OUT_LEN) (R272, R276). -/
def State.outputUsable (s : State) : Bool := s.status.outValid && !s.status.err

/-- Run commands one after the other, as the host does by writing their words to CMD (R32). -/
def execAll : List Instr → State → Result
  | [], s => .next s
  | i :: is, s =>
    match exec i s with
    | .next t => execAll is t
    | .fault r => .fault r
    | .refused r => .refused r

/-- Two states agree but for the model's own counter of free values. -/
def SameButCount (s t : State) : Prop := { s with freeCount := 0 } = { t with freeCount := 0 }

/-- The part of the state that no command writes: the capacities (R9), IN and IN_LEN (R37, R81), and the host's side. -/
structure SameInput (s t : State) : Prop where
  caps : t.caps = s.caps
  inLen : t.inLen = s.inLen
  inMem : t.inMem = s.inMem
  host : t.host = s.host
  hostData : t.hostData = s.hostData

/-! ## Closed forms -/

/-- Σ cnt over the frequency table. -/
def totalCount (ft : List FtEntry) : Nat := (ft.map FtEntry.cnt).sum

/-- The frequency table of a byte sequence (R151): its distinct bytes in order of first occurrence, each with the number
of its occurrences. -/
def freqTable (x : List Byte) : List FtEntry := x.eraseDups.map fun b => ⟨b, x.count b⟩

/-- The finished tree over a table (R161, R165), in a state that holds nothing else. -/
def treeOf (ft : List FtEntry) : State :=
  mergeLoop ft.length
    { State.reset with
      ft := ft, nsym := ft.length, node := ft.map fun e => .leaf e.sym e.cnt, nnodes := ft.length
      wl := List.range ft.length, wlLen := ft.length }

/-- The code table of the tree over a table (R168, R181). -/
def codesOf (ft : List FtEntry) : List CodeTuple := (treeOf ft).codeTable

/-- The payload bytes of a bit-stream (R119, R192, closed form): with the stream filled up by zero bits, byte m is
val(B[8m .. 8m + 8)). -/
def payloadOf (bits : List Bool) : List Byte :=
  (List.range (payloadLength bits.length)).map fun m =>
    BitVec.ofNat 8 (bitVal (((bits ++ List.replicate (padCount bits.length) false).drop (8 * m)).take 8))

/-- The container of a byte sequence (R114 to R120): empty for the empty input. -/
def containerOf (x : List Byte) : List Byte :=
  if x = [] then []
  else
    let ft := freqTable x
    let bits := x.flatMap (codeBits (codesOf ft))
    headerBytes ft.length (padCount bits.length) ft ++ payloadOf bits

/-- The eight bits of a byte, most significant first (R85). -/
def byteBits (b : Byte) : List Bool := bitsOf 8 b.toNat

/-- The node that a bit-string leads to from node k: a 0 goes to the left child, a 1 to the right (R180, R213); a leaf has
no child to go to. -/
def State.follow (s : State) : Nat → List Bool → Option Nat
  | k, [] => some k
  | k, b :: bs =>
    match s.nodeAt k with
    | .leaf _ _ => none
    | .internal _ l r => s.follow (if b then r else l) bs

/-! ## The source's invariants and properties (R19, R20) -/

/-- No code is a prefix of another (R19, R20, R184). -/
def PrefixFree (ct : List CodeTuple) : Prop :=
  ∀ (i j : Nat) (c d : CodeTuple), ct[i]? = some c → ct[j]? = some d → i ≠ j → ¬ (c.bits <+: d.bits)

/-- The first three invariants of R19, of the tables a compress path has made from the input x. -/
structure SourceInvariants (x : List Byte) (t : State) : Prop where
  /-- "Every Symbol appearing in the input appears exactly once in FrequencyTable and CodeTable." -/
  once : ∀ b ∈ x, t.ft.countP (fun e => e.sym == b) = 1 ∧ t.ct.countP (fun c => c.sym == b) = 1
  /-- "The tree has exactly |FrequencyTable| leaves". -/
  leaves : t.node.countP Node.isLeaf = t.ft.length
  /-- "codes are prefix-free". -/
  prefixFree : PrefixFree t.ct
  /-- "Sum over leaves of frequency × code_length equals the exact bit-length of the encoded stream". -/
  bitLength : (t.ft.map fun e => e.cnt * (codeBits t.ct e.sym).length).sum = t.bitLen

/-- Header integrity (R20): byte 0 plus 1 is the number of triplets the header's length counts, NSYM, and |FT|. -/
structure HeaderIntegrity (t : State) : Prop where
  symbols : (t.memReadIn 0).toNat + 1 = t.nsym
  triplets : t.hlen = 2 + 3 * t.nsym
  entries : t.ft.length = t.nsym

/-- The round trip (R19, R20, R222): COMPRESS, `.mov`, DECOMPRESS give the input back. -/
def RoundTrips (s : State) : Prop :=
  ∃ t u v, exec .compress s = .next t ∧ hostMov t = .next u ∧ exec .decompress u = .next v ∧
    v.status.err = false ∧ v.status.outValid = true ∧ v.output = s.input

/-! ## The invariant -/

/-- Every register and entry lies in the width the spec gives it (R38 to R48), after an error too. -/
structure Widths (s : State) : Prop where
  outLen : s.outLen < 2 ^ 32
  nsym : s.nsym < 2 ^ 9
  padBits : s.padBits < 2 ^ 3
  bitLen : s.bitLen < 2 ^ 32
  hlen : s.hlen < 2 ^ 10
  nnodes : s.nnodes < 2 ^ 10
  root : s.root < 2 ^ 9
  wlLen : s.wlLen < 2 ^ 9
  ctLen : s.ctLen < 2 ^ 9
  ft : s.ft.length ≤ 256 ∧ ∀ e ∈ s.ft, e.cnt < 2 ^ 16
  node : s.node.length ≤ 511 ∧ ∀ n ∈ s.node, n.weight < 2 ^ 24 ∧ ∀ k ∈ n.children, k < 2 ^ 9
  wl : s.wl.length ≤ 256 ∧ ∀ k ∈ s.wl, k < 2 ^ 9
  ct : s.ct.length ≤ 256 ∧ ∀ t ∈ s.ct, t.len < 2 ^ 8 ∧ t.val < 2 ^ 255

/-- A node stands where it may in the arena (R45): leaves first, then internal nodes, each the sum of two earlier ones. -/
def nodeInPlace (s : State) (n : Node) (i : Nat) : Bool :=
  match n with
  | .leaf _ _ => decide (i < s.nsym)
  | .internal w l r => decide (s.nsym ≤ i ∧ l < i ∧ r < i ∧ w = s.weightOf l + s.weightOf r)

/-- The arena and working list of a tree under construction or finished (R45, R46, R161 to R167). -/
structure ArenaOk (s : State) : Prop where
  seeded : 1 ≤ s.nsym
  leaves : s.node.take s.nsym = s.ft.map fun e => .leaf e.sym e.cnt
  inPlace : ∀ p ∈ s.node.zipIdx, nodeInPlace s p.1 p.2 = true
  /-- Every node is in the working list or the child of a node, and exactly once in all. -/
  owned : (s.wl ++ s.node.flatMap Node.children).Perm (List.range s.nnodes)
  counts : s.nnodes + s.wlLen = 2 * s.nsym
  nonempty : 1 ≤ s.wlLen
  total : (s.wl.map s.weightOf).sum = totalCount s.ft
  bounded : ∀ n ∈ s.node, n.weight ≤ totalCount s.ft
  /-- Nodes of equal weight stand in the order of their identifiers (R166). -/
  ties : s.wl.Pairwise fun a b => s.weightOf a = s.weightOf b → a < b

/-- The state while ERR = 0 (R34 to R48, R52). -/
structure Coherent (s : State) : Prop where
  errCode : s.errCode = 0
  errInfo : s.errInfo = 0
  nsym : s.nsym = s.ft.length
  nnodes : s.nnodes = s.node.length
  wlLen : s.wlLen = s.wl.length
  ctLen : s.ctLen = s.ct.length
  done : s.status.ftValid = true → s.status.done = true
  noTable : s.status.ftValid = false → s.ft = []
  noList : s.status.wlValid = false → s.node = [] ∧ s.wl = []
  noCodes : s.status.ctValid = false → s.ct = []
  noOutput : s.status.outValid = false → s.outLen = 0 ∧ s.outMem = []
  header : s.status.hdrValid = true →
    s.status.ftValid = true ∧ s.hlen = (if s.nsym = 0 then 0 else headerLength s.nsym) ∧ (s.nsym = 0 → s.padBits = 0)
  list : s.status.wlValid = true → s.status.ftValid = true ∧ ArenaOk s
  finished : s.status.wlValid = true → (s.status.treeValid = true ↔ s.wlLen = 1)
  tree : s.status.treeValid = true → s.status.wlValid = true ∧ s.wl = [s.root]
  codes : s.status.ctValid = true → s.status.treeValid = true ∧ s.ct = s.codeTable
  output : s.status.outValid = true →
    s.status.ftValid = true ∧ s.outMem.map Prod.fst = List.range s.outLen ∧ s.outLen ≤ s.caps.outCap.val

/-- The errors each command can end in: the x marks of R242, with the details of R240, R241 and R244. -/
def mayRaise : Instr → Cause → Bool
  | .freq, .overflow _ | .freq, .capacityIn => true
  | .seed, .degenerate | .build, .degenerate => true
  | .seed, .sequence op => op == 0xA
  | .build, .sequence op => op == 0x2
  | .merge, .sequence op => op == 0xB
  | .codegen, .sequence op => op == 0x3
  | .encode, .sequence op => op == 0x4
  | .encode, .noCode _ | .encode, .capacityIn | .encode, .capacityOut => true
  | .hdrparse, .formatTruncated | .hdrparse, .formatPadRange | .hdrparse, .formatPadNoPayload => true
  | .hdrparse, .capacityIn => true
  | .decode, .formatMidCode | .decode, .formatSinglePayload | .decode, .capacityIn | .decode, .capacityOut => true
  | .decode, .sequence op => op == 0x6
  | .compress, .overflow _ | .compress, .capacityIn | .compress, .capacityOut => true
  | .decompress, .formatTruncated | .decompress, .formatPadRange | .decompress, .formatPadNoPayload => true
  | .decompress, .formatMidCode | .decompress, .formatSinglePayload => true
  | .decompress, .capacityIn | .decompress, .capacityOut => true
  | _, _ => false

/-- The causes HTB records (R240, R241): Sequence names one of six commands, IllegalCommand a word that is none. -/
def Cause.legal : Cause → Bool
  | .sequence op => decide (op.toNat ∈ [0x2, 0x3, 0x4, 0x6, 0xA, 0xB])
  | .illegalCommand c => !wordWf c
  | _ => true

/-- The state while ERR = 1 (R240, R241, R247). -/
structure Errored (s : State) : Prop where
  status : s.status = Status.errored
  cause : ∃ e : Cause, e.legal = true ∧ s.errCode = e.code ∧ s.errInfo = e.info

/-- The invariant: the buffers keep their canonical form inside their spaces, every width holds, and the state is an error
state or a coherent one. -/
structure StateInv (s : State) : Prop where
  inWf : s.inMem.wf
  inBound : ∀ c ∈ s.inMem, c.1 < s.caps.inCap.val
  outWf : s.outMem.wf
  widths : Widths s
  errored : s.status.err = true → Errored s
  coherent : s.status.err = false → Coherent s

end Sys2Proof.Machine
end

