-- ==== Sys2Proof/Certificates/Slice0/Obligations.lean ====
section
/-! DEFINITION. The statements for the provers. Each docstring names the rules of spec/ it formalises. `s.fresh` is `s` with
the model's own counter of free values moved on by one (log entry 4); it is no state of the spec's. -/

open Sys2Proof Sys2Proof.Machine

/-! ## Reset, registers, host accesses, steps -/

/-- R51: the reset table, for every capacity; and CLEAR restores it but for IN_LEN and the bytes of IN. That a byte of IN
or OUT is unspecified is said as: the buffer lists none. (The host's fields and the draw counter are the model's, log
entries 1, 6, 4.) -/
def Obligations.ResetIsTheTable : Prop :=
  (∀ caps n, (State.resetWith caps).readReg n = 0) ∧
  (∀ caps, (State.resetWith caps).ft = [] ∧ (State.resetWith caps).node = [] ∧ (State.resetWith caps).wl = [] ∧
    (State.resetWith caps).ct = [] ∧ (State.resetWith caps).caps = caps) ∧
  (∀ caps a, (State.resetWith caps).inMem.read a = none ∧ (State.resetWith caps).outMem.read a = none) ∧
  (∃ caps, State.reset = State.resetWith caps) ∧
  (∀ s, exec .clear s = .next { State.resetWith s.caps with
    inLen := s.inLen, inMem := s.inMem, host := s.host, hostData := s.hostData, freeCount := s.freeCount + 1 })

/-- The invariant holds after reset, whatever the capacities. -/
def Obligations.ResetMeetsInvariant : Prop := ∀ caps, StateInv (State.resetWith caps)

/-- R31: the register file by number: what a write and a read of each number does. -/
def Obligations.RegisterFileByNumber : Prop :=
  (∀ s c rest i, s.host = .writeReg 0 c :: rest → decodeWord c = .ok i → step s = exec i { s with host := rest }) ∧
  (∀ s v rest, s.host = .writeReg 4 v :: rest → step s = .next { s with host := rest, inLen := v }) ∧
  (∀ s n v rest, n ≠ 0 → n ≠ 4 → s.host = .writeReg n v :: rest → step s = .next { s with host := rest }) ∧
  (∀ s n rest, s.host = .readReg n :: rest →
    step s = .next { s with host := rest, hostData := .word (s.readReg n) }) ∧
  (∀ s : State, s.readReg 0 = 0 ∧ s.readReg 1 = s.status.toWord ∧ s.readReg 2 = s.errCode.zeroExtend 32 ∧
    s.readReg 3 = s.errInfo ∧ s.readReg 4 = s.inLen ∧ s.readReg 5 = BitVec.ofNat 32 s.outLen ∧
    s.readReg 6 = BitVec.ofNat 32 s.nsym ∧ s.readReg 7 = BitVec.ofNat 32 s.padBits ∧
    s.readReg 8 = BitVec.ofNat 32 s.bitLen ∧ s.readReg 9 = BitVec.ofNat 32 s.hlen ∧
    s.readReg 10 = BitVec.ofNat 32 s.nnodes ∧ s.readReg 11 = BitVec.ofNat 32 s.root ∧
    s.readReg 12 = BitVec.ofNat 32 s.wlLen ∧ s.readReg 13 = BitVec.ofNat 32 s.ctLen) ∧
  (∀ (s : State) n, 14 ≤ n → s.readReg n = 0)

/-- The places of the bits of STATUS, and that bits 31:8 read as zero (table of R34; what sets and clears each is in the
commands' statements). -/
def Obligations.StatusBits : Prop :=
  ∀ f : Status,
    f.toWord.getLsbD 0 = f.done ∧ f.toWord.getLsbD 1 = f.err ∧ f.toWord.getLsbD 2 = f.ftValid ∧
    f.toWord.getLsbD 3 = f.hdrValid ∧ f.toWord.getLsbD 4 = f.wlValid ∧ f.toWord.getLsbD 5 = f.treeValid ∧
    f.toWord.getLsbD 6 = f.ctValid ∧ f.toWord.getLsbD 7 = f.outValid ∧ ∀ j, 8 ≤ j → f.toWord.getLsbD j = false

/-- The fields of R35 and R38 to R43. That they hold while ERR = 1 too, where R247 and R52 leave the contents unspecified,
is the model's inference, log entry 9; that a register holds a natural is log entry 12. In every state of the invariant a register reads as the value the model holds, so that the bits above its
field read as zero. -/
def Obligations.RegistersReadWithinTheirFields : Prop :=
  ∀ s, StateInv s →
    (s.readReg 2).toNat < 2 ^ 4 ∧ (s.readReg 5).toNat = s.outLen ∧
    ((s.readReg 6).toNat = s.nsym ∧ s.nsym < 2 ^ 9) ∧ ((s.readReg 7).toNat = s.padBits ∧ s.padBits < 2 ^ 3) ∧
    (s.readReg 8).toNat = s.bitLen ∧ ((s.readReg 9).toNat = s.hlen ∧ s.hlen < 2 ^ 10) ∧
    ((s.readReg 10).toNat = s.nnodes ∧ s.nnodes < 2 ^ 10) ∧ ((s.readReg 11).toNat = s.root ∧ s.root < 2 ^ 9) ∧
    ((s.readReg 12).toNat = s.wlLen ∧ s.wlLen < 2 ^ 9) ∧ ((s.readReg 13).toNat = s.ctLen ∧ s.ctLen < 2 ^ 9)

/-- A host write to IN (R82): the byte reads as written, no other byte and nothing else changes. -/
def Obligations.InputByteReadsAsWritten : Prop :=
  ∀ s off b rest, s.host = .writeIn off b :: rest → off < s.caps.inCap.val →
    ∃ t, step s = .next t ∧ t.memReadIn off = b ∧ (∀ a, a ≠ off → t.memReadIn a = s.memReadIn a) ∧
      { t with inMem := s.inMem, host := s.host } = s

/-- R88's sentence on reads, R82, R83 and the arrays (R44 to R48): a host read inside a buffer or an array completes,
returns the byte or entry that stands there, and has no side effect on HTB. Its value goes to the model's own field (log
entry 6); a byte or entry that the spec leaves unspecified is a free value (log entries 2, 3, 8). -/
def Obligations.ReadsHaveNoSideEffect : Prop :=
  (∀ (s t : State) a rest, s.host = a :: rest →
    (∃ i, a ∈ [.readReg i, .readIn i, .readOut i, .readFt i, .readNode i, .readWl i, .readCt i]) →
    step s = .next t → { t with hostData := s.hostData, host := s.host } = s) ∧
  (∀ s a rest, s.host = .readIn a :: rest → a < s.caps.inCap.val →
    step s = .next { s with host := rest, hostData := .byte (s.memReadIn a) }) ∧
  (∀ s a rest, s.host = .readOut a :: rest → a < s.caps.outCap.val →
    step s = .next { s with host := rest, hostData := .byte (s.outByte a) }) ∧
  (∀ s i rest, s.host = .readFt i :: rest → i < 256 →
    step s = .next { s with host := rest, hostData := .entry (s.ftAt i) }) ∧
  (∀ s i rest, s.host = .readNode i :: rest → i < 511 →
    step s = .next { s with host := rest, hostData := .node (s.nodeAt i) }) ∧
  (∀ s i rest, s.host = .readWl i :: rest → i < 256 →
    step s = .next { s with host := rest, hostData := .ident (s.wlAt i) }) ∧
  (∀ s i rest, s.host = .readCt i :: rest → i < 256 →
    step s = .next { s with host := rest, hostData := .tuple (s.ctAt i) }) ∧
  (∀ (s : State) a b, s.inMem.read a = some b → s.memReadIn a = b) ∧
  (∀ (s : State) a b, s.status.outValid = true → a < s.outLen → s.outMem.read a = some b → s.outByte a = b) ∧
  (∀ (s : State) i e, s.ft[i]? = some e → s.ftAt i = e) ∧
  (∀ (s : State) i n, s.node[i]? = some n → s.nodeAt i = n) ∧
  (∀ (s : State) i k, s.wl[i]? = some k → s.wlAt i = k) ∧
  (∀ (s : State) i c, s.ct[i]? = some c → s.ctAt i = c)

/-- The copy of R97: `.mov` makes the bytes of OUT the input, and changes nothing else, no byte of IN at or above OUT_LEN
either. -/
def Obligations.MovCopiesTheOutput : Prop :=
  ∀ s rest, StateInv s → s.host = .mov :: rest → s.outLen ≤ s.caps.inCap.val →
    ∃ t, step s = .next t ∧ t.inLen.toNat = s.outLen ∧ t.input = s.output ∧
      (∀ a, s.outLen ≤ a → t.memReadIn a = s.memReadIn a) ∧
      { t with inMem := s.inMem, inLen := s.inLen, host := s.host } = s

/-- The model's choice (log entry 7): a host access at a position the spec gives no buffer or array stops. -/
def Obligations.AccessOutsideTheSpacesStops : Prop :=
  (∀ s off b rest, s.host = .writeIn off b :: rest → s.caps.inCap.val ≤ off → step s = .fault (.inOffset off)) ∧
  (∀ s off rest, s.host = .readIn off :: rest → s.caps.inCap.val ≤ off → step s = .fault (.inOffset off)) ∧
  (∀ s off rest, s.host = .readOut off :: rest → s.caps.outCap.val ≤ off → step s = .fault (.outOffset off)) ∧
  (∀ s i rest, s.host = .readFt i :: rest → 256 ≤ i → step s = .fault (.arrayIndex i)) ∧
  (∀ s i rest, s.host = .readNode i :: rest → 511 ≤ i → step s = .fault (.arrayIndex i)) ∧
  (∀ s i rest, s.host = .readWl i :: rest → 256 ≤ i → step s = .fault (.arrayIndex i)) ∧
  (∀ s i rest, s.host = .readCt i :: rest → 256 ≤ i → step s = .fault (.arrayIndex i)) ∧
  (∀ s rest, s.host = .mov :: rest → s.caps.inCap.val < s.outLen → ∃ r, step s = .fault r)

/-- R33: a write of a word to CMD is one step that runs the one command it encodes, or takes IllegalCommand; CMD stores
nothing and reads as zero. (That the host's accesses stand in a list is the model's form, log entry 1.) -/
def Obligations.StepRunsTheCommandWritten : Prop :=
  (∀ s c rest i, s.host = .writeReg 0 c :: rest → decodeWord c = .ok i → step s = exec i { s with host := rest }) ∧
  (∀ s c rest e, s.host = .writeReg 0 c :: rest → decodeWord c = .error e →
    step s = illegalCommand c { s with host := rest }) ∧
  (∀ s : State, s.readReg 0 = 0)

/-- The model's choice (log entry 1): a word placed in front of the host's accesses runs at the next step, at the very
state it was placed in; with no access left the machine is idle. -/
def Obligations.PlacedWordRunsAndEmptyListIdles : Prop :=
  (∀ s i, step (s.withFetchWord 32 (encode i).toNat) = exec i s) ∧
  (∀ (s : State) w, w < 2 ^ 32 → (∀ i, decodeTableWord 32 w = some i → step (s.withFetchWord 32 w) = exec i s) ∧
    (decodeTableWord 32 w = none → step (s.withFetchWord 32 w) = illegalCommand (BitVec.ofNat 32 w) s)) ∧
  (∀ s, s.host = [] → step s = .next s)

/-! ## Encodings -/

/-- R112: the twelve words. -/
def Obligations.TwelveWordsDecode : Prop :=
  decodeWord 0x00000000#32 = .ok .nop ∧ decodeWord 0x00000001#32 = .ok .freq ∧
  decodeWord 0x00000002#32 = .ok .build ∧ decodeWord 0x00000003#32 = .ok .codegen ∧
  decodeWord 0x00000004#32 = .ok .encode ∧ decodeWord 0x00000005#32 = .ok .hdrparse ∧
  decodeWord 0x00000006#32 = .ok .decode ∧ decodeWord 0x00000007#32 = .ok .compress ∧
  decodeWord 0x00000008#32 = .ok .decompress ∧ decodeWord 0x00000009#32 = .ok .clear ∧
  decodeWord 0x0000000A#32 = .ok .seed ∧ decodeWord 0x0000000B#32 = .ok .merge

/-- R111: over all 2^32 words, a word decodes to a command exactly when it is that command's word, and to none exactly when
bits 31:4 are not zero or bits 3:0 are a reserved code (R113); a word of the second kind raises IllegalCommand(c). -/
def Obligations.DecoderIsExact : Prop :=
  (∀ c i, decodeWord c = .ok i ↔ c = encode i) ∧
  (∀ c, (∃ e, decodeWord c = .error e) ↔ (c.toNat / 16 ≠ 0 ∨ 0xC ≤ c.toNat % 16)) ∧
  (∀ s c rest, s.host = .writeReg 0 c :: rest → s.status.err = false → (c.toNat / 16 ≠ 0 ∨ 0xC ≤ c.toNat % 16) →
    step s = .next (raise (.illegalCommand c) { s.fresh with host := rest }))

/-- R113: every word that is not one of the twelve raises IllegalCommand, with the word as the detail. -/
def Obligations.OtherWordsAreIllegal : Prop :=
  ∀ s c rest, s.host = .writeReg 0 c :: rest → s.status.err = false → (∀ i, c ≠ encode i) →
    ∃ t, step s = .next t ∧ t.status = Status.errored ∧ t.errCode = 6 ∧ t.errInfo = c ∧
      t.inLen = s.inLen ∧ t.inMem = s.inMem ∧ t.caps = s.caps ∧ t.host = rest

/-! ## Errors and control commands -/

/-- R230: NOP. -/
def Obligations.NopSetsDoneOnly : Prop :=
  (∀ s, s.status.err = false → exec .nop s = .next { s with status := { s.status with done := true } }) ∧
  (∀ s, s.status.err = true → exec .nop s = .next s)

/-- R231: CLEAR always succeeds, in the error state too, and gives the reset state but for IN and IN_LEN. -/
def Obligations.ClearGivesTheResetState : Prop :=
  ∀ s, ∃ t, exec .clear s = .next t ∧ t.status.toWord = 0 ∧ t.errCode = 0 ∧ t.errInfo = 0 ∧
    t = { State.resetWith s.caps with
      inLen := s.inLen, inMem := s.inMem, host := s.host, hostData := s.hostData, freeCount := s.freeCount + 1 }

/-- R281 (R243 step 1): while ERR = 1 every word but CLEAR's changes nothing. -/
def Obligations.RefusedWhileErrorStands : Prop :=
  ∀ s c rest, s.host = .writeReg 0 c :: rest → s.status.err = true → c ≠ 0x00000009#32 →
    step s = .next { s with host := rest }

/-- The codes of R240 and the details of R241 (when each cause arises is in the commands' statements). -/
def Obligations.CausesAndDetails : Prop :=
  Cause.formatTruncated.code = 1 ∧ Cause.formatTruncated.info = 1 ∧
  Cause.formatPadRange.code = 1 ∧ Cause.formatPadRange.info = 2 ∧
  Cause.formatPadNoPayload.code = 1 ∧ Cause.formatPadNoPayload.info = 3 ∧
  Cause.formatMidCode.code = 1 ∧ Cause.formatMidCode.info = 4 ∧
  Cause.formatSinglePayload.code = 1 ∧ Cause.formatSinglePayload.info = 5 ∧
  Cause.degenerate.code = 2 ∧ Cause.degenerate.info = 0 ∧
  (∀ s, (Cause.overflow s).code = 3 ∧ (Cause.overflow s).info.toNat = s.toNat) ∧
  (∀ op, (Cause.sequence op).code = 4 ∧ (Cause.sequence op).info.toNat = op.toNat) ∧
  (∀ s, (Cause.noCode s).code = 4 ∧ (Cause.noCode s).info.toNat = 0x100 + s.toNat) ∧
  Cause.capacityIn.code = 5 ∧ Cause.capacityIn.info = 1 ∧ Cause.capacityOut.code = 5 ∧ Cause.capacityOut.info = 2 ∧
  (∀ c, (Cause.illegalCommand c).code = 6 ∧ (Cause.illegalCommand c).info = c) ∧
  (∀ e : Cause, 1 ≤ e.code.toNat ∧ e.code.toNat ≤ 6)

/-- The error entry (R247). What `raise` writes; that IN and IN_LEN stay; and that a command which ends with ERR = 1 has ended in exactly this. R247 calls the rest unspecified; that nothing of the state before
survives in it (the second clause: the same input and draw give the same state) is the model's choice, log entries 9
and 4. -/
def Obligations.ErrorEntry : Prop :=
  (∀ e s, (raise e s).status = {
      done := true, err := true, ftValid := false, hdrValid := false
      wlValid := false, treeValid := false, ctValid := false, outValid := false } ∧
    (raise e s).errCode = e.code ∧ (raise e s).errInfo = e.info ∧ SameInput s (raise e s)) ∧
  (∀ e s s', SameInput s s' → s'.freeCount = s.freeCount → raise e s' = raise e s) ∧
  (∀ i s t, s.status.err = false → exec i s = .next t → t.status.err = true → ∃ e : Cause, t = raise e s.fresh)

/-- The table of R242, which the spec marks as derived from the commands' rules: a command ends in no error but those the table marks for it, from every state; in particular no Sequence or
Degenerate error inside COMPRESS or DECOMPRESS (R198, R218), and none at all from NOP and CLEAR. -/
def Obligations.ErrorsFollowTheTable : Prop :=
  ∀ i s t, s.status.err = false → exec i s = .next t → t.status.err = true →
    ∃ e : Cause, mayRaise i e = true ∧ t = raise e s.fresh

/-- R244: the sequence preconditions, the error a command raises without them, and that the six other commands have
none. -/
def Obligations.SequencePreconditions : Prop :=
  ∀ s, s.status.err = false →
    (∀ i t, i ∈ [Instr.freq, .hdrparse, .compress, .decompress, .nop, .clear] → exec i s = .next t →
      t.status.err = true → t.errCode ≠ 4) ∧
    (s.status.ftValid = false → exec .seed s = .next (raise (.sequence 0xA) s.fresh) ∧
      exec .build s = .next (raise (.sequence 0x2) s.fresh)) ∧
    (¬ (s.status.wlValid = true ∧ 2 ≤ s.wlLen) → exec .merge s = .next (raise (.sequence 0xB) s.fresh)) ∧
    (s.status.treeValid = false → exec .codegen s = .next (raise (.sequence 0x3) s.fresh)) ∧
    (¬ (s.status.ftValid = true ∧ s.status.ctValid = true) → exec .encode s = .next (raise (.sequence 0x4) s.fresh)) ∧
    (¬ (s.status.hdrValid = true ∧ s.status.treeValid = true) →
      exec .decode s = .next (raise (.sequence 0x6) s.fresh)) ∧
    (s.status.hdrValid = true → s.status.treeValid = true → s.inLen.toNat ≤ s.caps.inCap.val →
      (s.inLen.toNat < s.hlen ∨ (s.inLen.toNat = s.hlen ∧ s.padBits ≠ 0)) →
      exec .decode s = .next (raise (.sequence 0x6) s.fresh))

/-- The first sentence of R245, with R246's order: a command that reads IN raises Capacity(1) when IN_LEN > IN_CAP. -/
def Obligations.InputBeyondCapacity : Prop :=
  ∀ s : State, s.status.err = false → s.caps.inCap.val < s.inLen.toNat →
    exec .freq s = .next (raise .capacityIn s.fresh) ∧ exec .hdrparse s = .next (raise .capacityIn s.fresh) ∧
    exec .compress s = .next (raise .capacityIn s.fresh) ∧ exec .decompress s = .next (raise .capacityIn s.fresh) ∧
    (s.status.ftValid = true → s.status.ctValid = true → exec .encode s = .next (raise .capacityIn s.fresh)) ∧
    (s.status.hdrValid = true → s.status.treeValid = true → exec .decode s = .next (raise .capacityIn s.fresh))

/-! ## Whole-machine rules -/

/-- Every command terminates, from every state, and none stops the machine (R16, which the spec marks as derived from the
loops of the commands). -/
def Obligations.EveryCommandEnds : Prop := ∀ i s, ∃ t, exec i s = .next t

/-- DONE (row of R34): set at the end of every command but CLEAR, with or without error. -/
def Obligations.DoneAfterEveryCommandButClear : Prop :=
  ∀ i s t, StateInv s → i ≠ .clear → exec i s = .next t → t.status.done = true

/-- No command writes the input: "HTB never writes IN" (R81, marked as derived there), R37, R9. No command writes IN, IN_LEN or the capacities (nor the host's side of the state). -/
def Obligations.NoCommandWritesTheInput : Prop := ∀ i s t, exec i s = .next t → SameInput s t

/-- The frame of the commands that store nothing (R230, R161, R163, R165, R181): the bytes of OUT, the frequency table, and
the registers and flags they do not name. -/
def Obligations.BuilderLeavesOutputAndTable : Prop :=
  ∀ i s t, i ∈ [Instr.nop, .seed, .merge, .build, .codegen] → s.status.err = false → exec i s = .next t →
    t.status.err = false →
    (∀ a, t.outMem.read a = s.outMem.read a) ∧ SameInput s t ∧ t.outLen = s.outLen ∧ t.bitLen = s.bitLen ∧
    t.padBits = s.padBits ∧ t.hlen = s.hlen ∧ t.ft = s.ft ∧ t.nsym = s.nsym ∧
    t.errCode = s.errCode ∧ t.errInfo = s.errInfo ∧
    t.status.ftValid = s.status.ftValid ∧ t.status.hdrValid = s.status.hdrValid ∧
    t.status.outValid = s.status.outValid ∧
    (i ∈ [Instr.nop, .codegen] → t.node = s.node ∧ t.nnodes = s.nnodes ∧ t.wl = s.wl ∧ t.wlLen = s.wlLen ∧
      t.root = s.root ∧ t.status.wlValid = s.status.wlValid ∧ t.status.treeValid = s.status.treeValid) ∧
    (i ∈ [Instr.nop, .merge] → t.ct = s.ct ∧ t.ctLen = s.ctLen ∧ t.status.ctValid = s.status.ctValid)

/-- The frame of the commands that store to OUT from the tables they find (R191, R213): every array, the builder's
registers and flags. That OUT lists no byte at or beyond OUT_LEN, which R38 only calls unspecified, is the model's choice,
log entry 3. -/
def Obligations.EncodeAndDecodeLeaveTheArrays : Prop :=
  ∀ i s t, i ∈ [Instr.encode, .decode] → s.status.err = false → exec i s = .next t → t.status.err = false →
    SameInput s t ∧ t.ft = s.ft ∧ t.node = s.node ∧ t.wl = s.wl ∧ t.ct = s.ct ∧ t.nsym = s.nsym ∧
    t.nnodes = s.nnodes ∧ t.root = s.root ∧ t.wlLen = s.wlLen ∧ t.ctLen = s.ctLen ∧
    t.errCode = s.errCode ∧ t.errInfo = s.errInfo ∧
    (i = .decode → t.padBits = s.padBits ∧ t.hlen = s.hlen) ∧
    t.status = { s.status with
      outValid := true, done := true, hdrValid := if i = .encode then false else s.status.hdrValid } ∧
    (∀ a, t.outLen ≤ a → t.outMem.read a = none) ∧ (∀ a, a < t.outLen → t.outMem.read a ≠ none)

/-- After a command that fills OUT succeeds, OUT holds the bytes the host reads below OUT_LEN, and OUT_LEN is their number
(R83, R38). That it lists no byte at or beyond OUT_LEN, which R38 only calls unspecified, is the model's choice, log
entry 3. -/
def Obligations.OutHoldsExactlyTheResult : Prop :=
  ∀ i s t, i ∈ [Instr.encode, .decode, .compress, .decompress] → s.status.err = false → exec i s = .next t →
    t.status.err = false →
    t.status.outValid = true ∧ t.output.length = t.outLen ∧ (∀ a, t.outMem.read a = t.output[a]?) ∧
    (∀ a, a < t.outLen → t.output[a]? = some (t.outByte a))

/-- R53's lifecycle (and R52, which the spec marks as derived): FREQ, HDRPARSE, COMPRESS and DECOMPRESS are functions of IN[0..IN_LEN) and the capacities: nothing of an
earlier call persists. -/
def Obligations.FreshCommandsForgetThePast : Prop :=
  ∀ i s s', i ∈ [Instr.freq, .hdrparse, .compress, .decompress] → s.status.err = false → s'.status.err = false →
    s.errCode = s'.errCode → s.errInfo = s'.errInfo → s.caps = s'.caps → s.input = s'.input →
    ∃ t t', exec i s = .next t ∧ exec i s' = .next t' ∧ t.status = t'.status ∧ t.errCode = t'.errCode ∧
      t.errInfo = t'.errInfo ∧
      (t.status.err = false →
        { t with inMem := [], host := [], hostData := .nothing, freeCount := 0 } =
          { t' with inMem := [], host := [], hostData := .nothing, freeCount := 0 })

/-- The implications between the validity flags, which R34 marks as derived, from the invariant. -/
def Obligations.FlagImplications : Prop :=
  ∀ s, StateInv s →
    (s.status.treeValid = true → s.status.wlValid = true ∧ s.wlLen = 1 ∧ s.wl = [s.root]) ∧
    (s.status.ctValid = true → s.status.treeValid = true) ∧ (s.status.hdrValid = true → s.status.ftValid = true)

/-- The invariant is kept by every step, from every state that meets it. Its parts: canonical buffers, the fields of R34 to
R48, the tree under construction (R161 to R167). The model's own in it: the widths while ERR = 1, where R52 and R247 leave
the contents unspecified (log entry 9), naturals for registers (log entry 12), and that OUT lists the last result only (log
entry 3). -/
def Obligations.EveryStepKeepsTheInvariant : Prop := ∀ s s', StateInv s → step s = .next s' → StateInv s'

/-! ## The frequency counter -/

/-- FREQ's result (R150), in the closed form of R151, which the spec marks as derived from R150: FREQ completes whenever the input fits and no byte occurs more than 65535 times, and FT is the
distinct bytes in order of first occurrence with their counts. -/
def Obligations.FreqCountsTheInput : Prop :=
  ∀ s, s.status.err = false → s.inLen.toNat ≤ s.caps.inCap.val → (∀ b, s.input.count b ≤ 65535) →
    exec .freq s = .next { State.resetWith s.caps with
      inLen := s.inLen, inMem := s.inMem, host := s.host, hostData := s.hostData, freeCount := s.freeCount + 1
      errCode := s.errCode, errInfo := s.errInfo
      ft := freqTable s.input, nsym := (freqTable s.input).length
      status := { Status.zero with done := true, ftValid := true } } ∧
    ((freqTable s.input).map FtEntry.sym).Nodup ∧
    (freqTable s.input).map FtEntry.sym = s.input.eraseDups ∧
    (∀ e ∈ freqTable s.input, e.cnt = s.input.count e.sym ∧ 1 ≤ e.cnt ∧ e.cnt ≤ 65535) ∧
    totalCount (freqTable s.input) = s.inLen.toNat ∧
    ((freqTable s.input).length = 0 ↔ s.inLen.toNat = 0)

/-- R150, R152: FREQ raises Overflow(b) at the first byte of the input that occurs for the 65536th time. -/
def Obligations.FreqOverflow : Prop :=
  ∀ s n b, s.status.err = false → s.inLen.toNat ≤ s.caps.inCap.val → s.input[n]? = some b →
    (s.input.take n).count b = 65535 → (∀ c, (s.input.take n).count c ≤ 65535) →
    exec .freq s = .next (raise (.overflow b) s.fresh)

/-! ## The tree builder -/

/-- R12: `ssort` gives the one permutation that is ascending by weight and keeps the order of equal weights. -/
def Obligations.SortIsTheStableSort : Prop :=
  ∀ (w : Nat → Nat) (xs ys : List Nat), ys = ssort w xs ↔
    ys.Perm xs ∧ ys.Pairwise (fun a b => w a ≤ w b) ∧
      ∀ v, ys.filter (fun a => w a == v) = xs.filter (fun a => w a == v)

/-- R161: SEED. -/
def Obligations.SeedPlantsTheLeaves : Prop :=
  ∀ s, s.status.err = false →
    (s.status.ftValid = true → 1 ≤ s.nsym → exec .seed s = .next { s with
      freeCount := s.freeCount + 1
      node := s.ft.map fun e => .leaf e.sym e.cnt, nnodes := s.nsym, wl := List.range s.nsym, wlLen := s.nsym
      root := 0, ct := [], ctLen := 0
      status := { s.status with
        wlValid := true, treeValid := decide (s.nsym = 1), ctValid := false, done := true } }) ∧
    (s.status.ftValid = false → exec .seed s = .next (raise (.sequence 0xA) s.fresh)) ∧
    (s.status.ftValid = true → s.nsym = 0 → exec .seed s = .next (raise .degenerate s.fresh))

/-- R163: MERGE, as the pseudocode has it: its `require`, then sort, remove two, append their parent. -/
def Obligations.MergeJoinsTheTwoLightest : Prop :=
  (∀ s, s.status.err = false → ¬ (s.status.wlValid = true ∧ 2 ≤ s.wlLen) →
    exec .merge s = .next (raise (.sequence 0xB) s.fresh)) ∧
  ∀ s a b rest, s.status.err = false → s.status.wlValid = true → 2 ≤ s.wlLen → ssort s.weightOf s.wl = a :: b :: rest →
    (∀ k ∈ s.wl, k < s.node.length) →
    exec .merge s = .next { s with
      freeCount := s.freeCount + 1
      node := s.node ++ [.internal (s.weightOf a + s.weightOf b) a b], nnodes := s.nnodes + 1
      wl := rest ++ [s.nnodes], wlLen := s.wlLen - 1
      root := if s.wlLen = 2 then s.nnodes else s.root
      status := { s.status with treeValid := decide (s.wlLen = 2) || s.status.treeValid, done := true } }

/-- R166, which the spec marks as derived from R12, R161 and R163: at every MERGE the removed pair is the two least nodes of the working list under (weight, identifier). -/
def Obligations.MergeTakesThePriorityPair : Prop :=
  ∀ s, StateInv s → s.status.err = false → s.status.wlValid = true → 2 ≤ s.wlLen →
    ∃ t a b rest, exec .merge s = .next t ∧ s.wl.Perm (a :: b :: rest) ∧
      (∀ k ∈ b :: rest, s.weightOf a < s.weightOf k ∨ (s.weightOf a = s.weightOf k ∧ a < k)) ∧
      (∀ k ∈ rest, s.weightOf b < s.weightOf k ∨ (s.weightOf b = s.weightOf k ∧ b < k)) ∧
      t.node = s.node ++ [.internal (s.weightOf a + s.weightOf b) a b] ∧ t.wl = rest ++ [s.nnodes] ∧
      rest.Pairwise (fun x y => s.weightOf x < s.weightOf y ∨ (s.weightOf x = s.weightOf y ∧ x < y)) ∧
      t.status.err = false

/-- R167, which the spec marks as derived from R161 and R163: the tree BUILD makes over n = NSYM ≥ 1 entries, and the frame of BUILD. -/
def Obligations.BuildMakesTheTree : Prop :=
  ∀ s, StateInv s → s.status.err = false → s.status.ftValid = true → 1 ≤ s.nsym →
    ∃ t, exec .build s = .next t ∧
      t.nnodes = 2 * s.nsym - 1 ∧ t.node.length = 2 * s.nsym - 1 ∧ t.root = 2 * s.nsym - 2 ∧
      t.node.take s.nsym = s.ft.map (fun e => .leaf e.sym e.cnt) ∧
      (∀ i, s.nsym ≤ i → i < t.nnodes → ∃ l r, t.nodeAt i = .internal (t.weightOf l + t.weightOf r) l r ∧ l < i ∧ r < i) ∧
      (t.node.flatMap Node.children).Perm (List.range t.root) ∧
      t.weightOf t.root = totalCount s.ft ∧
      (∀ n ∈ t.node, n.weight ≤ 16776960) ∧ (t.node.filter Node.isLeaf).length = s.nsym ∧
      (∀ c ∈ t.codeTable, c.len ≤ s.nsym - 1) ∧
      t = { s with
        freeCount := s.freeCount + 1, node := t.node, nnodes := t.nnodes, wl := [t.root], wlLen := 1, root := t.root
        ct := [], ctLen := 0
        status := { s.status with wlValid := true, treeValid := true, ctValid := false, done := true } }

/-- R165: BUILD is SEED and then MERGE NSYM − 1 times, until one node remains; and its two errors. (`SameButCount`: but
for the model's own counter, log entry 4.) -/
def Obligations.BuildIsSeedThenMerges : Prop :=
  ∀ s, StateInv s → s.status.err = false →
    (s.status.ftValid = true → 1 ≤ s.nsym →
      ∃ t u, exec .build s = .next t ∧ execAll (.seed :: List.replicate (s.nsym - 1) .merge) s = .next u ∧
        SameButCount t u ∧ t.wlLen = 1 ∧ t.status = { s.status with
          wlValid := true, treeValid := true, ctValid := false, done := true }) ∧
    (s.status.ftValid = false → exec .build s = .next (raise (.sequence 0x2) s.fresh)) ∧
    (s.status.ftValid = true → s.nsym = 0 → exec .build s = .next (raise .degenerate s.fresh))

/-- The first sentences of R168, which the spec marks as derived: the tree and the codes are a function of the ordered list FT alone. -/
def Obligations.TreeDependsOnTheTableAlone : Prop :=
  ∀ s t, StateInv s → s.status.err = false → exec .build s = .next t → t.status.err = false →
    t.node = (treeOf s.ft).node ∧ t.root = (treeOf s.ft).root ∧ t.codeTable = codesOf s.ft

/-! ## The code table generator -/

/-- CODEGEN's result (R181) and the laws of its table, which the spec marks as derived (R184; R183 for a single leaf):
CODEGEN completes on every finished tree; one tuple per leaf, whose bits lead from ROOT to that leaf, 0 to the left child
and 1 to the right (R180, R181), in left-to-right order; lengths, prefix-freedom, completeness, order, and that the symbols are FT's. -/
def Obligations.CodegenTableLaws : Prop :=
  ∀ s, StateInv s → s.status.err = false → s.status.treeValid = true →
    exec .codegen s = .next { s with
      freeCount := s.freeCount + 1, ct := s.codeTable, ctLen := s.codeTable.length
      status := { s.status with ctValid := true, done := true } } ∧
    s.codeTable.length = s.nsym ∧ (s.codeTable.map CodeTuple.sym).Perm (s.ft.map FtEntry.sym) ∧
    (∀ c ∈ s.codeTable, c.val < 2 ^ c.len ∧ c.len ≤ s.nsym - 1 ∧ (2 ≤ s.nsym → 1 ≤ c.len)) ∧
    (∀ c ∈ s.codeTable, ∃ k w, s.follow s.root c.bits = some k ∧ s.nodeAt k = .leaf c.sym w) ∧
    PrefixFree s.codeTable ∧
    (s.codeTable.map fun c => 2 ^ (255 - c.len)).sum = 2 ^ 255 ∧
    (s.codeTable.Pairwise fun c d => List.Lex (fun x y => x = false ∧ y = true) c.bits d.bits) ∧
    (s.nsym = 1 → ∃ b w, s.nodeAt s.root = .leaf b w ∧ s.codeTable = [⟨b, 0, 0⟩])

/-! ## The encoder -/

/-- The packing loop of R192 (its closed form and R197 are marked as derived there): it gives P bytes, stream bit j at bit 7 − (j mod 8) of byte j div 8, and the
last pad bits zero. -/
def Obligations.PackingIsMsbFirst : Prop :=
  ∀ bits, pack 0 0 bits = payloadOf bits ∧ (pack 0 0 bits).length = payloadLength bits.length ∧
    padCount bits.length ≤ 7 ∧ 8 * payloadLength bits.length = bits.length + padCount bits.length ∧
    (pack 0 0 bits).flatMap byteBits = bits ++ List.replicate (padCount bits.length) false

/-- ENCODE's result (R191): it completes when the tables are there, every byte has a code and the container fits, and OUT is the header
of FT and the packed codes. -/
def Obligations.EncodeWritesTheContainer : Prop :=
  ∀ s, s.status.err = false → s.status.ftValid = true → s.status.ctValid = true →
    s.inLen.toNat ≤ s.caps.inCap.val → (∀ b ∈ s.input, ∃ c, codeOf s.ct b = some c) → s.nsym = s.ft.length →
    headerLength s.nsym + payloadLength (s.input.flatMap (codeBits s.ct)).length ≤ s.caps.outCap.val →
    ∃ t, exec .encode s = .next t ∧ t.status.err = false ∧
      t.output = headerBytes s.nsym (padCount (s.input.flatMap (codeBits s.ct)).length) s.ft
        ++ payloadOf (s.input.flatMap (codeBits s.ct)) ∧
      t.outLen = headerLength s.nsym + payloadLength (s.input.flatMap (codeBits s.ct)).length ∧
      t.bitLen = (s.input.flatMap (codeBits s.ct)).length ∧ t.hlen = headerLength s.nsym ∧
      t.padBits = padCount (s.input.flatMap (codeBits s.ct)).length ∧
      t.status = { s.status with outValid := true, hdrValid := false, done := true }

/-- ENCODE's errors (R191) after the flags, in order: Capacity(1), the first byte without a code, Capacity(2). -/
def Obligations.EncodeErrors : Prop :=
  ∀ s, s.status.err = false → s.status.ftValid = true → s.status.ctValid = true →
    (s.caps.inCap.val < s.inLen.toNat → exec .encode s = .next (raise .capacityIn s.fresh)) ∧
    (∀ (n : Nat) b, s.inLen.toNat ≤ s.caps.inCap.val → s.input[n]? = some b → codeOf s.ct b = none →
      (∀ (m : Nat) c, m < n → s.input[m]? = some c → codeOf s.ct c ≠ none) →
      exec .encode s = .next (raise (.noCode b) s.fresh)) ∧
    (s.inLen.toNat ≤ s.caps.inCap.val → (∀ b ∈ s.input, codeOf s.ct b ≠ none) →
      s.caps.outCap.val < headerLength s.nsym + payloadLength (s.input.flatMap (codeBits s.ct)).length →
      exec .encode s = .next (raise .capacityOut s.fresh))

/-- R195, which the spec marks as derived from R191: BITLEN after an ENCODE that succeeds. -/
def Obligations.BitLengthIsTheSumOfCodeLengths : Prop :=
  ∀ s t, StateInv s → s.status.err = false → exec .encode s = .next t → t.status.err = false →
    t.bitLen = (s.input.map fun b => (codeBits s.ct b).length).sum ∧
    (s.ft = freqTable s.input → t.bitLen = (s.ft.map fun e => e.cnt * (codeBits s.ct e.sym).length).sum) ∧
    t.bitLen ≤ 255 * s.inLen.toNat ∧ t.bitLen < 2 ^ 32

/-- R120: the empty input and the empty container; a container of one byte is malformed. -/
def Obligations.EmptyInputAndContainer : Prop :=
  ∀ s, s.status.err = false →
    (s.inLen = 0 →
      (∃ t, exec .compress s = .next t ∧ t.status = { Status.zero with done := true, ftValid := true, outValid := true } ∧
        t.outLen = 0 ∧ t.output = [] ∧ t.bitLen = 0 ∧ t.padBits = 0 ∧ t.hlen = 0 ∧ t.nsym = 0 ∧ SameInput s t) ∧
      (∃ t, exec .decompress s = .next t ∧
        t.status = { Status.zero with done := true, ftValid := true, hdrValid := true, outValid := true } ∧
        t.outLen = 0 ∧ t.output = [] ∧ t.bitLen = 0 ∧ t.padBits = 0 ∧ t.hlen = 0 ∧ t.nsym = 0 ∧ SameInput s t)) ∧
    (s.inLen = 1 → 1 ≤ s.caps.inCap.val →
      exec .hdrparse s = .next (raise .formatTruncated s.fresh) ∧
      exec .decompress s = .next (raise .formatTruncated s.fresh))

/-- R196: single-symbol data gives the 5-byte container `00 00 sym hi lo`. -/
def Obligations.SingleSymbolContainer : Prop :=
  ∀ s b, s.status.err = false → s.inLen.toNat ≤ s.caps.inCap.val → 1 ≤ s.inLen.toNat → s.inLen.toNat ≤ 65535 →
    s.input = List.replicate s.inLen.toNat b → 5 ≤ s.caps.outCap.val →
    ∃ t, exec .compress s = .next t ∧ t.status.err = false ∧ t.bitLen = 0 ∧ t.padBits = 0 ∧ t.hlen = 5 ∧ t.outLen = 5 ∧
      t.ct = [⟨b, 0, 0⟩] ∧
      t.output = [0, 0, b, BitVec.ofNat 8 (s.inLen.toNat / 256), BitVec.ofNat 8 (s.inLen.toNat % 256)]

/-- COMPRESS's result (R198): it completes for every input within the count limit that fits, and OUT is the container of the input. -/
def Obligations.CompressWritesTheContainer : Prop :=
  ∀ s, s.status.err = false → s.inLen.toNat ≤ s.caps.inCap.val → (∀ b, s.input.count b ≤ 65535) →
    (containerOf s.input).length ≤ s.caps.outCap.val →
    ∃ t, exec .compress s = .next t ∧ t.output = containerOf s.input ∧ t.outLen = (containerOf s.input).length ∧
      t.ft = freqTable s.input ∧ t.nsym = (freqTable s.input).length ∧
      (s.inLen.toNat ≠ 0 → t.ct = codesOf (freqTable s.input) ∧ t.node = (treeOf (freqTable s.input)).node ∧
        t.nnodes = 2 * t.nsym - 1 ∧ t.root = 2 * t.nsym - 2 ∧ t.wl = [t.root] ∧ t.wlLen = 1 ∧ t.ctLen = t.nsym ∧
        t.hlen = headerLength t.nsym ∧ t.bitLen = (t.ft.map fun e => e.cnt * (codeBits t.ct e.sym).length).sum ∧
        t.padBits = padCount t.bitLen ∧
        t.status = { Status.zero with
          done := true, ftValid := true, wlValid := true, treeValid := true, ctValid := true, outValid := true }) ∧
      t.errCode = s.errCode ∧ t.errInfo = s.errInfo ∧ SameInput s t

/-- R96, which the spec marks as derived: the container is never longer than the bound the rule gives. -/
def Obligations.ContainerLengthBound : Prop :=
  ∀ x : List Byte, (containerOf x).length ≤ 770 + (255 * x.length + 7) / 8

/-- R96, which the spec marks as derived: how long a result is, and that a host which sizes OUT_CAP to the bound of the case at hand (one leaf, or two or more)
never sees Capacity(2). -/
def Obligations.OutputLengths : Prop :=
  (∀ i s t, StateInv s → s.status.err = false → exec i s = .next t → t.status.err = false →
    (i ∈ [Instr.encode, .compress] → t.outLen = t.hlen + (t.bitLen + 7) / 8 ∧
      t.outLen ≤ 770 + (255 * s.inLen.toNat + 7) / 8) ∧
    (i ∈ [Instr.decode, .decompress] → (2 ≤ t.nsym → t.outLen ≤ 8 * (s.inLen.toNat - t.hlen)) ∧
      (t.nsym = 1 → t.outLen ≤ 65535))) ∧
  (∀ i s, StateInv s → s.status.err = false →
    i ∈ [Instr.encode, .compress] → 770 + (255 * s.inLen.toNat + 7) / 8 ≤ s.caps.outCap.val →
    exec i s ≠ .next (raise .capacityOut s.fresh)) ∧
  (∀ s, StateInv s → s.status.err = false →
    (2 ≤ s.nsym → 8 * (s.inLen.toNat - s.hlen) ≤ s.caps.outCap.val) → (s.nsym = 1 → 65535 ≤ s.caps.outCap.val) →
    exec .decode s ≠ .next (raise .capacityOut s.fresh)) ∧
  (∀ s n, s.status.err = false → n = (s.memReadIn 0).toNat + 1 →
    (2 ≤ n → 8 * (s.inLen.toNat - headerLength n) ≤ s.caps.outCap.val) → (n = 1 → 65535 ≤ s.caps.outCap.val) →
    exec .decompress s ≠ .next (raise .capacityOut s.fresh))

/-- R199, which the spec marks as derived from R198 and R161: COMPRESS equals FREQ; BUILD; CODEGEN; ENCODE when NSYM ≥ 1, and does not stop at BUILD when NSYM = 0. When COMPRESS
fails, its error is that of the first stage that fails (R126, R198, R246; later stages are refused): FREQ's, or ENCODE's,
which is Capacity(2) exactly when the container does not fit OUT. -/
def Obligations.CompressIsTheStageProgram : Prop :=
  (∀ s t, s.status.err = false → exec .compress s = .next t → t.status.err = false →
    (1 ≤ t.nsym → ∃ u, execAll [.freq, .build, .codegen, .encode] s = .next u ∧ SameButCount t u) ∧
    (t.nsym = 0 → ∃ u, execAll [.freq, .build] s = .next u ∧ u.status.err = true ∧ u.errCode = 2 ∧ u.errInfo = 0)) ∧
  (∀ s t, s.status.err = false → exec .compress s = .next t → t.status.err = true →
    ∃ u, execAll [.freq, .build, .codegen, .encode] s = .next u ∧ u.status = t.status ∧ u.errCode = t.errCode ∧
      u.errInfo = t.errInfo) ∧
  (∀ s e, s.status.err = false → exec .freq s = .next (raise e s.fresh) → exec .compress s = .next (raise e s.fresh)) ∧
  (∀ s b e, s.status.err = false → execAll [.freq, .build, .codegen] s = .next b → b.status.err = false →
    exec .encode b = .next (raise e b.fresh) → exec .compress s = .next (raise e s.fresh)) ∧
  (∀ s, s.status.err = false → s.inLen.toNat ≤ s.caps.inCap.val → (∀ b, s.input.count b ≤ 65535) →
    (exec .compress s = .next (raise .capacityOut s.fresh) ↔ s.caps.outCap.val < (containerOf s.input).length))

/-! ## The decoder -/

/-- R210: HDRPARSE, every outcome in the order of its checks. -/
def Obligations.HdrparseReadsTheHeader : Prop :=
  ∀ s, s.status.err = false →
    (s.caps.inCap.val < s.inLen.toNat → exec .hdrparse s = .next (raise .capacityIn s.fresh)) ∧
    (s.inLen.toNat ≤ s.caps.inCap.val → s.inLen.toNat = 0 → exec .hdrparse s = .next { internalClear s.fresh with
      status := { Status.zero with done := true, ftValid := true, hdrValid := true } }) ∧
    (s.inLen.toNat ≤ s.caps.inCap.val → s.inLen.toNat = 1 → exec .hdrparse s = .next (raise .formatTruncated s.fresh)) ∧
    (s.inLen.toNat ≤ s.caps.inCap.val → 2 ≤ s.inLen.toNat →
      (s.inLen.toNat < 2 + 3 * ((s.memReadIn 0).toNat + 1) →
        exec .hdrparse s = .next (raise .formatTruncated s.fresh)) ∧
      (2 + 3 * ((s.memReadIn 0).toNat + 1) ≤ s.inLen.toNat →
        (7 < (s.memReadIn 1).toNat → exec .hdrparse s = .next (raise .formatPadRange s.fresh)) ∧
        ((s.memReadIn 1).toNat ≤ 7 → s.inLen.toNat = 2 + 3 * ((s.memReadIn 0).toNat + 1) → (s.memReadIn 1).toNat ≠ 0 →
          exec .hdrparse s = .next (raise .formatPadNoPayload s.fresh)) ∧
        ((s.memReadIn 1).toNat ≤ 7 →
          (s.inLen.toNat = 2 + 3 * ((s.memReadIn 0).toNat + 1) → (s.memReadIn 1).toNat = 0) →
          exec .hdrparse s = .next { internalClear s.fresh with
            ft := (List.range ((s.memReadIn 0).toNat + 1)).map fun i =>
              ⟨s.memReadIn (2 + 3 * i), (s.memReadIn (3 + 3 * i)).toNat * 256 + (s.memReadIn (4 + 3 * i)).toNat⟩
            nsym := (s.memReadIn 0).toNat + 1
            padBits := (s.memReadIn 1).toNat
            hlen := 2 + 3 * ((s.memReadIn 0).toNat + 1)
            status := { Status.zero with done := true, ftValid := true, hdrValid := true } })))

/-- The header's layout (R115 to R118) read back: HDRPARSE recovers exactly the table and padding count that a header was written from. -/
def Obligations.HeaderRoundTrip : Prop :=
  ∀ s ft pad payload, s.status.err = false → s.inLen.toNat ≤ s.caps.inCap.val →
    s.input = headerBytes ft.length pad ft ++ payload → 1 ≤ ft.length → ft.length ≤ 256 → (∀ e ∈ ft, e.cnt ≤ 65535) →
    pad ≤ 7 → (payload = [] → pad = 0) →
    exec .hdrparse s = .next { internalClear s.fresh with
      ft := ft, nsym := ft.length, padBits := pad, hlen := headerLength ft.length
      status := { Status.zero with done := true, ftValid := true, hdrValid := true } }

/-- DECODE with an internal root (R213, R217). When the payload bits are the codes of a list of leaves one after the other,
OUT is their symbols, or Capacity(2) when they do not fit. Every other stream is such a list and then a part of one code
that is cut off: Format(4) when the codes before the cut fit OUT, Capacity(2) when they do not (R246). -/
def Obligations.DecodeInvertsTheCodes : Prop :=
  ∀ s, StateInv s → s.status.err = false → s.status.hdrValid = true → s.status.treeValid = true → 2 ≤ s.nsym →
    s.inLen.toNat ≤ s.caps.inCap.val → s.hlen ≤ s.inLen.toNat → (s.inLen.toNat = s.hlen → s.padBits = 0) →
    (∀ cs : List CodeTuple, (∀ c ∈ cs, c ∈ s.codeTable) → s.stream = cs.flatMap CodeTuple.bits →
      (cs.length ≤ s.caps.outCap.val →
        ∃ t, exec .decode s = .next t ∧ t.status = { s.status with outValid := true, done := true } ∧
          t.output = cs.map CodeTuple.sym ∧ t.outLen = cs.length ∧
          t.bitLen = 8 * (s.inLen.toNat - s.hlen) - s.padBits) ∧
      (s.caps.outCap.val < cs.length → exec .decode s = .next (raise .capacityOut s.fresh))) ∧
    ((¬ ∃ cs : List CodeTuple, (∀ c ∈ cs, c ∈ s.codeTable) ∧ s.stream = cs.flatMap CodeTuple.bits) →
      s.stream.length ≤ s.caps.outCap.val → exec .decode s = .next (raise .formatMidCode s.fresh)) ∧
    (∃ (cs : List CodeTuple) (cut : List Bool), (∀ c ∈ cs, c ∈ s.codeTable) ∧ s.stream = cs.flatMap CodeTuple.bits ++ cut ∧
      (cut = [] ∨ ∃ c ∈ s.codeTable, cut <+: c.bits ∧ cut ≠ c.bits)) ∧
    (∀ (cs : List CodeTuple) (cut : List Bool) (c : CodeTuple), (∀ d ∈ cs, d ∈ s.codeTable) →
      s.stream = cs.flatMap CodeTuple.bits ++ cut → cut ≠ [] → c ∈ s.codeTable → cut <+: c.bits → cut ≠ c.bits →
      (cs.length ≤ s.caps.outCap.val → exec .decode s = .next (raise .formatMidCode s.fresh)) ∧
      (s.caps.outCap.val < cs.length → exec .decode s = .next (raise .capacityOut s.fresh)))

/-- The bits DECODE walks (R85, R215, R213's T): they are the bits of the payload bytes, most significant first, without the last PADBITS. -/
def Obligations.StreamIsThePayloadBits : Prop :=
  ∀ s : State, s.hlen ≤ s.inLen.toNat →
    s.stream = ((s.input.drop s.hlen).flatMap byteBits).take (8 * (s.inLen.toNat - s.hlen) - s.padBits)

/-- R214: DECODE of a single leaf, which is the root exactly when NSYM = 1. -/
def Obligations.DecodeSingleLeaf : Prop :=
  ∀ s, StateInv s → s.status.err = false → s.status.hdrValid = true → s.status.treeValid = true →
    s.inLen.toNat ≤ s.caps.inCap.val → s.hlen ≤ s.inLen.toNat → (s.inLen.toNat = s.hlen → s.padBits = 0) →
    ((∃ b w, s.nodeAt s.root = .leaf b w) ↔ s.nsym = 1) ∧
    ∀ b w, s.nodeAt s.root = .leaf b w →
      (8 * (s.inLen.toNat - s.hlen) - s.padBits ≠ 0 → exec .decode s = .next (raise .formatSinglePayload s.fresh)) ∧
      (8 * (s.inLen.toNat - s.hlen) - s.padBits = 0 → s.caps.outCap.val < w →
        exec .decode s = .next (raise .capacityOut s.fresh)) ∧
      (8 * (s.inLen.toNat - s.hlen) - s.padBits = 0 → w ≤ s.caps.outCap.val →
        s.ft = [⟨b, w⟩] ∧ ∃ t, exec .decode s = .next t ∧ t.status = { s.status with outValid := true, done := true } ∧
          t.output = List.replicate w b ∧ t.outLen = w ∧ t.bitLen = 0)

/-- DECOMPRESS's result (R218): it completes on every container with a legal header whose payload bits, less the padding,
are codes of the header's tree one after the other (whatever the padding bits hold, R215) and as many as fit OUT, and gives
their symbols; and on every single-symbol container without payload whose count fits OUT. When they do not fit OUT the
error is Capacity(2) (R245). -/
def Obligations.DecompressDecodesContainers : Prop :=
  ∀ s ft pad payload, s.status.err = false → s.inLen.toNat ≤ s.caps.inCap.val →
    s.input = headerBytes ft.length pad ft ++ payload → ft.length ≤ 256 → (∀ e ∈ ft, e.cnt ≤ 65535) →
    pad ≤ 7 → (payload = [] → pad = 0) →
    (∀ cs : List CodeTuple, 2 ≤ ft.length → (∀ c ∈ cs, c ∈ codesOf ft) →
      (payload.flatMap byteBits).take (8 * payload.length - pad) = cs.flatMap CodeTuple.bits →
      cs.length ≤ s.caps.outCap.val →
      ∃ t, exec .decompress s = .next t ∧ t.output = cs.map CodeTuple.sym ∧ t.outLen = cs.length ∧
        t.ft = ft ∧ t.nsym = ft.length ∧ t.padBits = pad ∧ t.hlen = headerLength ft.length ∧
        t.bitLen = 8 * payload.length - pad ∧ t.node = (treeOf ft).node ∧ t.root = 2 * ft.length - 2 ∧
        t.nnodes = 2 * ft.length - 1 ∧ t.wl = [t.root] ∧ t.wlLen = 1 ∧ t.ct = [] ∧ t.ctLen = 0 ∧
        t.errCode = s.errCode ∧ t.errInfo = s.errInfo ∧ SameInput s t ∧
        t.status = { Status.zero with
          done := true, ftValid := true, hdrValid := true, wlValid := true, treeValid := true, outValid := true }) ∧
    (∀ b w, ft = [⟨b, w⟩] → payload = [] → w ≤ s.caps.outCap.val →
      ∃ t, exec .decompress s = .next t ∧ t.output = List.replicate w b ∧ t.outLen = w ∧ t.bitLen = 0 ∧
        t.padBits = 0 ∧ t.hlen = 5 ∧ SameInput s t ∧ t.status = { Status.zero with
          done := true, ftValid := true, hdrValid := true, wlValid := true, treeValid := true, outValid := true }) ∧
    (∀ cs : List CodeTuple, 2 ≤ ft.length → (∀ c ∈ cs, c ∈ codesOf ft) →
      (payload.flatMap byteBits).take (8 * payload.length - pad) = cs.flatMap CodeTuple.bits →
      s.caps.outCap.val < cs.length → exec .decompress s = .next (raise .capacityOut s.fresh)) ∧
    (∀ b w, ft = [⟨b, w⟩] → payload = [] → s.caps.outCap.val < w →
      exec .decompress s = .next (raise .capacityOut s.fresh))

/-- R219, which the spec marks as derived from R218 and R161: DECOMPRESS equals HDRPARSE; BUILD; DECODE when NSYM ≥ 1, and does not stop at BUILD when NSYM = 0. When DECOMPRESS
fails, its error is that of the first stage that fails (R126, R218, R246; later stages are refused): HDRPARSE's or
DECODE's. -/
def Obligations.DecompressIsTheStageProgram : Prop :=
  (∀ s t, s.status.err = false → exec .decompress s = .next t → t.status.err = false →
    (1 ≤ t.nsym → ∃ u, execAll [.hdrparse, .build, .decode] s = .next u ∧ SameButCount t u) ∧
    (t.nsym = 0 → ∃ u, execAll [.hdrparse, .build] s = .next u ∧ u.status.err = true ∧ u.errCode = 2 ∧ u.errInfo = 0)) ∧
  (∀ s t, s.status.err = false → exec .decompress s = .next t → t.status.err = true →
    ∃ u, execAll [.hdrparse, .build, .decode] s = .next u ∧ u.status = t.status ∧ u.errCode = t.errCode ∧
      u.errInfo = t.errInfo) ∧
  (∀ s e, s.status.err = false → exec .hdrparse s = .next (raise e s.fresh) →
    exec .decompress s = .next (raise e s.fresh)) ∧
  (∀ s b e, s.status.err = false → execAll [.hdrparse, .build] s = .next b → b.status.err = false →
    exec .decode b = .next (raise e b.fresh) → exec .decompress s = .next (raise e s.fresh))

/-- The round trip of R222, which the spec marks as derived. The rule's premises, and the one its `.mov` needs beside them: that the container fits IN too. -/
def Obligations.CompressMovDecompressIsTheIdentity : Prop :=
  ∀ s, s.status.err = false → s.inLen.toNat ≤ s.caps.inCap.val → (∀ b, s.input.count b ≤ 65535) →
    770 + (255 * s.inLen.toNat + 7) / 8 ≤ s.caps.outCap.val → (containerOf s.input).length ≤ s.caps.inCap.val →
    RoundTrips s

/-- The source's invariants of the compress path (R19: each a theorem of the rules) and its testable properties (R20) but
for the round trip, which is the statement above, and the entropy bound, which is of the metrics R5 leaves out: after a
COMPRESS that succeeds, symbols once in both tables, one leaf per entry, prefix-freedom, the sum of count times length;
the same input gives the same output; byte 0 of a parsed header plus 1 is NSYM, |FT| and the number of triplets. -/
def Obligations.SourceInvariantsAndPropertiesHold : Prop :=
  (∀ s t, s.status.err = false → exec .compress s = .next t → t.status.err = false → SourceInvariants s.input t) ∧
  (∀ s s' t t', s.status.err = false → s'.status.err = false → s.input = s'.input → exec .compress s = .next t →
    exec .compress s' = .next t' → t.status.err = false → t'.status.err = false → t.output = t'.output) ∧
  (∀ s t, s.status.err = false → exec .hdrparse s = .next t → t.status.err = false → s.inLen ≠ 0 → HeaderIntegrity t)
end

