-- ==== Sys2Proof/Laws/Memory.lean ====
section
/-! SUPPORT. The laws of a buffer: a byte reads as it was last written, and every operation keeps the canonical form. -/

namespace Sys2Proof.Machine

@[simp] theorem Memory.read_nil (a : Nat) : Memory.read [] a = none := rfl

theorem Memory.read_write_self (a : Nat) (b : Byte) (m : Memory) : (Memory.write a b m).read a = some b := by
  induction m with
  | nil => simp [Memory.write, Memory.read]
  | cons c m ih =>
    obtain ⟨x, y⟩ := c
    by_cases h1 : a < x
    · simp [Memory.write, h1, Memory.read]
    · by_cases h2 : a = x
      · simp [Memory.write, h2, Memory.read]
      · simp [Memory.write, h1, h2, Memory.read, ih]

theorem Memory.read_write_other {a a' : Nat} (h : a' ≠ a) (b : Byte) (m : Memory) :
    (Memory.write a b m).read a' = m.read a' := by
  induction m with
  | nil => simp [Memory.write, Memory.read, h, Memory.unlisted]
  | cons c m ih =>
    obtain ⟨x, y⟩ := c
    by_cases h1 : a < x
    · simp [Memory.write, h1, Memory.read, h]
    · by_cases h2 : a = x
      · subst h2; simp [Memory.write, Memory.read, h]
      · simp [Memory.write, h1, h2, Memory.read, ih]

/-- The offsets listed after a write: the one written and those before. -/
theorem Memory.mem_write {a : Nat} {b : Byte} {m : Memory} {c : Host.Cell} (h : c ∈ Memory.write a b m) :
    c = (a, b) ∨ c ∈ m := by
  induction m with
  | nil => simpa [Memory.write] using h
  | cons d m ih =>
    obtain ⟨x, y⟩ := d
    by_cases h1 : a < x
    · simpa [Memory.write, h1] using h
    · by_cases h2 : a = x
      · subst h2
        simp only [Memory.write, lt_irrefl, if_false, if_true, List.mem_cons] at h ⊢
        exact h.imp_right Or.inr
      · simp only [Memory.write, h1, h2, if_false, List.mem_cons] at h ⊢
        rcases h with h | h
        · exact .inr (.inl h)
        · exact (ih h).imp_right Or.inr

theorem Memory.wf_cons {x : Nat} {y : Byte} {m : Memory} :
    Memory.wf ((x, y) :: m) ↔ (∀ c ∈ m, x < c.1) ∧ Memory.wf m := by
  simp [Memory.wf, List.pairwise_cons]

/-- A write keeps the canonical form. -/
theorem Memory.write_wf (a : Nat) (b : Byte) (m : Memory) (h : m.wf) : (Memory.write a b m).wf := by
  induction m with
  | nil => simp [Memory.write, Memory.wf]
  | cons c m ih =>
    obtain ⟨x, y⟩ := c
    obtain ⟨hx, hm⟩ := Memory.wf_cons.1 h
    by_cases h1 : a < x
    · simp only [Memory.write, h1, if_true]
      refine Memory.wf_cons.2 ⟨?_, h⟩
      rintro c hc
      rcases List.mem_cons.1 hc with rfl | hc
      · exact h1
      · exact h1.trans (hx c hc)
    · by_cases h2 : a = x
      · subst h2
        simp only [Memory.write, lt_irrefl, if_false, if_true]
        exact Memory.wf_cons.2 ⟨hx, hm⟩
      · simp only [Memory.write, h1, h2, if_false]
        refine Memory.wf_cons.2 ⟨fun c hc => ?_, ih hm⟩
        rcases Memory.mem_write hc with rfl | hc
        · exact Nat.lt_of_le_of_ne (Nat.le_of_not_lt h1) (Ne.symm h2)
        · exact hx c hc

/-- Writing a run of bytes keeps the canonical form. -/
theorem Memory.writeBytes_wf (bytes : List Byte) (a : Nat) (m : Memory) (h : m.wf) :
    (Memory.writeBytes a bytes m).wf := by
  induction bytes generalizing a m with
  | nil => exact h
  | cons b bs ih => exact ih _ _ (Memory.write_wf a b m h)

/-- Below the run, nothing changes. -/
theorem Memory.writeBytes_read_below {a x : Nat} (hx : x < a) (bytes : List Byte) (m : Memory) :
    (Memory.writeBytes a bytes m).read x = m.read x := by
  induction bytes generalizing a m with
  | nil => rfl
  | cons b bs ih =>
    rw [Memory.writeBytes, ih (by omega), Memory.read_write_other (by omega)]

/-- A run of bytes reads as it was written. -/
theorem Memory.writeBytes_read_inside (bytes : List Byte) (a i : Nat) (m : Memory) (hi : i < bytes.length) :
    (Memory.writeBytes a bytes m).read (a + i) = bytes[i]? := by
  induction bytes generalizing a i m with
  | nil => simp at hi
  | cons b bs ih =>
    cases i with
    | zero =>
      rw [Memory.writeBytes, Memory.writeBytes_read_below (by omega), Nat.add_zero, Memory.read_write_self]; rfl
    | succ i =>
      have := ih (a + 1) i (Memory.write a b m) (by simpa using hi)
      rw [Memory.writeBytes, show a + (i + 1) = a + 1 + i by omega, this]; rfl

/-- Above the run, nothing changes. -/
theorem Memory.writeBytes_read_above (bytes : List Byte) (a x : Nat) (m : Memory) (hx : a + bytes.length ≤ x) :
    (Memory.writeBytes a bytes m).read x = m.read x := by
  induction bytes generalizing a m with
  | nil => rfl
  | cons b bs ih =>
    simp only [List.length_cons] at hx
    rw [Memory.writeBytes, ih (a + 1) _ (by omega), Memory.read_write_other (by omega)]

/-- The offsets listed after a run of writes: those of the run and those before. -/
theorem Memory.mem_writeBytes {bytes : List Byte} {a : Nat} {m : Memory} {c : Host.Cell}
    (h : c ∈ Memory.writeBytes a bytes m) : (a ≤ c.1 ∧ c.1 < a + bytes.length) ∨ c ∈ m := by
  induction bytes generalizing a m with
  | nil => exact .inr h
  | cons b bs ih =>
    rcases ih h with h | h
    · exact .inl (by simp only [List.length_cons]; omega)
    · rcases Memory.mem_write h with rfl | h
      · exact .inl (by simp only [List.length_cons]; omega)
      · exact .inr h

theorem Memory.write_end (m : Memory) (a : Nat) (b : Byte) (h : ∀ c ∈ m, c.1 < a) :
    Memory.write a b m = m ++ [(a, b)] := by
  induction m with
  | nil => rfl
  | cons c m ih =>
    obtain ⟨x, y⟩ := c
    have hx : x < a := h (x, y) (by simp)
    simp only [Memory.write, Nat.not_lt.2 hx.le, if_false, (Nat.ne_of_lt hx).symm, List.cons_append]
    rw [ih fun c hc => h c (by simp [hc])]

/-- A run of bytes written to an empty buffer from its start lists exactly the offsets of the run. -/
theorem Memory.writeBytes_offsets (bytes : List Byte) :
    (Memory.writeBytes 0 bytes []).map Prod.fst = List.range bytes.length := by
  have key : ∀ (bs : List Byte) (a : Nat) (m : Memory), m.map Prod.fst = List.range a →
      (Memory.writeBytes a bs m).map Prod.fst = List.range (a + bs.length) := by
    intro bs
    induction bs with
    | nil => intro a m hm; simpa [Memory.writeBytes] using hm
    | cons b bs ih =>
      intro a m hm
      have hlt : ∀ c ∈ m, c.1 < a := fun c hc => by
        have : c.1 ∈ m.map Prod.fst := List.mem_map_of_mem hc
        simpa [hm] using this
      rw [Memory.writeBytes, ih (a + 1) _ (by rw [Memory.write_end m a b hlt]; simp [hm, List.range_succ])]
      simp only [List.length_cons]; congr 1; omega
  simpa using key bytes 0 [] rfl

/-- Memory after reset is canonical. -/
theorem reset_buffers_wf (caps : Caps) :
    (State.resetWith caps).inMem.wf ∧ (State.resetWith caps).outMem.wf := by
  simp [State.resetWith, Memory.wf]

/-- The host's write of a byte of IN keeps the canonical form. -/
theorem hostWriteIn_wf {off : Nat} {b : Byte} {s t : State} (hs : s.inMem.wf) (h : hostWriteIn off b s = .next t) :
    t.inMem.wf := by
  unfold hostWriteIn at h
  split at h
  · cases h; exact Memory.write_wf off b s.inMem hs
  · cases h

/-- `.mov` keeps the canonical form. -/
theorem hostMov_wf {s t : State} (hs : s.inMem.wf) (h : hostMov s = .next t) : t.inMem.wf := by
  unfold hostMov at h
  split at h
  · cases h; exact Memory.writeBytes_wf _ 0 _ hs
  · cases h

end Sys2Proof.Machine
end

