-- ==== Sys2Proof/Laws/State.lean ====
section
/-! SUPPORT. One lemma per field per named update of the state and of STATUS, true by rfl, so that no later proof unfolds a
record update. -/

namespace Sys2Proof.Machine

/-! ### `Status.setDone` -/

@[simp] theorem Status.setDone_done (f : Status) : (f.setDone).done = true := rfl
@[simp] theorem Status.setDone_err (f : Status) : (f.setDone).err = f.err := rfl
@[simp] theorem Status.setDone_ftValid (f : Status) : (f.setDone).ftValid = f.ftValid := rfl
@[simp] theorem Status.setDone_hdrValid (f : Status) : (f.setDone).hdrValid = f.hdrValid := rfl
@[simp] theorem Status.setDone_wlValid (f : Status) : (f.setDone).wlValid = f.wlValid := rfl
@[simp] theorem Status.setDone_treeValid (f : Status) : (f.setDone).treeValid = f.treeValid := rfl
@[simp] theorem Status.setDone_ctValid (f : Status) : (f.setDone).ctValid = f.ctValid := rfl
@[simp] theorem Status.setDone_outValid (f : Status) : (f.setDone).outValid = f.outValid := rfl

/-! ### `Status.clearValid` -/

@[simp] theorem Status.clearValid_done (f : Status) : (f.clearValid).done = f.done := rfl
@[simp] theorem Status.clearValid_err (f : Status) : (f.clearValid).err = f.err := rfl
@[simp] theorem Status.clearValid_ftValid (f : Status) : (f.clearValid).ftValid = false := rfl
@[simp] theorem Status.clearValid_hdrValid (f : Status) : (f.clearValid).hdrValid = false := rfl
@[simp] theorem Status.clearValid_wlValid (f : Status) : (f.clearValid).wlValid = false := rfl
@[simp] theorem Status.clearValid_treeValid (f : Status) : (f.clearValid).treeValid = false := rfl
@[simp] theorem Status.clearValid_ctValid (f : Status) : (f.clearValid).ctValid = false := rfl
@[simp] theorem Status.clearValid_outValid (f : Status) : (f.clearValid).outValid = false := rfl

/-! ### `Status.afterFreq` -/

@[simp] theorem Status.afterFreq_done (f : Status) : (f.afterFreq).done = f.done := rfl
@[simp] theorem Status.afterFreq_err (f : Status) : (f.afterFreq).err = f.err := rfl
@[simp] theorem Status.afterFreq_ftValid (f : Status) : (f.afterFreq).ftValid = true := rfl
@[simp] theorem Status.afterFreq_hdrValid (f : Status) : (f.afterFreq).hdrValid = f.hdrValid := rfl
@[simp] theorem Status.afterFreq_wlValid (f : Status) : (f.afterFreq).wlValid = f.wlValid := rfl
@[simp] theorem Status.afterFreq_treeValid (f : Status) : (f.afterFreq).treeValid = f.treeValid := rfl
@[simp] theorem Status.afterFreq_ctValid (f : Status) : (f.afterFreq).ctValid = f.ctValid := rfl
@[simp] theorem Status.afterFreq_outValid (f : Status) : (f.afterFreq).outValid = f.outValid := rfl

/-! ### `Status.afterHdrparse` -/

@[simp] theorem Status.afterHdrparse_done (f : Status) : (f.afterHdrparse).done = f.done := rfl
@[simp] theorem Status.afterHdrparse_err (f : Status) : (f.afterHdrparse).err = f.err := rfl
@[simp] theorem Status.afterHdrparse_ftValid (f : Status) : (f.afterHdrparse).ftValid = true := rfl
@[simp] theorem Status.afterHdrparse_hdrValid (f : Status) : (f.afterHdrparse).hdrValid = true := rfl
@[simp] theorem Status.afterHdrparse_wlValid (f : Status) : (f.afterHdrparse).wlValid = f.wlValid := rfl
@[simp] theorem Status.afterHdrparse_treeValid (f : Status) : (f.afterHdrparse).treeValid = f.treeValid := rfl
@[simp] theorem Status.afterHdrparse_ctValid (f : Status) : (f.afterHdrparse).ctValid = f.ctValid := rfl
@[simp] theorem Status.afterHdrparse_outValid (f : Status) : (f.afterHdrparse).outValid = f.outValid := rfl

/-! ### `Status.afterSeed` -/

@[simp] theorem Status.afterSeed_done (f : Status) (n : Nat) : (f.afterSeed n).done = f.done := rfl
@[simp] theorem Status.afterSeed_err (f : Status) (n : Nat) : (f.afterSeed n).err = f.err := rfl
@[simp] theorem Status.afterSeed_ftValid (f : Status) (n : Nat) : (f.afterSeed n).ftValid = f.ftValid := rfl
@[simp] theorem Status.afterSeed_hdrValid (f : Status) (n : Nat) : (f.afterSeed n).hdrValid = f.hdrValid := rfl
@[simp] theorem Status.afterSeed_wlValid (f : Status) (n : Nat) : (f.afterSeed n).wlValid = true := rfl
@[simp] theorem Status.afterSeed_treeValid (f : Status) (n : Nat) : (f.afterSeed n).treeValid = (n == 1) := rfl
@[simp] theorem Status.afterSeed_ctValid (f : Status) (n : Nat) : (f.afterSeed n).ctValid = false := rfl
@[simp] theorem Status.afterSeed_outValid (f : Status) (n : Nat) : (f.afterSeed n).outValid = f.outValid := rfl

/-! ### `Status.afterMerge` -/

@[simp] theorem Status.afterMerge_done (f : Status) (n : Nat) : (f.afterMerge n).done = f.done := rfl
@[simp] theorem Status.afterMerge_err (f : Status) (n : Nat) : (f.afterMerge n).err = f.err := rfl
@[simp] theorem Status.afterMerge_ftValid (f : Status) (n : Nat) : (f.afterMerge n).ftValid = f.ftValid := rfl
@[simp] theorem Status.afterMerge_hdrValid (f : Status) (n : Nat) : (f.afterMerge n).hdrValid = f.hdrValid := rfl
@[simp] theorem Status.afterMerge_wlValid (f : Status) (n : Nat) : (f.afterMerge n).wlValid = f.wlValid := rfl
@[simp] theorem Status.afterMerge_treeValid (f : Status) (n : Nat) : (f.afterMerge n).treeValid = (n == 1 || f.treeValid) := rfl
@[simp] theorem Status.afterMerge_ctValid (f : Status) (n : Nat) : (f.afterMerge n).ctValid = f.ctValid := rfl
@[simp] theorem Status.afterMerge_outValid (f : Status) (n : Nat) : (f.afterMerge n).outValid = f.outValid := rfl

/-! ### `Status.afterCodegen` -/

@[simp] theorem Status.afterCodegen_done (f : Status) : (f.afterCodegen).done = f.done := rfl
@[simp] theorem Status.afterCodegen_err (f : Status) : (f.afterCodegen).err = f.err := rfl
@[simp] theorem Status.afterCodegen_ftValid (f : Status) : (f.afterCodegen).ftValid = f.ftValid := rfl
@[simp] theorem Status.afterCodegen_hdrValid (f : Status) : (f.afterCodegen).hdrValid = f.hdrValid := rfl
@[simp] theorem Status.afterCodegen_wlValid (f : Status) : (f.afterCodegen).wlValid = f.wlValid := rfl
@[simp] theorem Status.afterCodegen_treeValid (f : Status) : (f.afterCodegen).treeValid = f.treeValid := rfl
@[simp] theorem Status.afterCodegen_ctValid (f : Status) : (f.afterCodegen).ctValid = true := rfl
@[simp] theorem Status.afterCodegen_outValid (f : Status) : (f.afterCodegen).outValid = f.outValid := rfl

/-! ### `Status.afterEncode` -/

@[simp] theorem Status.afterEncode_done (f : Status) : (f.afterEncode).done = f.done := rfl
@[simp] theorem Status.afterEncode_err (f : Status) : (f.afterEncode).err = f.err := rfl
@[simp] theorem Status.afterEncode_ftValid (f : Status) : (f.afterEncode).ftValid = f.ftValid := rfl
@[simp] theorem Status.afterEncode_hdrValid (f : Status) : (f.afterEncode).hdrValid = false := rfl
@[simp] theorem Status.afterEncode_wlValid (f : Status) : (f.afterEncode).wlValid = f.wlValid := rfl
@[simp] theorem Status.afterEncode_treeValid (f : Status) : (f.afterEncode).treeValid = f.treeValid := rfl
@[simp] theorem Status.afterEncode_ctValid (f : Status) : (f.afterEncode).ctValid = f.ctValid := rfl
@[simp] theorem Status.afterEncode_outValid (f : Status) : (f.afterEncode).outValid = true := rfl

/-! ### `Status.setOutValid` -/

@[simp] theorem Status.setOutValid_done (f : Status) : (f.setOutValid).done = f.done := rfl
@[simp] theorem Status.setOutValid_err (f : Status) : (f.setOutValid).err = f.err := rfl
@[simp] theorem Status.setOutValid_ftValid (f : Status) : (f.setOutValid).ftValid = f.ftValid := rfl
@[simp] theorem Status.setOutValid_hdrValid (f : Status) : (f.setOutValid).hdrValid = f.hdrValid := rfl
@[simp] theorem Status.setOutValid_wlValid (f : Status) : (f.setOutValid).wlValid = f.wlValid := rfl
@[simp] theorem Status.setOutValid_treeValid (f : Status) : (f.setOutValid).treeValid = f.treeValid := rfl
@[simp] theorem Status.setOutValid_ctValid (f : Status) : (f.setOutValid).ctValid = f.ctValid := rfl
@[simp] theorem Status.setOutValid_outValid (f : Status) : (f.setOutValid).outValid = true := rfl

/-! ### The constants -/

@[simp] theorem Status.zero_done : Status.zero.done = false := rfl
@[simp] theorem Status.zero_err : Status.zero.err = false := rfl
@[simp] theorem Status.zero_ftValid : Status.zero.ftValid = false := rfl
@[simp] theorem Status.zero_hdrValid : Status.zero.hdrValid = false := rfl
@[simp] theorem Status.zero_wlValid : Status.zero.wlValid = false := rfl
@[simp] theorem Status.zero_treeValid : Status.zero.treeValid = false := rfl
@[simp] theorem Status.zero_ctValid : Status.zero.ctValid = false := rfl
@[simp] theorem Status.zero_outValid : Status.zero.outValid = false := rfl
@[simp] theorem Status.errored_done : Status.errored.done = true := rfl
@[simp] theorem Status.errored_err : Status.errored.err = true := rfl
@[simp] theorem Status.errored_ftValid : Status.errored.ftValid = false := rfl
@[simp] theorem Status.errored_hdrValid : Status.errored.hdrValid = false := rfl
@[simp] theorem Status.errored_wlValid : Status.errored.wlValid = false := rfl
@[simp] theorem Status.errored_treeValid : Status.errored.treeValid = false := rfl
@[simp] theorem Status.errored_ctValid : Status.errored.ctValid = false := rfl
@[simp] theorem Status.errored_outValid : Status.errored.outValid = false := rfl

/-! ### `State.fresh` -/

@[simp] theorem fresh_caps (s : State) : (s.fresh).caps = s.caps := rfl
@[simp] theorem fresh_status (s : State) : (s.fresh).status = s.status := rfl
@[simp] theorem fresh_errCode (s : State) : (s.fresh).errCode = s.errCode := rfl
@[simp] theorem fresh_errInfo (s : State) : (s.fresh).errInfo = s.errInfo := rfl
@[simp] theorem fresh_inLen (s : State) : (s.fresh).inLen = s.inLen := rfl
@[simp] theorem fresh_outLen (s : State) : (s.fresh).outLen = s.outLen := rfl
@[simp] theorem fresh_nsym (s : State) : (s.fresh).nsym = s.nsym := rfl
@[simp] theorem fresh_padBits (s : State) : (s.fresh).padBits = s.padBits := rfl
@[simp] theorem fresh_bitLen (s : State) : (s.fresh).bitLen = s.bitLen := rfl
@[simp] theorem fresh_hlen (s : State) : (s.fresh).hlen = s.hlen := rfl
@[simp] theorem fresh_nnodes (s : State) : (s.fresh).nnodes = s.nnodes := rfl
@[simp] theorem fresh_root (s : State) : (s.fresh).root = s.root := rfl
@[simp] theorem fresh_wlLen (s : State) : (s.fresh).wlLen = s.wlLen := rfl
@[simp] theorem fresh_ctLen (s : State) : (s.fresh).ctLen = s.ctLen := rfl
@[simp] theorem fresh_ft (s : State) : (s.fresh).ft = s.ft := rfl
@[simp] theorem fresh_node (s : State) : (s.fresh).node = s.node := rfl
@[simp] theorem fresh_wl (s : State) : (s.fresh).wl = s.wl := rfl
@[simp] theorem fresh_ct (s : State) : (s.fresh).ct = s.ct := rfl
@[simp] theorem fresh_inMem (s : State) : (s.fresh).inMem = s.inMem := rfl
@[simp] theorem fresh_outMem (s : State) : (s.fresh).outMem = s.outMem := rfl
@[simp] theorem fresh_host (s : State) : (s.fresh).host = s.host := rfl
@[simp] theorem fresh_hostData (s : State) : (s.fresh).hostData = s.hostData := rfl
@[simp] theorem fresh_freeCount (s : State) : (s.fresh).freeCount = s.freeCount + 1 := rfl

/-! ### `State.finish` -/

@[simp] theorem finish_caps (s : State) : (s.finish).caps = s.caps := rfl
@[simp] theorem finish_status (s : State) : (s.finish).status = s.status.setDone := rfl
@[simp] theorem finish_errCode (s : State) : (s.finish).errCode = s.errCode := rfl
@[simp] theorem finish_errInfo (s : State) : (s.finish).errInfo = s.errInfo := rfl
@[simp] theorem finish_inLen (s : State) : (s.finish).inLen = s.inLen := rfl
@[simp] theorem finish_outLen (s : State) : (s.finish).outLen = s.outLen := rfl
@[simp] theorem finish_nsym (s : State) : (s.finish).nsym = s.nsym := rfl
@[simp] theorem finish_padBits (s : State) : (s.finish).padBits = s.padBits := rfl
@[simp] theorem finish_bitLen (s : State) : (s.finish).bitLen = s.bitLen := rfl
@[simp] theorem finish_hlen (s : State) : (s.finish).hlen = s.hlen := rfl
@[simp] theorem finish_nnodes (s : State) : (s.finish).nnodes = s.nnodes := rfl
@[simp] theorem finish_root (s : State) : (s.finish).root = s.root := rfl
@[simp] theorem finish_wlLen (s : State) : (s.finish).wlLen = s.wlLen := rfl
@[simp] theorem finish_ctLen (s : State) : (s.finish).ctLen = s.ctLen := rfl
@[simp] theorem finish_ft (s : State) : (s.finish).ft = s.ft := rfl
@[simp] theorem finish_node (s : State) : (s.finish).node = s.node := rfl
@[simp] theorem finish_wl (s : State) : (s.finish).wl = s.wl := rfl
@[simp] theorem finish_ct (s : State) : (s.finish).ct = s.ct := rfl
@[simp] theorem finish_inMem (s : State) : (s.finish).inMem = s.inMem := rfl
@[simp] theorem finish_outMem (s : State) : (s.finish).outMem = s.outMem := rfl
@[simp] theorem finish_host (s : State) : (s.finish).host = s.host := rfl
@[simp] theorem finish_hostData (s : State) : (s.finish).hostData = s.hostData := rfl
@[simp] theorem finish_freeCount (s : State) : (s.finish).freeCount = s.freeCount := rfl

/-! ### `internalClear` -/

@[simp] theorem internalClear_caps (s : State) : (internalClear s).caps = s.caps := rfl
@[simp] theorem internalClear_status (s : State) : (internalClear s).status = s.status.clearValid := rfl
@[simp] theorem internalClear_errCode (s : State) : (internalClear s).errCode = s.errCode := rfl
@[simp] theorem internalClear_errInfo (s : State) : (internalClear s).errInfo = s.errInfo := rfl
@[simp] theorem internalClear_inLen (s : State) : (internalClear s).inLen = s.inLen := rfl
@[simp] theorem internalClear_outLen (s : State) : (internalClear s).outLen = 0 := rfl
@[simp] theorem internalClear_nsym (s : State) : (internalClear s).nsym = 0 := rfl
@[simp] theorem internalClear_padBits (s : State) : (internalClear s).padBits = 0 := rfl
@[simp] theorem internalClear_bitLen (s : State) : (internalClear s).bitLen = 0 := rfl
@[simp] theorem internalClear_hlen (s : State) : (internalClear s).hlen = 0 := rfl
@[simp] theorem internalClear_nnodes (s : State) : (internalClear s).nnodes = 0 := rfl
@[simp] theorem internalClear_root (s : State) : (internalClear s).root = 0 := rfl
@[simp] theorem internalClear_wlLen (s : State) : (internalClear s).wlLen = 0 := rfl
@[simp] theorem internalClear_ctLen (s : State) : (internalClear s).ctLen = 0 := rfl
@[simp] theorem internalClear_ft (s : State) : (internalClear s).ft = [] := rfl
@[simp] theorem internalClear_node (s : State) : (internalClear s).node = [] := rfl
@[simp] theorem internalClear_wl (s : State) : (internalClear s).wl = [] := rfl
@[simp] theorem internalClear_ct (s : State) : (internalClear s).ct = [] := rfl
@[simp] theorem internalClear_inMem (s : State) : (internalClear s).inMem = s.inMem := rfl
@[simp] theorem internalClear_outMem (s : State) : (internalClear s).outMem = [] := rfl
@[simp] theorem internalClear_host (s : State) : (internalClear s).host = s.host := rfl
@[simp] theorem internalClear_hostData (s : State) : (internalClear s).hostData = s.hostData := rfl
@[simp] theorem internalClear_freeCount (s : State) : (internalClear s).freeCount = s.freeCount := rfl

/-! ### `clearAll` -/

@[simp] theorem clearAll_caps (s : State) : (clearAll s).caps = s.caps := rfl
@[simp] theorem clearAll_status (s : State) : (clearAll s).status = Status.zero := rfl
@[simp] theorem clearAll_errCode (s : State) : (clearAll s).errCode = 0 := rfl
@[simp] theorem clearAll_errInfo (s : State) : (clearAll s).errInfo = 0 := rfl
@[simp] theorem clearAll_inLen (s : State) : (clearAll s).inLen = s.inLen := rfl
@[simp] theorem clearAll_outLen (s : State) : (clearAll s).outLen = 0 := rfl
@[simp] theorem clearAll_nsym (s : State) : (clearAll s).nsym = 0 := rfl
@[simp] theorem clearAll_padBits (s : State) : (clearAll s).padBits = 0 := rfl
@[simp] theorem clearAll_bitLen (s : State) : (clearAll s).bitLen = 0 := rfl
@[simp] theorem clearAll_hlen (s : State) : (clearAll s).hlen = 0 := rfl
@[simp] theorem clearAll_nnodes (s : State) : (clearAll s).nnodes = 0 := rfl
@[simp] theorem clearAll_root (s : State) : (clearAll s).root = 0 := rfl
@[simp] theorem clearAll_wlLen (s : State) : (clearAll s).wlLen = 0 := rfl
@[simp] theorem clearAll_ctLen (s : State) : (clearAll s).ctLen = 0 := rfl
@[simp] theorem clearAll_ft (s : State) : (clearAll s).ft = [] := rfl
@[simp] theorem clearAll_node (s : State) : (clearAll s).node = [] := rfl
@[simp] theorem clearAll_wl (s : State) : (clearAll s).wl = [] := rfl
@[simp] theorem clearAll_ct (s : State) : (clearAll s).ct = [] := rfl
@[simp] theorem clearAll_inMem (s : State) : (clearAll s).inMem = s.inMem := rfl
@[simp] theorem clearAll_outMem (s : State) : (clearAll s).outMem = [] := rfl
@[simp] theorem clearAll_host (s : State) : (clearAll s).host = s.host := rfl
@[simp] theorem clearAll_hostData (s : State) : (clearAll s).hostData = s.hostData := rfl
@[simp] theorem clearAll_freeCount (s : State) : (clearAll s).freeCount = s.freeCount := rfl

/-! ### `raise` -/

@[simp] theorem raise_caps (e : Cause) (s : State) : (raise e s).caps = s.caps := rfl
@[simp] theorem raise_status (e : Cause) (s : State) : (raise e s).status = Status.errored := rfl
@[simp] theorem raise_errCode (e : Cause) (s : State) : (raise e s).errCode = e.code := rfl
@[simp] theorem raise_errInfo (e : Cause) (s : State) : (raise e s).errInfo = e.info := rfl
@[simp] theorem raise_inLen (e : Cause) (s : State) : (raise e s).inLen = s.inLen := rfl
@[simp] theorem raise_inMem (e : Cause) (s : State) : (raise e s).inMem = s.inMem := rfl
@[simp] theorem raise_outMem (e : Cause) (s : State) : (raise e s).outMem = [] := rfl
@[simp] theorem raise_host (e : Cause) (s : State) : (raise e s).host = s.host := rfl
@[simp] theorem raise_hostData (e : Cause) (s : State) : (raise e s).hostData = s.hostData := rfl
@[simp] theorem raise_freeCount (e : Cause) (s : State) : (raise e s).freeCount = s.freeCount := rfl

/-! ### `State.putOut` -/

@[simp] theorem putOut_caps (s : State) (bytes : List Byte) : (s.putOut bytes).caps = s.caps := rfl
@[simp] theorem putOut_status (s : State) (bytes : List Byte) : (s.putOut bytes).status = s.status := rfl
@[simp] theorem putOut_errCode (s : State) (bytes : List Byte) : (s.putOut bytes).errCode = s.errCode := rfl
@[simp] theorem putOut_errInfo (s : State) (bytes : List Byte) : (s.putOut bytes).errInfo = s.errInfo := rfl
@[simp] theorem putOut_inLen (s : State) (bytes : List Byte) : (s.putOut bytes).inLen = s.inLen := rfl
@[simp] theorem putOut_outLen (s : State) (bytes : List Byte) : (s.putOut bytes).outLen = bytes.length := rfl
@[simp] theorem putOut_nsym (s : State) (bytes : List Byte) : (s.putOut bytes).nsym = s.nsym := rfl
@[simp] theorem putOut_padBits (s : State) (bytes : List Byte) : (s.putOut bytes).padBits = s.padBits := rfl
@[simp] theorem putOut_bitLen (s : State) (bytes : List Byte) : (s.putOut bytes).bitLen = s.bitLen := rfl
@[simp] theorem putOut_hlen (s : State) (bytes : List Byte) : (s.putOut bytes).hlen = s.hlen := rfl
@[simp] theorem putOut_nnodes (s : State) (bytes : List Byte) : (s.putOut bytes).nnodes = s.nnodes := rfl
@[simp] theorem putOut_root (s : State) (bytes : List Byte) : (s.putOut bytes).root = s.root := rfl
@[simp] theorem putOut_wlLen (s : State) (bytes : List Byte) : (s.putOut bytes).wlLen = s.wlLen := rfl
@[simp] theorem putOut_ctLen (s : State) (bytes : List Byte) : (s.putOut bytes).ctLen = s.ctLen := rfl
@[simp] theorem putOut_ft (s : State) (bytes : List Byte) : (s.putOut bytes).ft = s.ft := rfl
@[simp] theorem putOut_node (s : State) (bytes : List Byte) : (s.putOut bytes).node = s.node := rfl
@[simp] theorem putOut_wl (s : State) (bytes : List Byte) : (s.putOut bytes).wl = s.wl := rfl
@[simp] theorem putOut_ct (s : State) (bytes : List Byte) : (s.putOut bytes).ct = s.ct := rfl
@[simp] theorem putOut_inMem (s : State) (bytes : List Byte) : (s.putOut bytes).inMem = s.inMem := rfl
@[simp] theorem putOut_outMem (s : State) (bytes : List Byte) : (s.putOut bytes).outMem = Memory.writeBytes 0 bytes [] := rfl
@[simp] theorem putOut_host (s : State) (bytes : List Byte) : (s.putOut bytes).host = s.host := rfl
@[simp] theorem putOut_hostData (s : State) (bytes : List Byte) : (s.putOut bytes).hostData = s.hostData := rfl
@[simp] theorem putOut_freeCount (s : State) (bytes : List Byte) : (s.putOut bytes).freeCount = s.freeCount := rfl

/-! ### `State.putEmpty` -/

@[simp] theorem putEmpty_caps (s : State) : (s.putEmpty).caps = s.caps := rfl
@[simp] theorem putEmpty_status (s : State) : (s.putEmpty).status = s.status.setOutValid := rfl
@[simp] theorem putEmpty_errCode (s : State) : (s.putEmpty).errCode = s.errCode := rfl
@[simp] theorem putEmpty_errInfo (s : State) : (s.putEmpty).errInfo = s.errInfo := rfl
@[simp] theorem putEmpty_inLen (s : State) : (s.putEmpty).inLen = s.inLen := rfl
@[simp] theorem putEmpty_outLen (s : State) : (s.putEmpty).outLen = 0 := rfl
@[simp] theorem putEmpty_nsym (s : State) : (s.putEmpty).nsym = s.nsym := rfl
@[simp] theorem putEmpty_padBits (s : State) : (s.putEmpty).padBits = 0 := rfl
@[simp] theorem putEmpty_bitLen (s : State) : (s.putEmpty).bitLen = 0 := rfl
@[simp] theorem putEmpty_hlen (s : State) : (s.putEmpty).hlen = 0 := rfl
@[simp] theorem putEmpty_nnodes (s : State) : (s.putEmpty).nnodes = s.nnodes := rfl
@[simp] theorem putEmpty_root (s : State) : (s.putEmpty).root = s.root := rfl
@[simp] theorem putEmpty_wlLen (s : State) : (s.putEmpty).wlLen = s.wlLen := rfl
@[simp] theorem putEmpty_ctLen (s : State) : (s.putEmpty).ctLen = s.ctLen := rfl
@[simp] theorem putEmpty_ft (s : State) : (s.putEmpty).ft = s.ft := rfl
@[simp] theorem putEmpty_node (s : State) : (s.putEmpty).node = s.node := rfl
@[simp] theorem putEmpty_wl (s : State) : (s.putEmpty).wl = s.wl := rfl
@[simp] theorem putEmpty_ct (s : State) : (s.putEmpty).ct = s.ct := rfl
@[simp] theorem putEmpty_inMem (s : State) : (s.putEmpty).inMem = s.inMem := rfl
@[simp] theorem putEmpty_outMem (s : State) : (s.putEmpty).outMem = [] := rfl
@[simp] theorem putEmpty_host (s : State) : (s.putEmpty).host = s.host := rfl
@[simp] theorem putEmpty_hostData (s : State) : (s.putEmpty).hostData = s.hostData := rfl
@[simp] theorem putEmpty_freeCount (s : State) : (s.putEmpty).freeCount = s.freeCount := rfl

/-! ### `mergeOnce` -/

@[simp] theorem mergeOnce_caps (s : State) : (mergeOnce s).caps = s.caps := rfl
@[simp] theorem mergeOnce_status (s : State) : (mergeOnce s).status = s.status.afterMerge (s.wlLen - 1) := rfl
@[simp] theorem mergeOnce_errCode (s : State) : (mergeOnce s).errCode = s.errCode := rfl
@[simp] theorem mergeOnce_errInfo (s : State) : (mergeOnce s).errInfo = s.errInfo := rfl
@[simp] theorem mergeOnce_inLen (s : State) : (mergeOnce s).inLen = s.inLen := rfl
@[simp] theorem mergeOnce_outLen (s : State) : (mergeOnce s).outLen = s.outLen := rfl
@[simp] theorem mergeOnce_nsym (s : State) : (mergeOnce s).nsym = s.nsym := rfl
@[simp] theorem mergeOnce_padBits (s : State) : (mergeOnce s).padBits = s.padBits := rfl
@[simp] theorem mergeOnce_bitLen (s : State) : (mergeOnce s).bitLen = s.bitLen := rfl
@[simp] theorem mergeOnce_hlen (s : State) : (mergeOnce s).hlen = s.hlen := rfl
@[simp] theorem mergeOnce_nnodes (s : State) : (mergeOnce s).nnodes = s.nnodes + 1 := rfl
@[simp] theorem mergeOnce_root (s : State) : (mergeOnce s).root = if s.wlLen - 1 = 1 then s.nnodes else s.root := rfl
@[simp] theorem mergeOnce_wlLen (s : State) : (mergeOnce s).wlLen = s.wlLen - 1 := rfl
@[simp] theorem mergeOnce_ctLen (s : State) : (mergeOnce s).ctLen = s.ctLen := rfl
@[simp] theorem mergeOnce_ft (s : State) : (mergeOnce s).ft = s.ft := rfl
@[simp] theorem mergeOnce_ct (s : State) : (mergeOnce s).ct = s.ct := rfl
@[simp] theorem mergeOnce_inMem (s : State) : (mergeOnce s).inMem = s.inMem := rfl
@[simp] theorem mergeOnce_outMem (s : State) : (mergeOnce s).outMem = s.outMem := rfl
@[simp] theorem mergeOnce_host (s : State) : (mergeOnce s).host = s.host := rfl
@[simp] theorem mergeOnce_hostData (s : State) : (mergeOnce s).hostData = s.hostData := rfl
@[simp] theorem mergeOnce_freeCount (s : State) : (mergeOnce s).freeCount = s.freeCount := rfl

/-! ### What the updates leave of the views of IN and the arrays -/

@[simp] theorem fresh_memReadIn (s : State) (a : Nat) : (s.fresh).memReadIn a = s.memReadIn a := rfl
@[simp] theorem fresh_input (s : State) : (s.fresh).input = s.input := rfl
@[simp] theorem fresh_inputFits (s : State) : (s.fresh).inputFits = s.inputFits := rfl
@[simp] theorem finish_memReadIn (s : State) (a : Nat) : (s.finish).memReadIn a = s.memReadIn a := rfl
@[simp] theorem finish_input (s : State) : (s.finish).input = s.input := rfl
@[simp] theorem finish_inputFits (s : State) : (s.finish).inputFits = s.inputFits := rfl
@[simp] theorem internalClear_memReadIn (s : State) (a : Nat) : (internalClear s).memReadIn a = s.memReadIn a := rfl
@[simp] theorem internalClear_input (s : State) : (internalClear s).input = s.input := rfl
@[simp] theorem internalClear_inputFits (s : State) : (internalClear s).inputFits = s.inputFits := rfl
@[simp] theorem putOut_memReadIn (s : State) (bytes : List Byte) (a : Nat) : (s.putOut bytes).memReadIn a = s.memReadIn a := rfl
@[simp] theorem putOut_input (s : State) (bytes : List Byte) : (s.putOut bytes).input = s.input := rfl
@[simp] theorem putOut_inputFits (s : State) (bytes : List Byte) : (s.putOut bytes).inputFits = s.inputFits := rfl
@[simp] theorem finish_nodeAt (s : State) (k : Nat) : (s.finish).nodeAt k = s.nodeAt k := rfl
@[simp] theorem finish_weightOf (s : State) (k : Nat) : (s.finish).weightOf k = s.weightOf k := rfl
@[simp] theorem finish_codeTable (s : State) : (s.finish).codeTable = s.codeTable := rfl
@[simp] theorem putOut_nodeAt (s : State) (bytes : List Byte) (k : Nat) : (s.putOut bytes).nodeAt k = s.nodeAt k := rfl
@[simp] theorem putOut_weightOf (s : State) (bytes : List Byte) (k : Nat) : (s.putOut bytes).weightOf k = s.weightOf k := rfl
@[simp] theorem putOut_codeTable (s : State) (bytes : List Byte) : (s.putOut bytes).codeTable = s.codeTable := rfl
@[simp] theorem fresh_seedReady (s : State) : s.fresh.seedReady = s.seedReady := rfl
@[simp] theorem fresh_mergeReady (s : State) : s.fresh.mergeReady = s.mergeReady := rfl
@[simp] theorem fresh_codegenReady (s : State) : s.fresh.codegenReady = s.codegenReady := rfl
@[simp] theorem fresh_encodeReady (s : State) : s.fresh.encodeReady = s.encodeReady := rfl
@[simp] theorem fresh_decodeReady (s : State) : s.fresh.decodeReady = s.decodeReady := rfl
@[simp] theorem fresh_lengthConsistent (s : State) : s.fresh.lengthConsistent = s.lengthConsistent := rfl
@[simp] theorem fresh_payloadBits (s : State) : s.fresh.payloadBits = s.payloadBits := rfl
@[simp] theorem fresh_stream (s : State) : s.fresh.stream = s.stream := rfl

end Sys2Proof.Machine
end

