-- ==== Sys2Proof/Laws/Ops.lean ====
section
/-! SUPPORT. One lemma per shared operation that says once everything it can do: running a command, the sort, bit-strings,
results in OUT, and the state a table look-up sees. -/

namespace Sys2Proof.Machine

/-! ## Running a command (R243) -/

theorem run_refused {body : State → Except Cause State} {s : State} (h : s.status.err = true) :
    run body s = .next s := by
  simp [run, h]

theorem run_ok {body : State → Except Cause State} {s t : State} (h : s.status.err = false)
    (hb : body s.fresh = .ok t) : run body s = .next t.finish := by
  simp [run, h, hb]

theorem run_error {body : State → Except Cause State} {s : State} {e : Cause} (h : s.status.err = false)
    (hb : body s.fresh = .error e) : run body s = .next (raise e s.fresh) := by
  simp [run, h, hb]

/-- Everything `run` can do: refuse, complete, or raise. -/
theorem run_cases {body : State → Except Cause State} {s u : State} (h : run body s = .next u) :
    (s.status.err = true ∧ u = s) ∨
    (s.status.err = false ∧ ∃ t, body s.fresh = .ok t ∧ u = t.finish) ∨
    (s.status.err = false ∧ ∃ e, body s.fresh = .error e ∧ u = raise e s.fresh) := by
  cases he : s.status.err with
  | true => rw [run_refused he] at h; cases h; exact .inl ⟨rfl, rfl⟩
  | false =>
    cases hb : body s.fresh with
    | ok t => rw [run_ok he hb] at h; cases h; exact .inr (.inl ⟨rfl, t, rfl, rfl⟩)
    | error e => rw [run_error he hb] at h; cases h; exact .inr (.inr ⟨rfl, e, rfl, rfl⟩)

/-- `run` always answers a next state. -/
theorem run_answers_next (body : State → Except Cause State) (s : State) : ∃ t, run body s = .next t := by
  cases he : s.status.err with
  | true => exact ⟨s, run_refused he⟩
  | false =>
    cases hb : body s.fresh with
    | ok t => exact ⟨_, run_ok he hb⟩
    | error e => exact ⟨_, run_error he hb⟩

/-! ## The sort (R12) -/

theorem insertByWeight_perm (w : Nat → Nat) (x : Nat) (ys : List Nat) : (insertByWeight w x ys).Perm (x :: ys) := by
  induction ys with
  | nil => exact List.Perm.refl _
  | cons y ys ih =>
    unfold insertByWeight
    split
    · exact List.Perm.refl _
    · exact (ih.cons y).trans (List.Perm.swap x y ys)

theorem ssort_perm (w : Nat → Nat) (xs : List Nat) : (ssort w xs).Perm xs := by
  induction xs with
  | nil => exact List.Perm.refl _
  | cons x xs ih => exact (insertByWeight_perm w x _).trans (ih.cons x)

@[simp] theorem ssort_length (w : Nat → Nat) (xs : List Nat) : (ssort w xs).length = xs.length :=
  (ssort_perm w xs).length_eq

@[simp] theorem mem_ssort {w : Nat → Nat} {xs : List Nat} {x : Nat} : x ∈ ssort w xs ↔ x ∈ xs :=
  (ssort_perm w xs).mem_iff

/-- The sort looks only at the weights of the elements of the list. -/
theorem ssort_congr {w v : Nat → Nat} {xs : List Nat} (h : ∀ x ∈ xs, w x = v x) : ssort w xs = ssort v xs := by
  have ins : ∀ (x : Nat) (ys : List Nat), (∀ y ∈ x :: ys, w y = v y) → insertByWeight w x ys = insertByWeight v x ys := by
    intro x ys
    induction ys with
    | nil => intro _; rfl
    | cons y ys ih =>
      intro hy
      simp only [insertByWeight, hy x (by simp), hy y (by simp)]
      rw [ih fun z hz => hy z (by rcases List.mem_cons.1 hz with rfl | hz <;> simp [*])]
  induction xs with
  | nil => rfl
  | cons x xs ih =>
    have hxs : ∀ y ∈ xs, w y = v y := fun y hy => h y (by simp [hy])
    simp only [ssort, ih hxs]
    exact ins x _ fun y hy => h y (by simpa using hy)

/-! ## Nodes -/

/-- Inside the arena a node does not depend on the draw of free values. -/
theorem nodeAt_of_lt {s : State} {k : Nat} (h : k < s.node.length) : s.nodeAt k = s.node[k] := by
  simp [State.nodeAt, h]

/-- Two states with the same arena agree on the nodes inside it. -/
theorem nodeAt_congr {s t : State} {k : Nat} (hn : s.node = t.node) (h : k < s.node.length) :
    s.nodeAt k = t.nodeAt k := by
  rw [nodeAt_of_lt h, nodeAt_of_lt (hn ▸ h)]; simp [hn]

/-! ## Bit-strings (R11) -/

@[simp] theorem bitVal_nil : bitVal [] = 0 := rfl

theorem bitVal_append (c d : List Bool) : bitVal (c ++ d) = bitVal c * 2 ^ d.length + bitVal d := by
  have key : ∀ (d : List Bool) (v : Nat), d.foldl (fun v b => 2 * v + b.toNat) v = v * 2 ^ d.length + bitVal d := by
    intro d
    induction d with
    | nil => intro v; simp
    | cons b d ih =>
      intro v
      have h1 : bitVal (b :: d) = b.toNat * 2 ^ d.length + bitVal d := by
        show d.foldl _ (2 * 0 + b.toNat) = _
        rw [ih]; simp
      rw [List.foldl_cons, ih, h1, List.length_cons, pow_succ]
      ring
  rw [bitVal, List.foldl_append, key]; rfl

@[simp] theorem bitVal_singleton (b : Bool) : bitVal [b] = b.toNat := by simp [bitVal]

/-- val(c) is below 2^k for a bit-string of length k (R48). -/
theorem bitVal_lt (c : List Bool) : bitVal c < 2 ^ c.length := by
  induction c using List.reverseRecOn with
  | nil => simp
  | append_singleton c b ih =>
    have hb := Bool.toNat_le b
    rw [bitVal_append, bitVal_singleton, List.length_append, List.length_singleton, pow_succ]
    omega

@[simp] theorem bitsOf_length (k v : Nat) : (bitsOf k v).length = k := by simp [bitsOf]

/-! ## OUT (R83, R38) -/

/-- OUT reads back as the bytes a command put there. -/
theorem putOut_read (s : State) (bytes : List Byte) (a : Nat) : (s.putOut bytes).outMem.read a = bytes[a]? := by
  rw [putOut_outMem]
  by_cases h : a < bytes.length
  · simpa using Memory.writeBytes_read_inside bytes 0 a [] h
  · rw [Memory.writeBytes_read_above bytes 0 a [] (by omega)]
    simp [Nat.le_of_not_lt h]

/-- The host reads OUT[0..OUT_LEN) as the bytes a command put there. -/
theorem output_of_putOut {t : State} {bytes : List Byte} (hv : t.status.outValid = true) (hl : t.outLen = bytes.length)
    (hm : t.outMem = Memory.writeBytes 0 bytes []) : t.output = bytes := by
  refine List.ext_getElem (by simp [State.output, hl]) fun i h1 h2 => ?_
  have hr : t.outMem.read i = some bytes[i] := by
    rw [hm]; simpa [h2] using Memory.writeBytes_read_inside bytes 0 i [] h2
  simp [State.output, State.outByte, hv, hl, h2, hr]

@[simp] theorem input_length (s : State) : s.input.length = s.inLen.toNat := by simp [State.input]

/-! ## The header (R114 to R118) -/

theorem headerBytes_length (n pad : Nat) (ft : List FtEntry) : (headerBytes n pad ft).length = 2 + 3 * ft.length := by
  have : (ft.flatMap entryBytes).length = 3 * ft.length := by
    induction ft with
    | nil => rfl
    | cons e es ih => simp only [List.flatMap_cons, List.length_append, ih, List.length_cons]; simp [entryBytes]; omega
  simp [headerBytes, this]; omega

end Sys2Proof.Machine
end

