-- ==== Sys2Proof/Laws/PerInstr.lean ====
section
/-! SUPPORT. The per-instruction family `EncodesItsRow`: a command's word is well formed and decodes to the command. -/

namespace Sys2Proof.Laws.EncodesItsRow

/-- The word of the command is well formed (R110 to R113) and decodes to it. -/
def Statement (i : Instr) : Prop := i.wf = true ∧ wordWf (encode i) = true ∧ decodeWord (encode i) = .ok i

theorem nop : Statement .nop := ⟨rfl, rfl, rfl⟩
theorem freq : Statement .freq := ⟨rfl, rfl, rfl⟩
theorem build : Statement .build := ⟨rfl, rfl, rfl⟩
theorem codegen : Statement .codegen := ⟨rfl, rfl, rfl⟩
theorem encode : Statement .encode := ⟨rfl, rfl, rfl⟩
theorem hdrparse : Statement .hdrparse := ⟨rfl, rfl, rfl⟩
theorem decode : Statement .decode := ⟨rfl, rfl, rfl⟩
theorem compress : Statement .compress := ⟨rfl, rfl, rfl⟩
theorem decompress : Statement .decompress := ⟨rfl, rfl, rfl⟩
theorem clear : Statement .clear := ⟨rfl, rfl, rfl⟩
theorem seed : Statement .seed := ⟨rfl, rfl, rfl⟩
theorem merge : Statement .merge := ⟨rfl, rfl, rfl⟩

end Sys2Proof.Laws.EncodesItsRow
end

