-- ==== Sys2Proof/Tests/Slice0.lean ====
section
/-! SUPPORT. The model's own tests. Expected values come from spec/95_test_vectors.md (V, X, E and P numbers) and from the
tables of spec/; after them, for every statement with hypotheses, a witness that meets them. -/

namespace Sys2Proof.Tests

open Sys2Proof Sys2Proof.Machine

/-! ## Helpers -/

/-- A machine of 32 bytes of IN and of OUT (the P programs ask for at least 32). -/
def caps32 : Caps := ⟨⟨32, by decide⟩, ⟨32, by decide⟩⟩

/-- `.in bytes` after reset (R125). -/
def booted (bytes : List Byte) : State :=
  { State.resetWith caps32 with inMem := Memory.writeBytes 0 bytes [], inLen := BitVec.ofNat 32 bytes.length }

/-- The state a result holds. -/
def landed (r : Result) (s : State) : State :=
  match r with
  | .next t => t
  | .fault _ => s
  | .refused _ => s

/-- The state after some commands. -/
def ran (is : List Instr) (s : State) : State := is.foldl (fun s i => landed (exec i s) s) s

/-- The state after a write of a word to CMD, as a step. -/
def wrote (c : Word) (s : State) : State :=
  landed (step { s with host := [.writeReg 0 c] }) s

/-- STATUS, ERRCODE and ERRINFO. -/
def errorRegs (s : State) : Word × Word × Word := (s.readReg 1, s.readReg 2, s.readReg 3)

theorem landed_run (body : State → Except Cause State) (s : State) : run body s = .next (landed (run body s) s) := by
  obtain ⟨t, h⟩ := run_answers_next body s
  rw [h]; rfl

/-- "AAAABBBCCD", the input of V1. -/
def textV1 : List Byte := [0x41, 0x41, 0x41, 0x41, 0x42, 0x42, 0x42, 0x43, 0x43, 0x44]

/-- The container of V1, the input of X1. -/
def boxV1 : List Byte :=
  [0x03, 0x05, 0x41, 0x00, 0x04, 0x42, 0x00, 0x03, 0x43, 0x00, 0x02, 0x44, 0x00, 0x01, 0x0A, 0xBF, 0xC0]

/-! ## Decoding: the words of R112 written bit by bit, and the words R111 and R113 refuse -/

theorem test_decode_control :
    decodeTableWord 32 0b00000000000000000000000000000000 = some .nop ∧
    decodeTableWord 32 0b00000000000000000000000000001001 = some .clear := by decide

theorem test_decode_builder :
    decodeTableWord 32 0b00000000000000000000000000001010 = some .seed ∧
    decodeTableWord 32 0b00000000000000000000000000001011 = some .merge ∧
    decodeTableWord 32 0b00000000000000000000000000000010 = some .build := by decide

theorem test_decode_stages :
    decodeTableWord 32 0b00000000000000000000000000000001 = some .freq ∧
    decodeTableWord 32 0b00000000000000000000000000000011 = some .codegen ∧
    decodeTableWord 32 0b00000000000000000000000000000100 = some .encode ∧
    decodeTableWord 32 0b00000000000000000000000000000101 = some .hdrparse ∧
    decodeTableWord 32 0b00000000000000000000000000000110 = some .decode := by decide

theorem test_decode_composites :
    decodeTableWord 32 0b00000000000000000000000000000111 = some .compress ∧
    decodeTableWord 32 0b00000000000000000000000000001000 = some .decompress := by decide

theorem test_decode_refuses_by_name :
    decodeWord 0x0000000C#32 = .error (.reservedOp 0xC) ∧ decodeWord 0x0000000F#32 = .error (.reservedOp 0xF) ∧
    decodeWord 0x00000107#32 = .error (.upperBitsNotZero 0x107) ∧
    decodeWord 0x80000000#32 = .error (.upperBitsNotZero 0x80000000) := ⟨rfl, rfl, rfl, rfl⟩

/-- The smoke test of WellFormed: a word that breaks each check is refused, and one that breaks none is not. -/
theorem test_wellFormed_smoke :
    wordWf 0x00000010#32 = false ∧ wordWf 0x0000000C#32 = false ∧ wordWf 0x0000000B#32 = true := by decide

/-! ## Control and errors (E1, E2, E3, E6, E18, P6) -/

theorem test_nop_E1 : errorRegs (wrote 0 (booted [])) = (0x01, 0, 0) := by decide

theorem test_clear_E2 : errorRegs (wrote 9 (booted [])) = (0x00, 0, 0) := by decide

theorem test_illegal_E3 : errorRegs (wrote 0xC (booted [])) = (0x03, 6, 0xC) := by decide

theorem test_illegal_E6 : errorRegs (wrote 0x107 (booted [])) = (0x03, 6, 0x107) := by decide

theorem test_refused_E18 : wrote 7 (wrote 0xC (booted textV1)) = wrote 0xC (booted textV1) := rfl

theorem test_clear_P6 : errorRegs (wrote 0 (wrote 9 (wrote 0xC (booted [])))) = (0x01, 0, 0) := by decide

theorem test_sequence_E8_to_E13 :
    errorRegs (wrote 0x2 (booted [])) = (0x03, 4, 0x2) ∧ errorRegs (wrote 0x3 (booted [])) = (0x03, 4, 0x3) ∧
    errorRegs (wrote 0x4 (booted [])) = (0x03, 4, 0x4) ∧ errorRegs (wrote 0x6 (booted [])) = (0x03, 4, 0x6) ∧
    errorRegs (wrote 0xA (booted [])) = (0x03, 4, 0xA) ∧ errorRegs (wrote 0xB (booted [])) = (0x03, 4, 0xB) := by
  decide

/-! ## Compress path (V1, V2, V3, V12, V16, V17, P1, E14, E15) -/

theorem test_freq_P1 : (ran [.freq] (booted textV1)).ft = [⟨0x41, 4⟩, ⟨0x42, 3⟩, ⟨0x43, 2⟩, ⟨0x44, 1⟩] ∧
    (ran [.freq] (booted textV1)).readReg 1 = 0x05 := by decide

theorem test_freq_firstOccurrence : (ran [.freq] (booted [0x42, 0x43, 0x41, 0x41])).ft =
    [⟨0x42, 1⟩, ⟨0x43, 1⟩, ⟨0x41, 2⟩] := by decide

theorem test_freq_overflow : countSym 0x5A [⟨0x5A, 65535⟩] = .error (.overflow 0x5A) ∧
    countSym 0x5A [⟨0x5A, 65534⟩] = .ok [⟨0x5A, 65535⟩] := ⟨rfl, rfl⟩

theorem test_seed_E15 : (ran [.freq, .seed] (booted [0x5A])).readReg 1 = 0x35 ∧
    errorRegs (ran [.freq, .seed, .merge] (booted [0x5A])) = (0x03, 4, 0xB) := by decide

theorem test_build_E14 : errorRegs (ran [.freq, .build] (booted [])) = (0x03, 2, 0) := by decide

theorem test_merge_P1 :
    (ran [.freq, .seed, .merge] (booted textV1)).wl = [1, 0, 4] ∧
    (ran [.freq, .seed, .merge, .merge] (booted textV1)).wl = [0, 5] ∧
    (ran [.freq, .seed, .merge, .merge, .merge] (booted textV1)).wl = [6] := by decide +kernel

theorem test_merge_last_P1 : (ran [.freq, .seed, .merge, .merge, .merge] (booted textV1)).readReg 1 = 0x35 ∧
    (ran [.freq, .seed, .merge, .merge, .merge] (booted textV1)).root = 6 := by decide +kernel

theorem test_build_V1 : (ran [.freq, .build] (booted textV1)).node =
    [.leaf 0x41 4, .leaf 0x42 3, .leaf 0x43 2, .leaf 0x44 1, .internal 3 3 2, .internal 6 1 4, .internal 10 0 5] := by
  decide +kernel

theorem test_codegen_V1 : (ran [.freq, .build, .codegen] (booted textV1)).ct =
    [⟨0x41, 1, 0⟩, ⟨0x42, 2, 2⟩, ⟨0x44, 3, 6⟩, ⟨0x43, 3, 7⟩] := by decide +kernel

/-- V8: the codes follow the frequencies, not the symbols (R169). -/
theorem test_codegen_V8 : (ran [.freq, .build, .codegen]
    (booted [0x41, 0x42, 0x42, 0x43, 0x43, 0x43, 0x44, 0x44, 0x44, 0x44])).ct =
    [⟨0x44, 1, 0⟩, ⟨0x43, 2, 2⟩, ⟨0x41, 3, 6⟩, ⟨0x42, 3, 7⟩] := by decide +kernel

theorem test_encode_P1 : (ran [.freq, .build, .codegen, .encode] (booted textV1)).output = boxV1 ∧
    (ran [.freq, .build, .codegen, .encode] (booted textV1)).readReg 1 = 0xF5 := by decide +kernel

/-- V17: a byte without a code. -/
theorem test_encode_V17 : errorRegs (ran [.encode]
    { ran [.freq, .build, .codegen] (booted [0x41, 0x41, 0x42]) with
      inMem := Memory.writeBytes 0 [0x41, 0x42, 0x43] [] }) = (0x03, 4, 0x143) := by decide +kernel

theorem test_compress_V12 : (ran [.compress]
    (booted [0x41, 0x42, 0x52, 0x41, 0x43, 0x41, 0x44, 0x41, 0x42, 0x52, 0x41])).output =
    [0x04, 0x01, 0x41, 0x00, 0x05, 0x42, 0x00, 0x02, 0x52, 0x00, 0x02, 0x43, 0x00, 0x01, 0x44, 0x00, 0x01,
      0x6E, 0x8A, 0xDC] := by decide +kernel

theorem test_compress_V3_V2 :
    (ran [.compress] (booted [0x5A, 0x5A, 0x5A, 0x5A, 0x5A])).output = [0x00, 0x00, 0x5A, 0x00, 0x05] ∧
    (ran [.compress] (booted [])).readReg 1 = 0x85 := by decide +kernel

/-- V16: OUT of 16 bytes is one too small. -/
theorem test_compress_V16 : errorRegs (ran [.compress]
    { booted textV1 with caps := ⟨⟨32, by decide⟩, ⟨16, by decide⟩⟩ }) = (0x03, 5, 2) := by decide +kernel

/-! ## Decompress path (X1, X4, X7, X9, X11, X15, X16, P4) -/

theorem test_hdrparse_P4 : (ran [.hdrparse] (booted boxV1)).ft = [⟨0x41, 4⟩, ⟨0x42, 3⟩, ⟨0x43, 2⟩, ⟨0x44, 1⟩] ∧
    (ran [.hdrparse] (booted boxV1)).readReg 1 = 0x0D := by decide +kernel

theorem test_hdrparse_X4_X7_X9 :
    errorRegs (ran [.hdrparse] (booted (boxV1.take 13))) = (0x03, 1, 1) ∧
    errorRegs (ran [.hdrparse] (booted (boxV1.set 1 0x08))) = (0x03, 1, 2) ∧
    errorRegs (ran [.hdrparse] (booted (boxV1.take 14))) = (0x03, 1, 3) := by decide +kernel

theorem test_decode_P4 : (ran [.hdrparse, .build, .decode] (booted boxV1)).output = textV1 := by decide +kernel

theorem test_decode_X11_X16 :
    errorRegs (ran [.hdrparse, .build, .decode] (booted (boxV1.take 16))) = (0x03, 1, 4) ∧
    errorRegs (ran [.hdrparse, .build, .decode] (booted [0x00, 0x00, 0x5A, 0x00, 0x05, 0x80])) = (0x03, 1, 5) := by
  decide +kernel

theorem test_decompress_X1_X15 :
    (ran [.decompress] (booted boxV1)).output = textV1 ∧ (ran [.decompress] (booted boxV1)).readReg 1 = 0xBD ∧
    (ran [.decompress] (booted [0x00, 0x00, 0x5A, 0x00, 0x05])).output = [0x5A, 0x5A, 0x5A, 0x5A, 0x5A] := by
  decide +kernel

/-- X22: OUT of 9 bytes, at the tenth symbol. -/
theorem test_decompress_X22 : errorRegs (ran [.decompress]
    { booted boxV1 with caps := ⟨⟨32, by decide⟩, ⟨9, by decide⟩⟩ }) = (0x03, 5, 2) := by decide +kernel

/-! ## The host's accesses -/

/-- `.mov` (R97) after V3's COMPRESS. -/
theorem test_mov : (landed (hostMov (ran [.compress] (booted [0x5A, 0x5A, 0x5A, 0x5A, 0x5A]))) (booted [])).input =
    [0x00, 0x00, 0x5A, 0x00, 0x05] := by decide +kernel

theorem test_withFetchWord : step (State.reset.withFetchWord 32 0x7) = exec .compress State.reset := rfl

/-! ## States of the invariant, for the witnesses -/

/-- A check by computation that a state without error meets the invariant. -/
def invOk (s : State) : Bool :=
  decide s.inMem.wf && decide (∀ c ∈ s.inMem, c.1 < s.caps.inCap.val) && decide s.outMem.wf
  && decide (s.outLen < 2 ^ 32 ∧ s.nsym < 2 ^ 9 ∧ s.padBits < 2 ^ 3 ∧ s.bitLen < 2 ^ 32 ∧ s.hlen < 2 ^ 10 ∧
      s.nnodes < 2 ^ 10 ∧ s.root < 2 ^ 9 ∧ s.wlLen < 2 ^ 9 ∧ s.ctLen < 2 ^ 9)
  && decide ((s.ft.length ≤ 256 ∧ ∀ e ∈ s.ft, e.cnt < 2 ^ 16) ∧
      (s.node.length ≤ 511 ∧ ∀ n ∈ s.node, n.weight < 2 ^ 24 ∧ ∀ k ∈ n.children, k < 2 ^ 9) ∧
      (s.wl.length ≤ 256 ∧ ∀ k ∈ s.wl, k < 2 ^ 9) ∧
      (s.ct.length ≤ 256 ∧ ∀ t ∈ s.ct, t.len < 2 ^ 8 ∧ t.val < 2 ^ 255))
  && decide (s.status.err = false ∧ s.errCode = 0 ∧ s.errInfo = 0 ∧ s.nsym = s.ft.length ∧ s.nnodes = s.node.length ∧
      s.wlLen = s.wl.length ∧ s.ctLen = s.ct.length)
  && decide ((s.status.ftValid = true → s.status.done = true) ∧ (s.status.ftValid = false → s.ft = []) ∧
      (s.status.wlValid = false → s.node = [] ∧ s.wl = []) ∧ (s.status.ctValid = false → s.ct = []) ∧
      (s.status.outValid = false → s.outLen = 0 ∧ s.outMem = []))
  && decide (s.status.hdrValid = true → s.status.ftValid = true ∧
      s.hlen = (if s.nsym = 0 then 0 else headerLength s.nsym) ∧ (s.nsym = 0 → s.padBits = 0))
  && decide (s.status.wlValid = true → s.status.ftValid = true ∧ 1 ≤ s.nsym ∧
      s.node.take s.nsym = (s.ft.map fun e => .leaf e.sym e.cnt) ∧
      (∀ p ∈ s.node.zipIdx, nodeInPlace s p.1 p.2 = true) ∧
      (s.wl ++ s.node.flatMap Node.children).Perm (List.range s.nnodes) ∧ s.nnodes + s.wlLen = 2 * s.nsym ∧
      1 ≤ s.wlLen ∧ (s.wl.map s.weightOf).sum = totalCount s.ft ∧ (∀ n ∈ s.node, n.weight ≤ totalCount s.ft) ∧
      s.wl.Pairwise fun a b => s.weightOf a = s.weightOf b → a < b)
  && decide ((s.status.wlValid = true → (s.status.treeValid = true ↔ s.wlLen = 1)) ∧
      (s.status.treeValid = true → s.status.wlValid = true ∧ s.wl = [s.root]) ∧
      (s.status.ctValid = true → s.status.treeValid = true ∧ s.ct = s.codeTable) ∧
      (s.status.outValid = true → s.status.ftValid = true ∧ s.outMem.map Prod.fst = List.range s.outLen ∧
        s.outLen ≤ s.caps.outCap.val))

theorem inv_of_invOk {s : State} (h : invOk s = true) : StateInv s := by
  simp only [invOk, Bool.and_eq_true, decide_eq_true_eq] at h
  obtain ⟨⟨⟨⟨⟨⟨⟨⟨⟨inWf, inBound⟩, outWf⟩, registers⟩, arrays⟩, quiet⟩, flags⟩, header⟩, arena⟩, tree⟩ := h
  obtain ⟨outLen, nsym, padBits, bitLen, hlen, nnodes, root, wlLen, ctLen⟩ := registers
  obtain ⟨ft, node, wl, ct⟩ := arrays
  obtain ⟨noErr, code, info, nsymEq, nnodesEq, wlEq, ctEq⟩ := quiet
  obtain ⟨done, noTable, noList, noCodes, noOutput⟩ := flags
  obtain ⟨finished, treeOk, codes, output⟩ := tree
  have list : s.status.wlValid = true → s.status.ftValid = true ∧ ArenaOk s := fun hw =>
    let ⟨ftOk, seeded, leaves, inPlace, owned, counts, nonempty, total, bounded, ties⟩ := arena hw
    ⟨ftOk, ⟨seeded, leaves, inPlace, owned, counts, nonempty, total, bounded, ties⟩⟩
  refine ⟨inWf, inBound, outWf, ?_, fun he => ?_, fun _ => ?_⟩
  · exact ⟨outLen, nsym, padBits, bitLen, hlen, nnodes, root, wlLen, ctLen, ft, node, wl, ct⟩
  · simp [noErr] at he
  · exact ⟨code, info, nsymEq, nnodesEq, wlEq, ctEq, done, noTable, noList, noCodes, noOutput, header, list, finished,
      treeOk, codes, output⟩

/-- "AAB" counted; seeded; built; coded; encoded. -/
def counted : State := ran [.freq] (booted [0x41, 0x41, 0x42])
def seeded : State := ran [.freq, .seed] (booted [0x41, 0x41, 0x42])
def built : State := ran [.freq, .build] (booted [0x41, 0x41, 0x42])
def coded : State := ran [.freq, .build, .codegen] (booted [0x41, 0x41, 0x42])
def encoded : State := ran [.compress] (booted [0x41, 0x41, 0x42])

/-- A container of two symbols, A once and B once, whose payload is "AB" ("01"), parsed and its tree built. -/
def boxAB : List Byte := [0x01, 0x06, 0x41, 0x00, 0x01, 0x42, 0x00, 0x01, 0x40]
def parsedAB : State := ran [.hdrparse, .build] (booted boxAB)

/-- A container of one symbol, Z five times. -/
def boxZ : List Byte := [0x00, 0x00, 0x5A, 0x00, 0x05]
def parsedZ : State := ran [.hdrparse, .build] (booted boxZ)

/-- A state with ERR = 1. -/
def failed : State := wrote 0xC (booted [0x41, 0x41, 0x42])

theorem inv_booted : StateInv (booted [0x41, 0x41, 0x42]) := inv_of_invOk (by decide +kernel)
theorem inv_counted : StateInv counted := inv_of_invOk (by decide +kernel)
theorem inv_seeded : StateInv seeded := inv_of_invOk (by decide +kernel)
theorem inv_built : StateInv built := inv_of_invOk (by decide +kernel)
theorem inv_coded : StateInv coded := inv_of_invOk (by decide +kernel)
theorem inv_encoded : StateInv encoded := inv_of_invOk (by decide +kernel)
theorem inv_parsedAB : StateInv parsedAB := inv_of_invOk (by decide +kernel)
theorem inv_parsedZ : StateInv parsedZ := inv_of_invOk (by decide +kernel)

end Sys2Proof.Tests
end

