-- ==== Sys2Proof/Tests/Witnesses.lean ====
section
/-! SUPPORT. For every statement of Certificates/Slice0/Obligations.lean that has hypotheses, a concrete state and operands
that meet all of them together (a theorem `witness_<statement>`); for a statement of several clauses, one part per clause. -/

namespace Sys2Proof.Tests

open Sys2Proof Sys2Proof.Machine

/-- "AAB" in IN and the given accesses ahead. -/
def hosting (as : List HostAction) : State := { booted [0x41, 0x41, 0x42] with host := as }

/-- The next state of a command. -/
def after (i : Instr) (s : State) : State := landed (exec i s) s

/-- Every command that `run` runs answers the next state `after` names. -/
theorem after_of_run {i : Instr} {body : State → Except Cause State} (hi : ∀ s, exec i s = run body s) (s : State) :
    exec i s = .next (after i s) := by
  unfold after; rw [hi]; exact landed_run body s

theorem exec_freq (s : State) : exec .freq s = .next (after .freq s) := after_of_run (body := freqBody) (fun _ => rfl) s
theorem exec_merge (s : State) : exec .merge s = .next (after .merge s) := after_of_run (body := mergeBody) (fun _ => rfl) s
theorem exec_build (s : State) : exec .build s = .next (after .build s) := after_of_run (body := buildBody) (fun _ => rfl) s
theorem exec_codegen (s : State) : exec .codegen s = .next (after .codegen s) :=
  after_of_run (body := codegenBody) (fun _ => rfl) s
theorem exec_hdrparse (s : State) : exec .hdrparse s = .next (after .hdrparse s) :=
  after_of_run (body := hdrparseBody) (fun _ => rfl) s
theorem exec_encode (s : State) : exec .encode s = .next (after .encode s) :=
  after_of_run (body := encodeBody) (fun _ => rfl) s
theorem exec_decode (s : State) : exec .decode s = .next (after .decode s) :=
  after_of_run (body := decodeBody) (fun _ => rfl) s
theorem exec_compress (s : State) : exec .compress s = .next (after .compress s) :=
  after_of_run (body := compressBody) (fun _ => rfl) s
theorem exec_decompress (s : State) : exec .decompress s = .next (after .decompress s) :=
  after_of_run (body := decompressBody) (fun _ => rfl) s

/-- A stage program goes on from the state its first command reaches. -/
theorem execAll_after {i : Instr} {s : State} (is : List Instr) (h : exec i s = .next (after i s)) :
    execAll (i :: is) s = execAll is (after i s) := by
  rw [execAll, h]

/-- The body ends in the error e. -/
def failsWith (body : State → Except Cause State) (e : Cause) (s : State) : Bool :=
  match body s.fresh with
  | .ok _ => false
  | .error c => decide (c = e)

theorem raised_of_failsWith {i : Instr} {body : State → Except Cause State} (hi : ∀ s, exec i s = run body s) {s : State}
    {e : Cause} (hs : s.status.err = false) (h : failsWith body e s = true) : exec i s = .next (raise e s.fresh) := by
  rw [hi]
  unfold failsWith at h
  cases hb : body s.fresh with
  | ok t => simp [hb] at h
  | error c => rw [run_error hs hb]; simp_all

/-! ## Registers, accesses, steps -/

theorem witness_RegisterFileByNumber :
    (hosting [.writeReg 0 7]).host = .writeReg 0 7 :: [] ∧ decodeWord 7 = .ok .compress ∧
    (hosting [.writeReg 4 7]).host = .writeReg 4 7 :: [] ∧
    (3 ≠ 0 ∧ 3 ≠ 4 ∧ (hosting [.writeReg 3 7]).host = .writeReg 3 7 :: []) ∧
    (15 ≠ 0 ∧ 15 ≠ 4 ∧ (hosting [.writeReg 15 7]).host = .writeReg 15 7 :: []) ∧
    (hosting [.readReg 13]).host = .readReg 13 :: [] ∧ 14 ≤ 14 :=
  ⟨rfl, rfl, rfl, ⟨by decide, by decide, rfl⟩, ⟨by decide, by decide, rfl⟩, rfl, le_refl _⟩

theorem witness_StatusBits : 8 ≤ 8 := by decide

theorem witness_RegistersReadWithinTheirFields : StateInv encoded := inv_encoded

theorem witness_InputByteReadsAsWritten :
    (hosting [.writeIn 31 0x44]).host = .writeIn 31 0x44 :: [] ∧ 31 < (hosting [.writeIn 31 0x44]).caps.inCap.val ∧
    30 ≠ 31 := by decide

theorem witness_ReadsHaveNoSideEffect :
    (hosting [.readOut 31]).host = .readOut 31 :: [] ∧
    (∃ i, HostAction.readOut 31 ∈
      [.readReg i, .readIn i, .readOut i, .readFt i, .readNode i, .readWl i, .readCt i]) ∧
    step (hosting [.readOut 31]) = .next (landed (step (hosting [.readOut 31])) (hosting [])) :=
  ⟨rfl, ⟨31, by simp⟩, rfl⟩

/-- Each space at its last position, and a byte or entry that stands in each. -/
theorem witness_ReadsHaveNoSideEffect_values :
    (31 < (hosting [.readIn 31]).caps.inCap.val ∧ 31 < (hosting [.readOut 31]).caps.outCap.val ∧
      (hosting [.readFt 255]).host = .readFt 255 :: [] ∧ (hosting [.readNode 510]).host = .readNode 510 :: [] ∧
      (hosting [.readWl 255]).host = .readWl 255 :: [] ∧ (hosting [.readCt 255]).host = .readCt 255 :: []) ∧
    (encoded.inMem.read 2 = some 0x42 ∧ encoded.status.outValid = true ∧ 8 < encoded.outLen ∧
      encoded.outMem.read 8 = some 0xC0 ∧ encoded.ft[1]? = some ⟨0x42, 1⟩ ∧ encoded.node[0]? = some (.leaf 0x41 2) ∧
      encoded.wl[0]? = some 2 ∧ encoded.ct[0]? = some ⟨0x42, 1, 0⟩) := by decide +kernel

theorem witness_MovCopiesTheOutput :
    StateInv { encoded with host := [.mov] } ∧ ({ encoded with host := [.mov] } : State).host = .mov :: [] ∧
    ({ encoded with host := [.mov] } : State).outLen ≤ ({ encoded with host := [.mov] } : State).caps.inCap.val :=
  ⟨inv_of_invOk (by decide +kernel), rfl, by decide +kernel⟩

theorem witness_AccessOutsideTheSpacesStops :
    (hosting [.writeIn 32 0]).caps.inCap.val ≤ 32 ∧ (hosting [.readIn 32]).caps.inCap.val ≤ 32 ∧
    (hosting [.readOut 32]).caps.outCap.val ≤ 32 ∧ 256 ≤ 256 ∧ 511 ≤ 511 ∧
    ({ hosting [.mov] with outLen := 33 } : State).host = .mov :: [] ∧
    ({ hosting [.mov] with outLen := 33 } : State).caps.inCap.val < ({ hosting [.mov] with outLen := 33 } : State).outLen := by
  decide

theorem witness_StepRunsTheCommandWritten :
    ((hosting [.writeReg 0 7]).host = .writeReg 0 7 :: [] ∧ decodeWord 7 = .ok .compress) ∧
    ((hosting [.writeReg 0 0xC]).host = .writeReg 0 0xC :: [] ∧ decodeWord 0xC = .error (.reservedOp 0xC)) :=
  ⟨⟨rfl, rfl⟩, ⟨rfl, rfl⟩⟩

theorem witness_PlacedWordRunsAndEmptyListIdles :
    0xB < 2 ^ 32 ∧ decodeTableWord 32 0xB = some .merge ∧ 0xC < 2 ^ 32 ∧ decodeTableWord 32 0xC = none ∧
    (hosting []).host = [] := by decide

/-- The first reserved code, the first word above it, and a word whose low bits are a command's. -/
theorem witness_DecoderIsExact :
    (hosting [.writeReg 0 0xC]).host = .writeReg 0 0xC :: [] ∧ (hosting [.writeReg 0 0xC]).status.err = false ∧
    0xC ≤ (0xC : Word).toNat % 16 ∧ (0x10 : Word).toNat / 16 ≠ 0 ∧ (0x107 : Word).toNat / 16 ≠ 0 := by decide

theorem witness_OtherWordsAreIllegal :
    ((hosting [.writeReg 0 0xC]).host = .writeReg 0 0xC :: [] ∧ (hosting [.writeReg 0 0xC]).status.err = false) ∧
    (∀ i, (0xC : Word) ≠ encode i) ∧ ∀ i, (0x10 : Word) ≠ encode i :=
  ⟨⟨rfl, rfl⟩, fun i => by cases i <;> decide, fun i => by cases i <;> decide⟩

/-! ## Errors and control -/

theorem witness_NopSetsDoneOnly : (booted []).status.err = false ∧ failed.status.err = true := by decide

theorem witness_RefusedWhileErrorStands :
    ({ failed with host := [.writeReg 0 0xFFFFFFFF] } : State).host = .writeReg 0 0xFFFFFFFF :: [] ∧
    ({ failed with host := [.writeReg 0 0xFFFFFFFF] } : State).status.err = true ∧
    (0xFFFFFFFF : Word) ≠ 0x00000009#32 ∧ (0x7 : Word) ≠ 0x00000009#32 := ⟨rfl, rfl, by decide, by decide⟩

/-- ENCODE straight after reset has no code table. -/
theorem witness_ErrorEntry :
    (booted []).status.err = false ∧ exec .encode (booted []) = .next (after .encode (booted [])) ∧
    (after .encode (booted [])).status.err = true ∧
    SameInput (booted []) { booted [] with nsym := 5 } :=
  ⟨rfl, exec_encode _, by decide, ⟨rfl, rfl, rfl, rfl, rfl⟩⟩

theorem witness_ErrorsFollowTheTable :
    (booted [0x03]).status.err = false ∧ exec .decompress (booted [0x03]) = .next (after .decompress (booted [0x03])) ∧
    (after .decompress (booted [0x03])).status.err = true :=
  ⟨rfl, exec_decompress _, by decide +kernel⟩

/-- FREQ of an input longer than IN ends in an error, and the code is not 4. -/
theorem witness_SequencePreconditions_others :
    Instr.freq ∈ [Instr.freq, .hdrparse, .compress, .decompress, .nop, .clear] ∧
    (after .freq { booted [] with inLen := 33 }).status.err = true := by decide

theorem witness_SequencePreconditions :
    (booted []).status.err = false ∧ (booted []).status.ftValid = false ∧
    ¬ ((booted []).status.wlValid = true ∧ 2 ≤ (booted []).wlLen) ∧ (booted []).status.treeValid = false ∧
    ¬ ((booted []).status.ftValid = true ∧ (booted []).status.ctValid = true) ∧
    ¬ ((booted []).status.hdrValid = true ∧ (booted []).status.treeValid = true) := by decide

/-- MERGE on a finished tree; DECODE with IN_LEN below HLEN, and at HLEN with padding (E17). -/
theorem witness_SequencePreconditions_boundaries :
    ¬ (built.status.wlValid = true ∧ 2 ≤ built.wlLen) ∧ parsedAB.status.hdrValid = true ∧
    parsedAB.status.treeValid = true ∧ (7 < parsedAB.hlen ∧ 7 ≤ parsedAB.caps.inCap.val) ∧
    (8 = parsedAB.hlen ∧ parsedAB.padBits ≠ 0) := by decide +kernel

theorem witness_InputBeyondCapacity :
    ({ coded with inLen := 33 } : State).status.err = false ∧ coded.caps.inCap.val < (33 : Word).toNat ∧
    coded.status.ftValid = true ∧ coded.status.ctValid = true ∧ parsedAB.status.hdrValid = true ∧
    parsedAB.status.treeValid = true ∧ parsedAB.caps.inCap.val < (33 : Word).toNat ∧ parsedAB.status.err = false := by
  decide +kernel

/-! ## Whole-machine rules -/

theorem witness_DoneAfterEveryCommandButClear :
    StateInv (booted [0x41, 0x41, 0x42]) ∧ Instr.freq ≠ .clear ∧
    exec .freq (booted [0x41, 0x41, 0x42]) = .next (after .freq (booted [0x41, 0x41, 0x42])) :=
  ⟨inv_booted, by decide, exec_freq _⟩

theorem witness_NoCommandWritesTheInput : exec .encode coded = .next (after .encode coded) := exec_encode _

theorem witness_BuilderLeavesOutputAndTable :
    Instr.merge ∈ [Instr.nop, .seed, .merge, .build, .codegen] ∧ seeded.status.err = false ∧
    exec .merge seeded = .next (after .merge seeded) ∧ (after .merge seeded).status.err = false ∧
    Instr.codegen ∈ [Instr.nop, .codegen] ∧ Instr.merge ∈ [Instr.nop, .merge] :=
  ⟨by decide, by decide +kernel, exec_merge _, by decide +kernel, by decide, by decide⟩

theorem witness_EncodeAndDecodeLeaveTheArrays :
    (coded.status.err = false ∧ exec .encode coded = .next (after .encode coded) ∧
      (after .encode coded).status.err = false) ∧
    (parsedAB.status.err = false ∧ exec .decode parsedAB = .next (after .decode parsedAB) ∧
      (after .decode parsedAB).status.err = false) :=
  ⟨⟨by decide +kernel, exec_encode _, by decide +kernel⟩, ⟨by decide +kernel, exec_decode _, by decide +kernel⟩⟩

theorem witness_OutHoldsExactlyTheResult :
    Instr.compress ∈ [Instr.encode, .decode, .compress, .decompress] ∧
    (booted textV1).status.err = false ∧ exec .compress (booted textV1) = .next (after .compress (booted textV1)) ∧
    (after .compress (booted textV1)).status.err = false :=
  ⟨by decide, rfl, exec_compress _, by decide +kernel⟩

/-- A machine after reset and one with an old result, over the same input. -/
theorem witness_FreshCommandsForgetThePast :
    Instr.compress ∈ [Instr.freq, .hdrparse, .compress, .decompress] ∧
    (booted [0x41, 0x41, 0x42]).status.err = false ∧ encoded.status.err = false ∧
    (booted [0x41, 0x41, 0x42]).errCode = encoded.errCode ∧ (booted [0x41, 0x41, 0x42]).errInfo = encoded.errInfo ∧
    (booted [0x41, 0x41, 0x42]).caps = encoded.caps ∧ (booted [0x41, 0x41, 0x42]).input = encoded.input ∧
    (after .compress encoded).status.err = false := by decide +kernel

theorem witness_FlagImplications :
    StateInv coded ∧ coded.status.ctValid = true ∧ StateInv parsedAB ∧ parsedAB.status.hdrValid = true ∧
    built.status.treeValid = true :=
  ⟨inv_coded, by decide +kernel, inv_parsedAB, by decide +kernel, by decide +kernel⟩

theorem step_merge (s : State) :
    step { s with host := [.writeReg 0 0xB] } = .next (after .merge { s with host := [] }) :=
  exec_merge { s with host := [] }

theorem witness_EveryStepKeepsTheInvariant :
    StateInv { seeded with host := [.writeReg 0 0xB] } ∧
    step { seeded with host := [.writeReg 0 0xB] } = .next (after .merge { seeded with host := [] }) :=
  ⟨inv_of_invOk (by decide +kernel), step_merge _⟩

/-! ## FREQ -/

theorem count_le_length (x : List Byte) (h : x.length ≤ 65535) (b : Byte) : x.count b ≤ 65535 :=
  List.count_le_length.trans h

theorem witness_FreqCountsTheInput :
    (booted textV1).status.err = false ∧ (booted textV1).inLen.toNat ≤ (booted textV1).caps.inCap.val ∧
    ∀ b, (booted textV1).input.count b ≤ 65535 :=
  ⟨rfl, by decide, fun b => count_le_length _ (by decide) b⟩

/-- A machine after reset into whose IN the host has put `bytes`. -/
def loaded (caps : Caps) (bytes : List Byte) : State :=
  { State.resetWith caps with inMem := Memory.writeBytes 0 bytes [], inLen := BitVec.ofNat 32 bytes.length }

theorem input_loaded (caps : Caps) (bytes : List Byte) (h : bytes.length < 2 ^ 32) :
    (loaded caps bytes).input = bytes := by
  have hl : (loaded caps bytes).inLen.toNat = bytes.length := by
    show (BitVec.ofNat 32 bytes.length).toNat = _
    rw [BitVec.toNat_ofNat, Nat.mod_eq_of_lt h]
  refine List.ext_getElem (by rw [input_length, hl]) fun i h1 h2 => ?_
  have hr : (loaded caps bytes).inMem.read i = some bytes[i] := by
    simpa [loaded, h2] using Memory.writeBytes_read_inside bytes 0 i [] h2
  simp [State.input, State.memReadIn, hr]

theorem overflow_premises (s : State) (n : Nat) (hn : n = 65535)
    (hs : s = loaded ⟨⟨65536, by decide⟩, ⟨32, by decide⟩⟩ (List.replicate (n + 1) 0x5A)) :
    s.status.err = false ∧ s.inLen.toNat ≤ s.caps.inCap.val ∧ s.input[n]? = some 0x5A ∧
    (s.input.take n).count 0x5A = 65535 ∧ ∀ c, (s.input.take n).count c ≤ 65535 := by
  have hi : s.input = List.replicate (n + 1) 0x5A := by rw [hs, input_loaded]; simp; omega
  refine ⟨by rw [hs]; rfl, ?_, by rw [hi]; simp, ?_, fun c => ?_⟩
  · rw [← input_length, hi, hs, List.length_replicate]; show n + 1 ≤ 65536; omega
  · rw [hi, List.take_replicate, List.count_replicate_self]; omega
  · exact List.count_le_length.trans (by rw [hi, List.take_replicate, List.length_replicate]; omega)

/-- 65536 times the byte Z, in an IN of 65536 bytes. -/
theorem witness_FreqOverflow : ∃ s : State,
    s.status.err = false ∧ s.inLen.toNat ≤ s.caps.inCap.val ∧ s.input[65535]? = some 0x5A ∧
    (s.input.take 65535).count 0x5A = 65535 ∧ ∀ c, (s.input.take 65535).count c ≤ 65535 :=
  ⟨_, overflow_premises _ 65535 rfl rfl⟩

/-! ## The builder and the code table -/

theorem witness_SeedPlantsTheLeaves :
    (counted.status.err = false ∧ counted.status.ftValid = true ∧ 1 ≤ counted.nsym) ∧
    ((booted []).status.err = false ∧ (booted []).status.ftValid = false) ∧
    ((ran [.freq] (booted [])).status.err = false ∧ (ran [.freq] (booted [])).status.ftValid = true ∧
      (ran [.freq] (booted [])).nsym = 0) := by decide +kernel

theorem witness_MergeJoinsTheTwoLightest :
    ((booted []).status.err = false ∧ ¬ ((booted []).status.wlValid = true ∧ 2 ≤ (booted []).wlLen)) ∧
    seeded.status.err = false ∧ seeded.status.wlValid = true ∧ 2 ≤ seeded.wlLen ∧
    ssort seeded.weightOf seeded.wl = 1 :: 0 :: [] ∧ ∀ k ∈ seeded.wl, k < seeded.node.length := by decide +kernel

theorem witness_MergeTakesThePriorityPair :
    StateInv seeded ∧ seeded.status.err = false ∧ seeded.status.wlValid = true ∧ 2 ≤ seeded.wlLen :=
  ⟨inv_seeded, by decide +kernel⟩

theorem witness_BuildMakesTheTree :
    StateInv counted ∧ counted.status.err = false ∧ counted.status.ftValid = true ∧ 1 ≤ counted.nsym :=
  ⟨inv_counted, by decide +kernel⟩

theorem witness_BuildIsSeedThenMerges :
    (StateInv counted ∧ counted.status.err = false ∧ counted.status.ftValid = true ∧ 1 ≤ counted.nsym) ∧
    (StateInv (booted [0x41, 0x41, 0x42]) ∧ (booted [0x41, 0x41, 0x42]).status.ftValid = false) ∧
    (StateInv (ran [.freq] (booted [])) ∧ (ran [.freq] (booted [])).status.ftValid = true ∧
      (ran [.freq] (booted [])).nsym = 0) :=
  ⟨witness_BuildMakesTheTree, ⟨inv_booted, rfl⟩, inv_of_invOk (by decide +kernel), by decide, by decide⟩

theorem witness_TreeDependsOnTheTableAlone :
    StateInv counted ∧ counted.status.err = false ∧ exec .build counted = .next (after .build counted) ∧
    (after .build counted).status.err = false :=
  ⟨inv_counted, by decide +kernel, exec_build _, by decide +kernel⟩

theorem witness_CodegenTableLaws :
    (StateInv built ∧ built.status.err = false ∧ built.status.treeValid = true ∧ 2 ≤ built.nsym) ∧
    (StateInv parsedZ ∧ parsedZ.status.err = false ∧ parsedZ.status.treeValid = true ∧ parsedZ.nsym = 1) :=
  ⟨⟨inv_built, by decide +kernel⟩, inv_parsedZ, by decide +kernel⟩

/-! ## The encoder -/

theorem witness_EncodeWritesTheContainer :
    coded.status.err = false ∧ coded.status.ftValid = true ∧ coded.status.ctValid = true ∧
    coded.inLen.toNat ≤ coded.caps.inCap.val ∧ (∀ b ∈ coded.input, (codeOf coded.ct b).isSome = true) ∧
    coded.nsym = coded.ft.length ∧
    headerLength coded.nsym + payloadLength (coded.input.flatMap (codeBits coded.ct)).length ≤ coded.caps.outCap.val := by
  decide +kernel

/-- "AAC" under the table of "AAB": the third byte has no code. -/
def stale : State := { coded with inMem := Memory.writeBytes 0 [0x41, 0x41, 0x43] [] }

theorem witness_EncodeErrors :
    (coded.caps.inCap.val < ({ coded with inLen := 33 } : State).inLen.toNat) ∧
    (stale.status.err = false ∧ stale.status.ftValid = true ∧ stale.status.ctValid = true ∧
      stale.inLen.toNat ≤ stale.caps.inCap.val ∧ stale.input[2]? = some 0x43 ∧ codeOf stale.ct 0x43 = none ∧
      (∀ b ∈ stale.input.take 2, codeOf stale.ct b ≠ none)) ∧
    ((∀ b ∈ coded.input, codeOf coded.ct b ≠ none) ∧
      8 < headerLength coded.nsym + payloadLength (coded.input.flatMap (codeBits coded.ct)).length) := by
  decide +kernel

theorem witness_BitLengthIsTheSumOfCodeLengths :
    StateInv coded ∧ coded.status.err = false ∧ exec .encode coded = .next (after .encode coded) ∧
    (after .encode coded).status.err = false ∧ coded.ft = freqTable coded.input :=
  ⟨inv_coded, by decide +kernel, exec_encode _, by decide +kernel, by decide +kernel⟩

theorem witness_EmptyInputAndContainer :
    ((booted []).status.err = false ∧ (booted []).inLen = 0) ∧
    ((booted [0x03]).status.err = false ∧ (booted [0x03]).inLen = 1 ∧ 1 ≤ (booted [0x03]).caps.inCap.val) := by decide

theorem witness_SingleSymbolContainer :
    (booted [0x5A, 0x5A]).status.err = false ∧ (booted [0x5A, 0x5A]).inLen.toNat ≤ (booted [0x5A, 0x5A]).caps.inCap.val ∧
    1 ≤ (booted [0x5A, 0x5A]).inLen.toNat ∧ (booted [0x5A, 0x5A]).inLen.toNat ≤ 65535 ∧
    (booted [0x5A, 0x5A]).input = List.replicate (booted [0x5A, 0x5A]).inLen.toNat 0x5A ∧
    5 ≤ (booted [0x5A, 0x5A]).caps.outCap.val := by decide

theorem witness_CompressWritesTheContainer :
    (booted textV1).status.err = false ∧ (booted textV1).inLen.toNat ≤ (booted textV1).caps.inCap.val ∧
    (∀ b, (booted textV1).input.count b ≤ 65535) ∧
    (containerOf (booted textV1).input).length ≤ (booted textV1).caps.outCap.val ∧ (booted textV1).inLen.toNat ≠ 0 :=
  ⟨rfl, by decide, fun b => count_le_length _ (by decide) b, by decide +kernel, by decide⟩

theorem witness_OutputLengths :
    (StateInv coded ∧ coded.status.err = false ∧ exec .encode coded = .next (after .encode coded) ∧
      (after .encode coded).status.err = false) ∧
    (StateInv parsedAB ∧ parsedAB.status.err = false ∧ exec .decode parsedAB = .next (after .decode parsedAB) ∧
      (after .decode parsedAB).status.err = false ∧ 2 ≤ (after .decode parsedAB).nsym) ∧
    (StateInv parsedZ ∧ (after .decode parsedZ).status.err = false ∧ (after .decode parsedZ).nsym = 1) :=
  ⟨⟨inv_coded, by decide +kernel, exec_encode _, by decide +kernel⟩,
    ⟨inv_parsedAB, by decide +kernel, exec_decode _, by decide +kernel, by decide +kernel⟩,
    ⟨inv_parsedZ, by decide +kernel, by decide +kernel⟩⟩

/-- OUT as large as each bound of R96 asks: for COMPRESS; for DECODE of two leaves and of one; for DECOMPRESS of both. -/
theorem witness_OutputLengths_sized :
    (StateInv State.reset ∧ State.reset.status.err = false ∧ Instr.compress ∈ [Instr.encode, .compress] ∧
      770 + (255 * State.reset.inLen.toNat + 7) / 8 ≤ State.reset.caps.outCap.val) ∧
    (StateInv parsedAB ∧ parsedAB.nsym = 2 ∧ 8 * (parsedAB.inLen.toNat - parsedAB.hlen) ≤ parsedAB.caps.outCap.val) ∧
    (StateInv { parsedZ with caps := ⟨⟨32, by decide⟩, ⟨65535, by decide⟩⟩ } ∧ parsedZ.nsym = 1) ∧
    (2 = ((booted boxAB).memReadIn 0).toNat + 1 ∧
      8 * ((booted boxAB).inLen.toNat - headerLength 2) ≤ (booted boxAB).caps.outCap.val) ∧
    1 = ((booted boxZ).memReadIn 0).toNat + 1 :=
  ⟨⟨inv_of_invOk (by decide +kernel), rfl, by decide, by decide +kernel⟩, ⟨inv_parsedAB, by decide +kernel⟩,
    ⟨inv_of_invOk (by decide +kernel), by decide +kernel⟩, by decide +kernel⟩

theorem witness_CompressIsTheStageProgram :
    ((booted textV1).status.err = false ∧ exec .compress (booted textV1) = .next (after .compress (booted textV1)) ∧
      (after .compress (booted textV1)).status.err = false ∧ 1 ≤ (after .compress (booted textV1)).nsym) ∧
    (exec .compress (booted []) = .next (after .compress (booted [])) ∧
      (after .compress (booted [])).status.err = false ∧ (after .compress (booted [])).nsym = 0) :=
  ⟨⟨rfl, exec_compress _, by decide +kernel, by decide +kernel⟩, ⟨exec_compress _, by decide +kernel, by decide +kernel⟩⟩

/-- V1's input, and an OUT of 16 bytes, one too small (V16). -/
def tooSmall : State := { booted textV1 with caps := ⟨⟨32, by decide⟩, ⟨16, by decide⟩⟩ }

/-- The stage program before ENCODE. -/
def tooSmallCoded : State := after .codegen (after .build (after .freq tooSmall))

/-- FREQ fails with Capacity(1); COMPRESS fails at ENCODE with Capacity(2). -/
theorem witness_CompressIsTheStageProgram_errors :
    exec .freq { booted [] with inLen := 33 } = .next (raise .capacityIn ({ booted [] with inLen := 33 } : State).fresh) ∧
    (tooSmall.status.err = false ∧ exec .compress tooSmall = .next (after .compress tooSmall) ∧
      (after .compress tooSmall).status.err = true) ∧
    (execAll [.freq, .build, .codegen] tooSmall = .next tooSmallCoded ∧ tooSmallCoded.status.err = false ∧
      exec .encode tooSmallCoded = .next (raise .capacityOut tooSmallCoded.fresh)) ∧
    (tooSmall.inLen.toNat ≤ tooSmall.caps.inCap.val ∧ (∀ b, tooSmall.input.count b ≤ 65535) ∧
      tooSmall.caps.outCap.val < (containerOf tooSmall.input).length) :=
  ⟨raised_of_failsWith (body := freqBody) (fun _ => rfl) rfl (by decide),
    ⟨rfl, exec_compress _, by decide +kernel⟩,
    ⟨((execAll_after _ (exec_freq _)).trans (execAll_after _ (exec_build _))).trans (execAll_after _ (exec_codegen _)), by decide +kernel,
      raised_of_failsWith (body := encodeBody) (fun _ => rfl) (by decide +kernel) (by decide +kernel)⟩,
    by decide +kernel, fun b => count_le_length _ (by decide +kernel) b, by decide +kernel⟩

/-! ## The decoder -/

/-- Each clause of R210 at its boundary: no byte, one byte, a header one byte short, padding 8, padding without payload,
and a header with its payload. -/
theorem witness_HdrparseReadsTheHeader :
    ({ booted [] with inLen := 33 } : State).caps.inCap.val < ({ booted [] with inLen := 33 } : State).inLen.toNat ∧
    (booted []).inLen.toNat = 0 ∧ (booted [0x03]).inLen.toNat = 1 ∧
    (2 ≤ (booted (boxAB.take 7)).inLen.toNat ∧
      (booted (boxAB.take 7)).inLen.toNat < 2 + 3 * (((booted (boxAB.take 7)).memReadIn 0).toNat + 1)) ∧
    (2 + 3 * (((booted (boxAB.set 1 8)).memReadIn 0).toNat + 1) ≤ (booted (boxAB.set 1 8)).inLen.toNat ∧
      7 < ((booted (boxAB.set 1 8)).memReadIn 1).toNat) ∧
    (((booted (boxAB.take 8)).memReadIn 1).toNat ≤ 7 ∧
      (booted (boxAB.take 8)).inLen.toNat = 2 + 3 * (((booted (boxAB.take 8)).memReadIn 0).toNat + 1) ∧
      ((booted (boxAB.take 8)).memReadIn 1).toNat ≠ 0) ∧
    (((booted boxAB).memReadIn 1).toNat ≤ 7 ∧
      ((booted boxAB).inLen.toNat = 2 + 3 * (((booted boxAB).memReadIn 0).toNat + 1) →
        ((booted boxAB).memReadIn 1).toNat = 0)) := by decide +kernel

theorem witness_HeaderRoundTrip :
    (booted boxAB).status.err = false ∧ (booted boxAB).inLen.toNat ≤ (booted boxAB).caps.inCap.val ∧
    (booted boxAB).input = headerBytes 2 6 [⟨0x41, 1⟩, ⟨0x42, 1⟩] ++ [0x40] ∧
    (∀ e ∈ [(⟨0x41, 1⟩ : FtEntry), ⟨0x42, 1⟩], e.cnt ≤ 65535) ∧ (([0x40] : List Byte) = [] → 6 = 0) := by decide +kernel

theorem witness_DecodeInvertsTheCodes :
    StateInv parsedAB ∧ parsedAB.status.err = false ∧ parsedAB.status.hdrValid = true ∧
    parsedAB.status.treeValid = true ∧ 2 ≤ parsedAB.nsym ∧ parsedAB.inLen.toNat ≤ parsedAB.caps.inCap.val ∧
    parsedAB.hlen ≤ parsedAB.inLen.toNat ∧ (parsedAB.inLen.toNat = parsedAB.hlen → parsedAB.padBits = 0) ∧
    (∀ c ∈ [(⟨0x41, 1, 0⟩ : CodeTuple), ⟨0x42, 1, 1⟩], c ∈ parsedAB.codeTable) ∧
    parsedAB.stream = [(⟨0x41, 1, 0⟩ : CodeTuple), ⟨0x42, 1, 1⟩].flatMap CodeTuple.bits ∧ 2 ≤ parsedAB.caps.outCap.val :=
  ⟨inv_parsedAB, by decide +kernel⟩

/-- The same container over an OUT of one byte: Capacity(2). -/
theorem witness_DecodeInvertsTheCodes_capacity :
    StateInv { parsedAB with caps := ⟨⟨32, by decide⟩, ⟨1, by decide⟩⟩ } ∧ 1 < [(⟨0x41, 1, 0⟩ : CodeTuple), ⟨0x42, 1, 1⟩].length :=
  ⟨inv_of_invOk (by decide +kernel), by decide⟩

/-- The container X11, cut by one byte: its 11 bits end inside a code (X11's outcome is Format(4)). -/
def parsedX11 : State := ran [.hdrparse, .build] (booted (boxV1.take 16))

theorem bits_of_table {s : State} {c : CodeTuple} {l : List (List Bool)}
    (hl : s.codeTable.map CodeTuple.bits = l) (h : c ∈ s.codeTable) : c.bits ∈ l := hl ▸ List.mem_map_of_mem h

theorem witness_DecodeInvertsTheCodes_midCode :
    StateInv parsedX11 ∧ parsedX11.status.err = false ∧ parsedX11.status.hdrValid = true ∧
    parsedX11.status.treeValid = true ∧ 2 ≤ parsedX11.nsym ∧ parsedX11.hlen ≤ parsedX11.inLen.toNat ∧
    parsedX11.stream = [false, false, false, false, true, false, true, false, true, false, true] ∧
    parsedX11.codeTable.map CodeTuple.bits = [[false], [true, false], [true, true, false], [true, true, true]] ∧
    parsedX11.stream.length ≤ parsedX11.caps.outCap.val :=
  ⟨inv_of_invOk (by decide +kernel), by decide +kernel⟩

/-- The tuples of its table for A and B; of its 11 bits, the codes of "AAAABBB" and the cut "1". -/
def tupleA : CodeTuple := ⟨0x41, 1, 0⟩
def tupleB : CodeTuple := ⟨0x42, 2, 2⟩

theorem witness_DecodeInvertsTheCodes_cut :
    (∀ d ∈ [tupleA, tupleA, tupleA, tupleA, tupleB, tupleB, tupleB], d ∈ parsedX11.codeTable) ∧
    parsedX11.stream = [tupleA, tupleA, tupleA, tupleA, tupleB, tupleB, tupleB].flatMap CodeTuple.bits ++ [true] ∧
    tupleB ∈ parsedX11.codeTable ∧ [true] <+: tupleB.bits ∧ [true] ≠ tupleB.bits ∧ 7 ≤ parsedX11.caps.outCap.val := by
  decide +kernel

/-- The same over an OUT of six bytes: Capacity(2) before the cut is met. -/
theorem witness_DecodeInvertsTheCodes_cut_capacity :
    StateInv { parsedX11 with caps := ⟨⟨32, by decide⟩, ⟨6, by decide⟩⟩ } := inv_of_invOk (by decide +kernel)

/-- That stream is no sequence of codes: a code that starts it is "0" four times, then "10" three times, and no code is the
"1" that is left. -/
theorem witness_DecodeInvertsTheCodes_noCodes :
    ¬ ∃ cs : List CodeTuple, (∀ c ∈ cs, c ∈ parsedX11.codeTable) ∧ parsedX11.stream = cs.flatMap CodeTuple.bits := by
  obtain ⟨-, -, -, -, -, -, hs, ht, -⟩ := witness_DecodeInvertsTheCodes_midCode
  rintro ⟨cs, hc, h⟩
  rw [hs] at h
  have hb : ∀ c ∈ cs, c.bits = [false] ∨ c.bits = [true, false] ∨ c.bits = [true, true, false] ∨
      c.bits = [true, true, true] := fun c hm => by simpa using bits_of_table ht (hc c hm)
  have peel : ∀ (ds : List CodeTuple) (r : List Bool), (∀ c ∈ ds, c.bits = [false] ∨ c.bits = [true, false] ∨
      c.bits = [true, true, false] ∨ c.bits = [true, true, true]) → r = ds.flatMap CodeTuple.bits → r ≠ [] →
      ∃ d ds', ds = d :: ds' ∧ r = d.bits ++ ds'.flatMap CodeTuple.bits := by
    intro ds r _ hr hne
    cases ds with
    | nil => exact absurd (by simpa using hr) hne
    | cons d ds' => exact ⟨d, ds', rfl, by simpa using hr⟩
  have zero : ∀ (ds : List CodeTuple) (r : List Bool), (∀ c ∈ ds, c.bits = [false] ∨ c.bits = [true, false] ∨
      c.bits = [true, true, false] ∨ c.bits = [true, true, true]) → false :: r = ds.flatMap CodeTuple.bits →
      ∃ es : List CodeTuple, (∀ c ∈ es, c.bits = [false] ∨ c.bits = [true, false] ∨ c.bits = [true, true, false] ∨
        c.bits = [true, true, true]) ∧ r = es.flatMap CodeTuple.bits := by
    intro ds r hd hr
    obtain ⟨d, ds', rfl, he⟩ := peel ds _ hd hr (by simp)
    refine ⟨ds', fun c hm => hd c (by simp [hm]), ?_⟩
    rcases hd d (by simp) with h | h | h | h <;> first | (exfalso; simp [h] at he; done) | simpa [h] using he
  have one : ∀ (ds : List CodeTuple) (r : List Bool), (∀ c ∈ ds, c.bits = [false] ∨ c.bits = [true, false] ∨
      c.bits = [true, true, false] ∨ c.bits = [true, true, true]) → true :: false :: r = ds.flatMap CodeTuple.bits →
      ∃ es : List CodeTuple, (∀ c ∈ es, c.bits = [false] ∨ c.bits = [true, false] ∨ c.bits = [true, true, false] ∨
        c.bits = [true, true, true]) ∧ r = es.flatMap CodeTuple.bits := by
    intro ds r hd hr
    obtain ⟨d, ds', rfl, he⟩ := peel ds _ hd hr (by simp)
    refine ⟨ds', fun c hm => hd c (by simp [hm]), ?_⟩
    rcases hd d (by simp) with h | h | h | h <;> first | (exfalso; simp [h] at he; done) | simpa [h] using he
  obtain ⟨c1, h1, e1⟩ := zero _ _ hb h
  obtain ⟨c2, h2, e2⟩ := zero _ _ h1 e1
  obtain ⟨c3, h3, e3⟩ := zero _ _ h2 e2
  obtain ⟨c4, h4, e4⟩ := zero _ _ h3 e3
  obtain ⟨c5, h5, e5⟩ := one _ _ h4 e4
  obtain ⟨c6, h6, e6⟩ := one _ _ h5 e5
  obtain ⟨c7, h7, e7⟩ := one _ _ h6 e6
  obtain ⟨d, ds', rfl, he⟩ := peel _ _ h7 e7 (by simp)
  rcases h7 d (by simp) with h | h | h | h <;> simp [h] at he

theorem witness_StreamIsThePayloadBits : parsedAB.hlen ≤ parsedAB.inLen.toNat := by decide +kernel

theorem witness_DecodeSingleLeaf :
    (StateInv parsedZ ∧ parsedZ.status.err = false ∧ parsedZ.status.hdrValid = true ∧ parsedZ.status.treeValid = true ∧
      parsedZ.inLen.toNat ≤ parsedZ.caps.inCap.val ∧ parsedZ.hlen ≤ parsedZ.inLen.toNat ∧
      (parsedZ.inLen.toNat = parsedZ.hlen → parsedZ.padBits = 0)) ∧
    parsedZ.nodeAt parsedZ.root = .leaf 0x5A 5 ∧ 8 * (parsedZ.inLen.toNat - parsedZ.hlen) - parsedZ.padBits = 0 ∧
    5 ≤ parsedZ.caps.outCap.val :=
  ⟨⟨inv_parsedZ, by decide +kernel⟩, by decide +kernel⟩

/-- The other clauses: payload bits (X16), and an OUT of 4 bytes (X23). -/
theorem witness_DecodeSingleLeaf_errors :
    (StateInv (ran [.hdrparse, .build] (booted (boxZ ++ [0x80]))) ∧
      8 * ((ran [.hdrparse, .build] (booted (boxZ ++ [0x80]))).inLen.toNat -
        (ran [.hdrparse, .build] (booted (boxZ ++ [0x80]))).hlen) -
        (ran [.hdrparse, .build] (booted (boxZ ++ [0x80]))).padBits ≠ 0) ∧
    (StateInv { parsedZ with caps := ⟨⟨32, by decide⟩, ⟨4, by decide⟩⟩ } ∧ 4 < 5) :=
  ⟨⟨inv_of_invOk (by decide +kernel), by decide +kernel⟩, ⟨inv_of_invOk (by decide +kernel), by decide⟩⟩

theorem witness_DecompressDecodesContainers :
    ((booted boxAB).status.err = false ∧ (booted boxAB).inLen.toNat ≤ (booted boxAB).caps.inCap.val ∧
      (booted boxAB).input = headerBytes 2 6 [⟨0x41, 1⟩, ⟨0x42, 1⟩] ++ [0x40] ∧
      (∀ e ∈ [(⟨0x41, 1⟩ : FtEntry), ⟨0x42, 1⟩], e.cnt ≤ 65535) ∧
      (∀ c ∈ [(⟨0x41, 1, 0⟩ : CodeTuple), ⟨0x42, 1, 1⟩], c ∈ codesOf [⟨0x41, 1⟩, ⟨0x42, 1⟩]) ∧
      (([0x40] : List Byte).flatMap byteBits).take (8 * 1 - 6) =
        [(⟨0x41, 1, 0⟩ : CodeTuple), ⟨0x42, 1, 1⟩].flatMap CodeTuple.bits) ∧
    ((booted boxZ).input = headerBytes 1 0 [⟨0x5A, 5⟩] ++ [] ∧ 5 ≤ (booted boxZ).caps.outCap.val) := by decide +kernel

/-- The same containers over an OUT one byte too small. -/
theorem witness_DecompressDecodesContainers_capacity :
    ({ booted boxAB with caps := ⟨⟨32, by decide⟩, ⟨1, by decide⟩⟩ } : State).input = (booted boxAB).input ∧ 1 < 2 ∧
    ({ booted boxZ with caps := ⟨⟨32, by decide⟩, ⟨4, by decide⟩⟩ } : State).input = (booted boxZ).input ∧ 4 < 5 := by
  decide +kernel

/-- X4: a cut header. X11: HDRPARSE and BUILD succeed and DECODE is Format(4). -/
theorem witness_DecompressIsTheStageProgram_errors :
    exec .hdrparse (booted (boxV1.take 13)) = .next (raise .formatTruncated (booted (boxV1.take 13)).fresh) ∧
    ((booted (boxV1.take 16)).status.err = false ∧
      exec .decompress (booted (boxV1.take 16)) = .next (after .decompress (booted (boxV1.take 16))) ∧
      (after .decompress (booted (boxV1.take 16))).status.err = true) ∧
    (execAll [.hdrparse, .build] (booted (boxV1.take 16)) =
        .next (after .build (after .hdrparse (booted (boxV1.take 16)))) ∧
      exec .decode (after .build (after .hdrparse (booted (boxV1.take 16)))) =
        .next (raise .formatMidCode (after .build (after .hdrparse (booted (boxV1.take 16)))).fresh)) :=
  ⟨raised_of_failsWith (body := hdrparseBody) (fun _ => rfl) rfl (by decide +kernel),
    ⟨rfl, exec_decompress _, by decide +kernel⟩,
    (execAll_after _ (exec_hdrparse _)).trans (execAll_after _ (exec_build _)),
    raised_of_failsWith (body := decodeBody) (fun _ => rfl) (by decide +kernel) (by decide +kernel)⟩

theorem witness_DecompressIsTheStageProgram :
    ((booted boxAB).status.err = false ∧ exec .decompress (booted boxAB) = .next (after .decompress (booted boxAB)) ∧
      (after .decompress (booted boxAB)).status.err = false ∧ 1 ≤ (after .decompress (booted boxAB)).nsym) ∧
    (exec .decompress (booted []) = .next (after .decompress (booted [])) ∧
      (after .decompress (booted [])).status.err = false ∧ (after .decompress (booted [])).nsym = 0) :=
  ⟨⟨rfl, exec_decompress _, by decide +kernel, by decide +kernel⟩, ⟨exec_decompress _, by decide +kernel, by decide +kernel⟩⟩

/-- "AAB" over an OUT of 1000 bytes. -/
theorem witness_CompressMovDecompressIsTheIdentity :
    ({ booted [0x41, 0x41, 0x42] with caps := ⟨⟨32, by decide⟩, ⟨1000, by decide⟩⟩ } : State).status.err = false ∧
    ({ booted [0x41, 0x41, 0x42] with caps := ⟨⟨32, by decide⟩, ⟨1000, by decide⟩⟩ } : State).inLen.toNat ≤ 32 ∧
    (∀ b, ({ booted [0x41, 0x41, 0x42] with caps := ⟨⟨32, by decide⟩, ⟨1000, by decide⟩⟩ } : State).input.count b
      ≤ 65535) ∧
    770 + (255 * (booted [0x41, 0x41, 0x42]).inLen.toNat + 7) / 8 ≤ 1000 ∧
    (containerOf (booted [0x41, 0x41, 0x42]).input).length ≤ 32 :=
  ⟨rfl, by decide, fun b => count_le_length _ (by decide) b, by decide, by decide +kernel⟩

/-- Two machines over one input, after reset and with an old result; and a container to parse. -/
theorem witness_SourceInvariantsAndPropertiesHold :
    (exec .compress (booted [0x41, 0x41, 0x42]) = .next (after .compress (booted [0x41, 0x41, 0x42])) ∧
      (after .compress (booted [0x41, 0x41, 0x42])).status.err = false) ∧
    (exec .compress encoded = .next (after .compress encoded) ∧ (after .compress encoded).status.err = false ∧
      (booted [0x41, 0x41, 0x42]).input = encoded.input) ∧
    (exec .hdrparse (booted boxAB) = .next (after .hdrparse (booted boxAB)) ∧
      (after .hdrparse (booted boxAB)).status.err = false ∧ (booted boxAB).inLen ≠ 0) :=
  ⟨⟨exec_compress _, by decide +kernel⟩, ⟨exec_compress _, by decide +kernel⟩, exec_hdrparse _, by decide +kernel⟩

end Sys2Proof.Tests
end

/-! ## `ssort` is the stable ascending sort by weight (R12)

Existence: `ssort` is Mathlib's insertion sort along "not heavier than", whose order and stability the library proves.
Uniqueness: an ascending list is determined by its sublists of equal weight. -/

namespace Sys2Proof.Machine

/-- `a` is not heavier than `b`: the relation `ssort` sorts by. -/
abbrev NotHeavier (w : Nat → Nat) (a b : Nat) : Prop := w a ≤ w b

theorem insertByWeight_eq_orderedInsert (w : Nat → Nat) (x : Nat) (ys : List Nat) :
    insertByWeight w x ys = ys.orderedInsert (NotHeavier w) x := by
  induction ys with
  | nil => rfl
  | cons y ys ih => rw [insertByWeight, List.orderedInsert_cons, ih]

theorem ssort_eq_insertionSort (w : Nat → Nat) (xs : List Nat) : ssort w xs = xs.insertionSort (NotHeavier w) := by
  induction xs with
  | nil => rfl
  | cons x xs ih => rw [ssort, List.insertionSort_cons, ih, insertByWeight_eq_orderedInsert]

theorem ssort_pairwise (w : Nat → Nat) (xs : List Nat) : (ssort w xs).Pairwise (NotHeavier w) := by
  have : Std.Total (NotHeavier w) := ⟨fun _ _ => Nat.le_total _ _⟩
  have : IsTrans Nat (NotHeavier w) := ⟨fun _ _ _ => Nat.le_trans⟩
  rw [ssort_eq_insertionSort]
  exact List.pairwise_insertionSort _ xs

theorem filter_weight_pairwise (w : Nat → Nat) (v : Nat) (xs : List Nat) :
    (xs.filter (w · == v)).Pairwise (NotHeavier w) := by
  refine List.pairwise_of_forall_mem_list fun a ha b hb => ?_
  simp only [List.mem_filter, beq_iff_eq] at ha hb
  exact (ha.2.trans hb.2.symm).le

/-- Stability: the elements of weight `v` stand ascending in `xs`, so the sort keeps them as a sublist; and there are no
others of that weight. -/
theorem filter_weight_ssort (w : Nat → Nat) (v : Nat) (xs : List Nat) :
    (ssort w xs).filter (w · == v) = xs.filter (w · == v) := by
  have hsub : (xs.filter (w · == v)).Sublist (ssort w xs) := by
    rw [ssort_eq_insertionSort]
    exact List.sublist_insertionSort (filter_weight_pairwise w v xs) List.filter_sublist
  have hsub' : (xs.filter (w · == v)).Sublist ((ssort w xs).filter (w · == v)) := by
    simpa using hsub.filter (w · == v)
  exact (hsub'.eq_of_length ((ssort_perm w xs).filter _).length_eq.symm).symm

/-- Lists with the same elements of each weight have the same elements. -/
theorem mem_of_filter_weight_eq {w : Nat → Nat} {ys zs : List Nat}
    (h : ∀ v, ys.filter (w · == v) = zs.filter (w · == v)) {a : Nat} (ha : a ∈ ys) : a ∈ zs := by
  have : a ∈ zs.filter (w · == w a) := h (w a) ▸ List.mem_filter.2 ⟨ha, by simp⟩
  exact List.mem_of_mem_filter this

/-- The head of an ascending list is not heavier than any of its elements. -/
theorem head_le_of_mem {w : Nat → Nat} {a b : Nat} {l : List Nat} (hl : (a :: l).Pairwise (NotHeavier w))
    (hb : b ∈ a :: l) : w a ≤ w b := by
  obtain rfl | hb := List.mem_cons.1 hb
  · exact Nat.le_refl _
  · exact List.rel_of_pairwise_cons hl hb

/-- Uniqueness: the heads of two such lists are the lightest of the same elements, so they weigh the same, and among the
elements of that weight both come first. -/
theorem eq_of_pairwise_of_filter_weight_eq {w : Nat → Nat} {ys zs : List Nat} (hys : ys.Pairwise (NotHeavier w))
    (hzs : zs.Pairwise (NotHeavier w)) (h : ∀ v, ys.filter (w · == v) = zs.filter (w · == v)) : ys = zs := by
  induction ys generalizing zs with
  | nil => exact (List.eq_nil_iff_forall_not_mem.2 fun a ha => by
      simpa using mem_of_filter_weight_eq (fun v => (h v).symm) ha).symm
  | cons a ys ih =>
    cases zs with
    | nil => simpa using mem_of_filter_weight_eq h List.mem_cons_self
    | cons b zs =>
      have hw : w a = w b := Nat.le_antisymm
        (head_le_of_mem hys (mem_of_filter_weight_eq (fun v => (h v).symm) List.mem_cons_self))
        (head_le_of_mem hzs (mem_of_filter_weight_eq h List.mem_cons_self))
      obtain rfl : a = b := by
        have hv := h (w a)
        rw [List.filter_cons_of_pos (by simp), List.filter_cons_of_pos (by simp [hw])] at hv
        exact (List.cons.inj hv).1
      have htail : ∀ v, ys.filter (w · == v) = zs.filter (w · == v) := fun v => by
        have hv := h v
        by_cases hav : w a = v <;> simpa [hav] using hv
      rw [ih hys.of_cons hzs.of_cons htail]

/-- Settles O34: `ssort` has the three properties, and the last two determine the list. -/
theorem sortIsTheStableSort : Obligations.SortIsTheStableSort := by
  intro w xs ys
  constructor
  · rintro rfl
    exact ⟨ssort_perm w xs, ssort_pairwise w xs, fun v => filter_weight_ssort w v xs⟩
  · rintro ⟨-, hasc, hstable⟩
    exact eq_of_pairwise_of_filter_weight_eq hasc (ssort_pairwise w xs)
      fun v => (hstable v).trans (filter_weight_ssort w v xs).symm

end Sys2Proof.Machine

/-! ## Reset, the register file and command writes (R31, R33, R51)

What the register file answers for each number, what one step of the host does, and what CLEAR leaves. -/

namespace Sys2Proof.Machine

/-! ### The register file (R31) -/

/-- Numbers 14 and 15 are reserved, and above them there is no register. -/
theorem readReg_of_fourteen_le (s : State) {n : Nat} (hn : 14 ≤ n) : s.readReg n = 0 := by
  obtain ⟨k, rfl⟩ := Nat.exists_eq_add_of_le' hn
  rfl

/-- IN_LEN is the only register besides CMD that takes a host write. -/
theorem writeReg_of_ne_four (s : State) {n : Nat} (hn : n ≠ 4) (v : Word) : s.writeReg n v = s := by
  unfold State.writeReg
  split
  · contradiction
  · rfl

/-- Every register is 0 after reset (R51): one case per row of the register table. -/
theorem resetWith_readReg (caps : Caps) (n : Nat) : (State.resetWith caps).readReg n = 0 := by
  unfold State.readReg
  split <;> rfl

/-! ### One access of the host (R15, R275) -/

theorem step_of_host_cons {s : State} {a : HostAction} {rest : List HostAction} (h : s.host = a :: rest) :
    step s = hostStep a { s with host := rest } := by
  simp only [step, h]

theorem hostStep_writeReg_of_ne_zero {n : Nat} (hn : n ≠ 0) (v : Word) (s : State) :
    hostStep (.writeReg n v) s = .next (s.writeReg n v) :=
  if_neg hn

/-- A write to CMD runs a command where the word has one (R33, R111). -/
theorem step_of_command {s : State} {c : Word} {rest : List HostAction} {i : Instr}
    (h : s.host = .writeReg 0 c :: rest) (hc : decodeWord c = .ok i) : step s = exec i { s with host := rest } :=
  calc
    step s = issueCommand c { s with host := rest } := step_of_host_cons h
    _ = exec i { s with host := rest } := by simp only [issueCommand, hc]

/-- A write to CMD takes IllegalCommand where the word has none (R33, R113). -/
theorem step_of_illegal_word {s : State} {c : Word} {rest : List HostAction} {e : DecodeError}
    (h : s.host = .writeReg 0 c :: rest) (hc : decodeWord c = .error e) :
    step s = illegalCommand c { s with host := rest } :=
  calc
    step s = issueCommand c { s with host := rest } := step_of_host_cons h
    _ = illegalCommand c { s with host := rest } := by simp only [issueCommand, hc]

/-! ### CLEAR (R231) -/

/-- CLEAR's state field by field: reset's, but for the input and the model's own fields. -/
theorem clearAll_eq_resetWith (s : State) : clearAll s = { State.resetWith s.caps with
    inLen := s.inLen, inMem := s.inMem, host := s.host, hostData := s.hostData, freeCount := s.freeCount } :=
  rfl

theorem exec_clear (s : State) : exec .clear s = .next (clearAll s.fresh) := rfl

/-! ### The obligations -/

/-- Settles O1: the register table after reset, the empty arrays and buffers, and CLEAR's state. -/
theorem resetIsTheTable : Obligations.ResetIsTheTable := by
  refine ⟨resetWith_readReg, fun _ => ⟨rfl, rfl, rfl, rfl, rfl⟩, fun _ _ => ⟨rfl, rfl⟩, ⟨Config.resetCaps, rfl⟩, ?_⟩
  intro s
  rw [exec_clear, clearAll_eq_resetWith]
  rfl

/-- Settles O3: a write by the case of its number (0, 4, any other), a read by the register table. -/
theorem registerFileByNumber : Obligations.RegisterFileByNumber := by
  refine ⟨fun s c rest i => step_of_command, ?writeInLen, ?writeIgnored, ?read, ?table,
    fun s n => readReg_of_fourteen_le s⟩
  case writeInLen =>
    intro s v rest h
    rw [step_of_host_cons h, hostStep_writeReg_of_ne_zero (by decide)]
    rfl
  case writeIgnored =>
    intro s n v rest h0 h4 h
    rw [step_of_host_cons h, hostStep_writeReg_of_ne_zero h0, writeReg_of_ne_four _ h4]
  case read =>
    intro s n rest h
    exact step_of_host_cons h
  case table =>
    intro s
    exact ⟨rfl, rfl, rfl, rfl, rfl, rfl, rfl, rfl, rfl, rfl, rfl, rfl, rfl, rfl⟩

/-- Settles O10: the word written decodes to a command or to none, and reading CMD gives 0. -/
theorem stepRunsTheCommandWritten : Obligations.StepRunsTheCommandWritten :=
  ⟨fun _ _ _ _ => step_of_command, fun _ _ _ _ => step_of_illegal_word, fun _ => rfl⟩

end Sys2Proof.Machine

/-! ## Command words and the empty container (R110 to R113, R120)

The decoder is exact: a word is taken apart into its two fields (R110), the operation code is looked up in the opcode
map (R112), and what is left over is illegal (R111, R113). After it, what the commands that read IN do with zero bytes
and with one. -/

namespace Sys2Proof.Machine

/-! ### The two fields of a word (R110) -/

theorem wordZero_eq_zero_iff (c : Word) : wordZero c = 0 ↔ c.toNat / 16 = 0 := by
  have hc : c.toNat / 16 < 2 ^ 28 := by have := c.isLt; omega
  rw [wordZero, ← BitVec.toNat_inj, BitVec.extractLsb'_toNat, Nat.shiftRight_eq_div_pow, Nat.mod_eq_of_lt hc]
  rfl

theorem wordOp_toNat (c : Word) : (wordOp c).toNat = c.toNat % 16 := by
  simp [wordOp, BitVec.extractLsb'_toNat]

/-- A word whose upper bits are zero is its operation code. -/
theorem setWidth_wordOp {c : Word} (h : wordZero c = 0) : (wordOp c).setWidth 32 = c := by
  have hdiv := (wordZero_eq_zero_iff c).1 h
  refine BitVec.eq_of_toNat_eq ?_
  rw [BitVec.toNat_setWidth, wordOp_toNat]
  omega

/-! ### The opcode map (R112, R113) -/

/-- Each row of the map: the operation code of a command is its word. -/
theorem decodeOp_eq_ok_iff (op : BitVec 4) (i : Instr) : decodeOp op = .ok i ↔ op.setWidth 32 = encode i := by
  revert op
  cases i <;> decide

theorem decodeOp_of_reserved : ∀ op : BitVec 4, 0xC ≤ op.toNat → decodeOp op = .error (.reservedOp op) := by decide

/-- The twelve rows give commands; only the last line of the map, for the codes they leave, refuses. -/
theorem decodeOp_error_iff (op : BitVec 4) : (∃ e, decodeOp op = .error e) ↔ 0xC ≤ op.toNat := by
  constructor
  · rintro ⟨e, h⟩
    unfold decodeOp at h
    split at h
    case h_13 =>
      simp only [imp_false] at *
      bv_omega
    all_goals contradiction
  · exact fun h => ⟨_, decodeOp_of_reserved op h⟩

/-! ### The decoder (R111) -/

theorem decodeWord_encode (i : Instr) : decodeWord (encode i) = .ok i := by
  cases i <;> rfl

theorem decodeWord_eq_ok_iff (c : Word) (i : Instr) : decodeWord c = .ok i ↔ c = encode i := by
  constructor
  · intro h
    unfold decodeWord at h
    split at h
    next hz => exact (setWidth_wordOp hz).symm.trans ((decodeOp_eq_ok_iff _ i).1 h)
    next => contradiction
  · rintro rfl
    exact decodeWord_encode i

/-- Each of the decoder's two tests refuses one kind of word. -/
theorem decodeWord_error_iff (c : Word) :
    (∃ e, decodeWord c = .error e) ↔ (c.toNat / 16 ≠ 0 ∨ 0xC ≤ c.toNat % 16) := by
  by_cases hz : wordZero c = 0
  · have hdiv := (wordZero_eq_zero_iff c).1 hz
    simp [decodeWord, hz, decodeOp_error_iff, wordOp_toNat, hdiv]
  · have hdiv := mt (wordZero_eq_zero_iff c).2 hz
    simp only [decodeWord, if_neg hz]
    exact ⟨fun _ => .inl hdiv, fun _ => ⟨_, rfl⟩⟩

/-- A word that is no command's does not decode. -/
theorem decodeWord_error_of_forall_ne {c : Word} (h : ∀ i, c ≠ encode i) : ∃ e, decodeWord c = .error e := by
  cases hc : decodeWord c with
  | ok i => exact absurd ((decodeWord_eq_ok_iff c i).1 hc) (h i)
  | error e => exact ⟨e, rfl⟩

/-- Outside the error state a write of an undecoded word to CMD raises IllegalCommand (R113, R243). -/
theorem step_raises_illegalCommand {s : State} {c : Word} {rest : List HostAction} (h : s.host = .writeReg 0 c :: rest)
    (herr : s.status.err = false) (hc : ∃ e, decodeWord c = .error e) :
    step s = .next (raise (.illegalCommand c) { s.fresh with host := rest }) := by
  obtain ⟨e, hc⟩ := hc
  rw [step_of_illegal_word h hc]
  simp [illegalCommand, herr, State.fresh]

/-! ### FREQ, HDRPARSE and the composites on an empty IN, HDRPARSE and DECOMPRESS on one byte (R120) -/

theorem inputFits_of_inLen_zero {s : State} (h : s.inLen = 0) : s.inputFits = true := by
  simp [State.inputFits, h]

theorem input_of_inLen_zero {s : State} (h : s.inLen = 0) : s.input = [] := by
  simp [State.input, h]

/-- With nothing to count, FREQ stops after its clearing step. -/
theorem freqBody_of_inLen_zero {s : State} (h : s.inLen = 0) :
    freqBody s = .ok { internalClear s with status := s.status.clearValid.afterFreq } := by
  simp only [freqBody, internalClear_inputFits, inputFits_of_inLen_zero h, internalClear_input, input_of_inLen_zero h,
    countAll]
  rfl

/-- With no header to read, HDRPARSE stops after its clearing step. -/
theorem hdrparseBody_of_inLen_zero {s : State} (h : s.inLen = 0) :
    hdrparseBody s = .ok { internalClear s with status := s.status.clearValid.afterHdrparse } := by
  simp [hdrparseBody, inputFits_of_inLen_zero h, h]

theorem compressBody_of_inLen_zero {s : State} (h : s.inLen = 0) :
    compressBody s = .ok { internalClear s with status := s.status.clearValid.afterFreq }.putEmpty := by
  simp [compressBody, freqBody_of_inLen_zero h]

theorem decompressBody_of_inLen_zero {s : State} (h : s.inLen = 0) :
    decompressBody s = .ok { internalClear s with status := s.status.clearValid.afterHdrparse }.putEmpty := by
  simp [decompressBody, hdrparseBody_of_inLen_zero h]

/-- One byte, in the bounds of IN, is less than the two bytes every header begins with. -/
theorem hdrparseBody_of_inLen_one {s : State} (h : s.inLen = 1) (hcap : 1 ≤ s.caps.inCap.val) :
    hdrparseBody s = .error .formatTruncated := by
  have hfits : s.inputFits = true := by simpa [State.inputFits, h] using hcap
  simp [hdrparseBody, hfits, h]

theorem decompressBody_of_hdrparseBody_error {s : State} {e : Cause} (h : hdrparseBody s = .error e) :
    decompressBody s = .error e := by
  simp only [decompressBody, h]

theorem output_of_outLen_zero {s : State} (h : s.outLen = 0) : s.output = [] := by
  simp [State.output, h]

/-- With ERR = 0 the clearing step leaves only DONE (R53). -/
theorem clearValid_of_not_err {f : Status} (h : f.err = false) : f.clearValid = { Status.zero with done := f.done } := by
  simp [Status.clearValid, Status.zero, h]

/-- The state a composite ends in when its first stage has cleared and found nothing (R120): `f` is STATUS after that
stage. -/
def State.emptyResult (s : State) (f : Status) : State := { internalClear s with status := f }.putEmpty.finish

theorem exec_compress_of_inLen_zero {s : State} (herr : s.status.err = false) (h : s.inLen = 0) :
    exec .compress s = .next (s.fresh.emptyResult s.status.clearValid.afterFreq) :=
  run_ok herr (compressBody_of_inLen_zero (s := s.fresh) h)

theorem exec_decompress_of_inLen_zero {s : State} (herr : s.status.err = false) (h : s.inLen = 0) :
    exec .decompress s = .next (s.fresh.emptyResult s.status.clearValid.afterHdrparse) :=
  run_ok herr (decompressBody_of_inLen_zero (s := s.fresh) h)

/-- The result registers and OUT of the empty result, and its frame, whatever its flags. -/
theorem emptyResult_fields (s : State) (f : Status) :
    (s.fresh.emptyResult f).outLen = 0 ∧ (s.fresh.emptyResult f).output = [] ∧ (s.fresh.emptyResult f).bitLen = 0 ∧
    (s.fresh.emptyResult f).padBits = 0 ∧ (s.fresh.emptyResult f).hlen = 0 ∧ (s.fresh.emptyResult f).nsym = 0 ∧
    SameInput s (s.fresh.emptyResult f) :=
  ⟨rfl, output_of_outLen_zero rfl, rfl, rfl, rfl, rfl, ⟨rfl, rfl, rfl, rfl, rfl⟩⟩

/-! ### The obligations -/

/-- Settles O13: the decoder inverts the encoder, and what it refuses raises IllegalCommand. -/
theorem decoderIsExact : Obligations.DecoderIsExact :=
  ⟨decodeWord_eq_ok_iff, decodeWord_error_iff,
    fun _ c _ h herr hbits => step_raises_illegalCommand h herr ((decodeWord_error_iff c).2 hbits)⟩

/-- Settles O12: the twelve words are the words of the twelve commands. -/
theorem twelveWordsDecode : Obligations.TwelveWordsDecode :=
  ⟨decodeWord_encode .nop, decodeWord_encode .freq, decodeWord_encode .build, decodeWord_encode .codegen,
    decodeWord_encode .encode, decodeWord_encode .hdrparse, decodeWord_encode .decode, decodeWord_encode .compress,
    decodeWord_encode .decompress, decodeWord_encode .clear, decodeWord_encode .seed, decodeWord_encode .merge⟩

/-- Settles O14: such a word does not decode, and the state is the one `raise` gives. -/
theorem otherWordsAreIllegal : Obligations.OtherWordsAreIllegal := by
  intro s c rest h herr hc
  exact ⟨_, step_raises_illegalCommand h herr (decodeWord_error_of_forall_ne hc), rfl, rfl, rfl, rfl, rfl, rfl, rfl⟩

/-- Settles O46: on an empty IN both composites end after their first stage; one byte is a cut header. -/
theorem emptyInputAndContainer : Obligations.EmptyInputAndContainer := by
  intro s herr
  refine ⟨fun hlen => ⟨?compress, ?decompress⟩, fun hlen hcap => ?malformed⟩
  case compress =>
    refine ⟨_, exec_compress_of_inLen_zero herr hlen, ?_, emptyResult_fields s _⟩
    rw [clearValid_of_not_err herr]
    rfl
  case decompress =>
    refine ⟨_, exec_decompress_of_inLen_zero herr hlen, ?_, emptyResult_fields s _⟩
    rw [clearValid_of_not_err herr]
    rfl
  case malformed =>
    have hparse : hdrparseBody s.fresh = .error .formatTruncated := hdrparseBody_of_inLen_one hlen hcap
    exact ⟨run_error herr hparse, run_error herr (decompressBody_of_hdrparseBody_error hparse)⟩

end Sys2Proof.Machine

/-! ## The tree builder: SEED, MERGE and BUILD (R161, R163, R165)

BUILD and the stage program differ only in the draws of free values they number. No merge of a list that stays inside
the arena looks at one, so `mergeOnce` commutes with the counter, and the two runs end alike but for it. -/

namespace Sys2Proof.Machine

/-! ### The counter of free values -/

/-- The state with the counter of free values at `k` (log entry 4). -/
def State.withDraw (s : State) (k : Nat) : State := { s with freeCount := k }

theorem fresh_eq_withDraw (s : State) : s.fresh = s.withDraw (s.freeCount + 1) := rfl

theorem sameButCount_withDraw (s : State) (k : Nat) : SameButCount s (s.withDraw k) := rfl

theorem withDraw_weightOf {s : State} {i : Nat} (h : i < s.node.length) (k : Nat) :
    (s.withDraw k).weightOf i = s.weightOf i :=
  congrArg Node.weight (nodeAt_congr rfl h)

/-! ### SEED (R161) -/

/-- The state SEED makes: the leaves of FT, the working list of all of them, and no codes. -/
def State.planted (s : State) : State :=
  { s with
    node := s.ft.map fun e => .leaf e.sym e.cnt
    nnodes := s.nsym, wl := List.range s.nsym, wlLen := s.nsym, root := 0, ct := [], ctLen := 0
    status := s.status.afterSeed s.nsym }

theorem seedBody_of_no_table (op : BitVec 4) {s : State} (h : s.status.ftValid = false) :
    seedBody op s = .error (.sequence op) := by
  simp [seedBody, State.seedReady, h]

theorem seedBody_of_empty_table (op : BitVec 4) {s : State} (h : s.status.ftValid = true) (hn : s.nsym = 0) :
    seedBody op s = .error .degenerate := by
  simp [seedBody, State.seedReady, h, hn]

theorem seedBody_of_table (op : BitVec 4) {s : State} (h : s.status.ftValid = true) (hn : 1 ≤ s.nsym) :
    seedBody op s = .ok s.planted := by
  have hn' : ¬ s.nsym < 1 := by omega
  simp only [seedBody, State.seedReady, h, hn']
  rfl

theorem exec_seed_of_table {s : State} (herr : s.status.err = false) (h : s.status.ftValid = true) (hn : 1 ≤ s.nsym) :
    exec .seed s = .next s.fresh.planted.finish :=
  run_ok herr (seedBody_of_table 0xA (s := s.fresh) h hn)

/-! ### MERGE (R163) -/

/-- The state in which the parent of `a` and `b` stands behind `rest`. -/
def State.joined (s : State) (a b : Nat) (rest : List Nat) : State :=
  { s with
    node := s.node ++ [.internal (s.weightOf a + s.weightOf b) a b]
    nnodes := s.nnodes + 1, wl := rest ++ [s.nnodes], wlLen := s.wlLen - 1
    root := if s.wlLen = 2 then s.nnodes else s.root
    status := { s.status with treeValid := decide (s.wlLen = 2) || s.status.treeValid } }

theorem mergeOnce_eq_joined {s : State} {a b : Nat} {rest : List Nat} (h : ssort s.weightOf s.wl = a :: b :: rest) :
    mergeOnce s = s.joined a b rest := by
  have hlast : s.wlLen - 1 = 1 ↔ s.wlLen = 2 := by omega
  simp [mergeOnce, State.joined, Status.afterMerge, h, hlast, Bool.beq_eq_decide_eq]

/-- No merge inside the arena depends on the draw of free values. -/
theorem mergeOnce_withDraw {s : State} {a b : Nat} {rest : List Nat} (harena : ∀ i ∈ s.wl, i < s.node.length)
    (h : ssort s.weightOf s.wl = a :: b :: rest) (k : Nat) : mergeOnce (s.withDraw k) = (mergeOnce s).withDraw k := by
  have hsort : ssort (s.withDraw k).weightOf (s.withDraw k).wl = a :: b :: rest :=
    (ssort_congr fun i hi => withDraw_weightOf (harena i hi) k).trans h
  have hmem : ∀ i ∈ a :: b :: rest, i < s.node.length := fun i hi => harena i (mem_ssort.1 (h ▸ hi))
  have ha := withDraw_weightOf (hmem a (by simp)) k
  have hb := withDraw_weightOf (hmem b (by simp)) k
  rw [mergeOnce_eq_joined h, mergeOnce_eq_joined hsort]
  simp only [State.joined, ha, hb]
  rfl

theorem finish_finish (s : State) : s.finish.finish = s.finish := rfl

theorem mergeOnce_finish (s : State) : mergeOnce s.finish = (mergeOnce s).finish := rfl

theorem mergeReady_iff (s : State) : s.mergeReady = true ↔ s.status.wlValid = true ∧ 2 ≤ s.wlLen := by
  simp [State.mergeReady]

theorem exec_merge_of_ready {s : State} (herr : s.status.err = false) (h : s.mergeReady = true) :
    exec .merge s = .next (mergeOnce s.fresh).finish :=
  run_ok herr (by simp [mergeBody, h])

theorem exec_merge_of_not_ready {s : State} (herr : s.status.err = false) (h : ¬ s.mergeReady = true) :
    exec .merge s = .next (raise (.sequence 0xB) s.fresh) :=
  run_error herr (by simp [mergeBody, h])

/-! ### The working list stays inside the arena -/

/-- WL holds WL_LEN identifiers, and NNODES nodes stand where they say (R45, R46). -/
structure ListInArena (s : State) : Prop where
  nnodes : s.nnodes = s.node.length
  wlLen : s.wlLen = s.wl.length
  inArena : ∀ i ∈ s.wl, i < s.node.length

theorem planted_listInArena {s : State} (h : s.nsym = s.ft.length) : ListInArena s.planted where
  nnodes := by simp [State.planted, h]
  wlLen := by simp [State.planted]
  inArena := by simp [State.planted, h]

/-- A list of at least two has two lightest. -/
theorem ListInArena.exists_sorted {s : State} (h : ListInArena s) (hlen : 2 ≤ s.wlLen) :
    ∃ a b rest, ssort s.weightOf s.wl = a :: b :: rest := by
  have hsorted : 2 ≤ (ssort s.weightOf s.wl).length := by
    rw [ssort_length, ← h.wlLen]
    exact hlen
  match hs : ssort s.weightOf s.wl with
  | a :: b :: rest => exact ⟨a, b, rest, rfl⟩
  | [] | [_] => simp [hs] at hsorted

theorem joined_listInArena {s : State} {a b : Nat} {rest : List Nat} (h : ListInArena s)
    (hs : ssort s.weightOf s.wl = a :: b :: rest) : ListInArena (s.joined a b rest) where
  nnodes := by simp [State.joined, h.nnodes]
  wlLen := by
    have hlen : s.wl.length = rest.length + 2 := by rw [← ssort_length s.weightOf, hs]; rfl
    simp [State.joined, h.wlLen, hlen]
  inArena := by
    have hrest : ∀ i ∈ rest, i < s.node.length := fun i hi =>
      h.inArena i (mem_ssort.1 (hs ▸ List.mem_cons_of_mem a (List.mem_cons_of_mem b hi)))
    intro i hi
    simp only [State.joined, List.mem_append, List.mem_singleton, List.length_append, List.length_singleton] at hi ⊢
    obtain hi | rfl := hi
    · exact Nat.lt_succ_of_lt (hrest i hi)
    · exact h.nnodes ▸ Nat.lt_succ_self _

theorem mergeOnce_listInArena {s : State} (h : ListInArena s) (hlen : 2 ≤ s.wlLen) : ListInArena (mergeOnce s) := by
  obtain ⟨a, b, rest, hs⟩ := h.exists_sorted hlen
  exact mergeOnce_eq_joined hs ▸ joined_listInArena h hs

/-! ### BUILD (R165) -/

/-- BUILD's loop merges until one node is left, whatever more turns it is given. -/
theorem mergeLoop_eq_iterate {n : Nat} {s : State} (h : s.wlLen ≤ n + 1) :
    mergeLoop n s = mergeOnce^[s.wlLen - 1] s := by
  induction n generalizing s with
  | zero =>
    have hlen : s.wlLen - 1 = 0 := by omega
    rw [hlen]
    rfl
  | succ n ih =>
    unfold mergeLoop
    split
    · have hlen : s.wlLen - 1 = (mergeOnce s).wlLen - 1 + 1 := by rw [mergeOnce_wlLen]; omega
      rw [ih (by rw [mergeOnce_wlLen]; omega), hlen, Function.iterate_succ_apply]
    · have hlen : s.wlLen - 1 = 0 := by omega
      rw [hlen]
      rfl

theorem buildBody_of_table {s : State} (h : s.status.ftValid = true) (hn : 1 ≤ s.nsym) :
    buildBody s = .ok (mergeOnce^[s.nsym - 1] s.planted) := by
  simp only [buildBody, seedBody_of_table 0x2 h hn, mergeLoop_eq_iterate (Nat.le_succ _)]
  rfl

theorem buildBody_of_seedBody_error {s : State} {e : Cause} (h : seedBody 0x2 s = .error e) : buildBody s = .error e := by
  simp only [buildBody, h]

theorem mergeOnce_iterate_wlLen (n : Nat) (s : State) : (mergeOnce^[n] s).wlLen = s.wlLen - n := by
  induction n generalizing s with
  | zero => rfl
  | succ n ih => rw [Function.iterate_succ_apply, ih, mergeOnce_wlLen]; omega

/-- Merging down to one node sets TREE_VALID and leaves the other flags, where TREE_VALID told before whether one node
was left. -/
theorem mergeOnce_iterate_status {n : Nat} {s : State} (hlen : s.wlLen = n + 1)
    (htree : s.status.treeValid = (s.wlLen == 1)) :
    (mergeOnce^[n] s).status = { s.status with treeValid := true } := by
  induction n generalizing s with
  | zero =>
    have hvalid : s.status.treeValid = true := by simp [htree, hlen]
    rw [← hvalid]
    rfl
  | succ n ih =>
    rw [Function.iterate_succ_apply, ih (by simp [hlen]) (by simp [htree, hlen])]
    rfl

/-- `n` MERGE commands do `n` merges, each under a draw of its own. `c` is the counter before them; DONE is set after each
command, before the first by the command that made the list. -/
theorem execAll_merges {n : Nat} {s : State} (c : Nat) (harena : ListInArena s) (hlen : s.wlLen = n + 1)
    (herr : s.status.err = false) (hvalid : s.status.wlValid = true) :
    execAll (List.replicate n .merge) (s.withDraw c).finish = .next ((mergeOnce^[n] s).withDraw (c + n)).finish := by
  induction n generalizing s c with
  | zero => rfl
  | succ n ih =>
    have hlen2 : 2 ≤ s.wlLen := by omega
    obtain ⟨a, b, rest, hs⟩ := harena.exists_sorted hlen2
    have hmerge : exec .merge (s.withDraw c).finish = .next ((mergeOnce s).withDraw (c + 1)).finish :=
      calc
        exec .merge (s.withDraw c).finish = .next (mergeOnce (s.withDraw (c + 1)).finish).finish :=
          exec_merge_of_ready herr ((mergeReady_iff _).2 ⟨hvalid, hlen2⟩)
        _ = .next ((mergeOnce s).withDraw (c + 1)).finish := by
          rw [mergeOnce_finish, mergeOnce_withDraw harena.inArena hs, finish_finish]
    have hrest := ih (c + 1) (mergeOnce_listInArena harena hlen2) (by simp [hlen]) herr hvalid
    simp only [List.replicate_succ, execAll, hmerge, hrest, Function.iterate_succ_apply]
    rw [Nat.add_assoc, Nat.add_comm 1 n]

/-! ### The obligations -/

/-- Settles O36: the error by MERGE's `require`; else the two lightest are joined as the sort gives them. -/
theorem mergeJoinsTheTwoLightest : Obligations.MergeJoinsTheTwoLightest := by
  refine ⟨fun s herr h => exec_merge_of_not_ready herr (mt (mergeReady_iff s).1 h), ?_⟩
  intro s a b rest herr hvalid hlen hsort harena
  rw [exec_merge_of_ready herr ((mergeReady_iff s).2 ⟨hvalid, hlen⟩), fresh_eq_withDraw,
    mergeOnce_withDraw harena hsort, mergeOnce_eq_joined hsort]
  rfl

/-- Settles O39: both runs plant the leaves and merge NSYM − 1 times, under different draws of free values. -/
theorem buildIsSeedThenMerges : Obligations.BuildIsSeedThenMerges := by
  intro s hinv herr
  refine ⟨fun hft hn => ?table, fun hft => ?noTable, fun hft hn => ?emptyTable⟩
  case table =>
    have harena : ListInArena s.fresh.planted := planted_listInArena (s := s.fresh) (hinv.coherent herr).nsym
    have hlen : s.fresh.planted.wlLen = s.nsym - 1 + 1 := (Nat.sub_add_cancel hn).symm
    have hstages : execAll (.seed :: List.replicate (s.nsym - 1) .merge) s =
        .next ((mergeOnce^[s.nsym - 1] s.fresh.planted).withDraw (s.freeCount + 1 + (s.nsym - 1))).finish := by
      simp only [execAll, exec_seed_of_table herr hft hn]
      exact execAll_merges (s.freeCount + 1) harena hlen herr rfl
    have hwlLen : (mergeOnce^[s.nsym - 1] s.fresh.planted).wlLen = 1 := by
      rw [mergeOnce_iterate_wlLen, hlen, Nat.add_sub_cancel_left]
    exact ⟨_, _, run_ok herr (buildBody_of_table (s := s.fresh) hft hn), hstages, sameButCount_withDraw _ _, hwlLen,
      congrArg Status.setDone (mergeOnce_iterate_status hlen rfl)⟩
  case noTable =>
    exact run_error herr (buildBody_of_seedBody_error (seedBody_of_no_table 0x2 (s := s.fresh) hft))
  case emptyTable =>
    exact run_error herr (buildBody_of_seedBody_error (seedBody_of_empty_table 0x2 (s := s.fresh) hft hn))

/-- Settles O35: by the three cases of SEED's body. -/
theorem seedPlantsTheLeaves : Obligations.SeedPlantsTheLeaves := by
  intro s herr
  exact ⟨exec_seed_of_table herr,
    fun hft => run_error herr (seedBody_of_no_table 0xA (s := s.fresh) hft),
    fun hft hn => run_error herr (seedBody_of_empty_table 0xA (s := s.fresh) hft hn)⟩

end Sys2Proof.Machine

/-! ## The encoder on single-symbol data (R196)

The four stages of COMPRESS are run one after another, each from the state the one before it makes: one table entry, one
leaf that is the whole tree, one code of length 0, and so a container that is its header alone. -/

namespace Sys2Proof.Machine

/-! ### FREQ (R150) -/

theorem countAll_replicate (b : Byte) {n k : Nat} (h : k + n ≤ 65535) :
    countAll (List.replicate n b) [⟨b, k⟩] = .ok [⟨b, k + n⟩] := by
  induction n generalizing k with
  | zero => rfl
  | succ n ih =>
    have hk : k < 65535 := by omega
    have hrest := ih (k := k + 1) (by omega)
    simpa [List.replicate_succ, countAll, countSym, hk, Nat.add_comm 1, Nat.add_assoc] using hrest

theorem countAll_replicate_nil (b : Byte) {n : Nat} (hpos : 1 ≤ n) (h : n ≤ 65535) :
    countAll (List.replicate n b) [] = .ok [⟨b, n⟩] := by
  obtain ⟨m, rfl⟩ := Nat.exists_eq_add_of_le hpos
  rw [Nat.add_comm 1 m, List.replicate_succ, Nat.add_comm m 1]
  exact countAll_replicate b h

/-- The state FREQ makes: cleared, with the table `ft`. -/
def State.tabled (s : State) (ft : List FtEntry) : State :=
  { internalClear s with ft := ft, nsym := ft.length, status := s.status.clearValid.afterFreq }

theorem freqBody_of_countAll {s : State} {ft : List FtEntry} (hfits : s.inputFits = true)
    (h : countAll s.input [] = .ok ft) : freqBody s = .ok (s.tabled ft) := by
  simp only [freqBody, internalClear_inputFits, internalClear_input, hfits, h]
  rfl

/-! ### BUILD and CODEGEN on one symbol (R165, R183) -/

/-- One leaf is a finished tree: there is nothing to merge. -/
theorem buildBody_of_nsym_one {s : State} (h : s.status.ftValid = true) (hn : s.nsym = 1) :
    buildBody s = .ok s.planted := by
  rw [buildBody_of_table h (Nat.le_of_eq hn.symm), hn]
  rfl

/-- The state CODEGEN makes. -/
def State.coded (s : State) : State :=
  { s with ct := s.codeTable, ctLen := s.codeTable.length, status := s.status.afterCodegen }

theorem codegenBody_of_tree {s : State} (h : s.status.treeValid = true) : codegenBody s = .ok s.coded := by
  simp only [codegenBody, State.codegenReady, h]
  rfl

/-- The path to a root that is a leaf is empty. -/
theorem codeTable_of_root_leaf {s : State} {b : Byte} {w n : Nat} (h : s.nodeAt s.root = .leaf b w)
    (hn : s.nnodes = n + 1) : s.codeTable = [⟨b, 0, 0⟩] := by
  simp [State.codeTable, hn, walk, h]

/-! ### ENCODE (R191) -/

/-- The bytes ENCODE writes when the stream has `bits` bits. -/
def State.containerBytes (s : State) (bits : Nat) : List Byte :=
  headerBytes s.nsym (padCount bits) s.ft ++ pack 0 0 (s.input.flatMap (codeBits s.ct))

/-- The state ENCODE makes when the stream has `bits` bits. -/
def State.encoded (s : State) (bits : Nat) : State :=
  { s.putOut (s.containerBytes bits) with
    bitLen := bits, padBits := padCount bits, hlen := headerLength s.nsym, status := s.status.afterEncode }

theorem encodeBody_of_measure {s : State} {bits : Nat} (hready : s.encodeReady = true) (hfits : s.inputFits = true)
    (hbits : measure s.ct s.input 0 = .ok bits) (hcap : headerLength s.nsym + payloadLength bits ≤ s.caps.outCap.val) :
    encodeBody s = .ok (s.encoded bits) := by
  simp only [encodeBody, hready, hfits, hbits, Nat.not_lt.2 hcap]
  rfl

theorem encoded_output (s : State) (bits : Nat) : (s.encoded bits).finish.output = s.containerBytes bits :=
  output_of_putOut rfl rfl rfl

/-- Pass 1 over copies of one byte adds its code's length for each. -/
theorem measure_replicate {ct : List CodeTuple} {b : Byte} {t : CodeTuple} (h : codeOf ct b = some t) (n k : Nat) :
    measure ct (List.replicate n b) k = .ok (k + n * t.len) := by
  induction n generalizing k with
  | zero => simp [measure]
  | succ n ih =>
    simp only [List.replicate_succ, measure, h, ih]
    congr 1
    ring

/-- Pass 2 over copies of a byte with the code of length 0 writes nothing. -/
theorem flatMap_codeBits_replicate {ct : List CodeTuple} {b : Byte} {t : CodeTuple} (h : codeOf ct b = some t)
    (hlen : t.len = 0) (n : Nat) : (List.replicate n b).flatMap (codeBits ct) = [] := by
  have hbits : codeBits ct b = [] := by simp [codeBits, h, CodeTuple.bits, bitsOf, hlen]
  simp [List.flatMap_replicate, hbits]

/-- The count's two bytes are its quotient and remainder by 256 (R118). -/
theorem entryBytes_eq (e : FtEntry) :
    entryBytes e = [e.sym, BitVec.ofNat 8 (e.cnt / 256), BitVec.ofNat 8 (e.cnt % 256)] := by
  have hlow : e.cnt &&& 0xFF = e.cnt % 256 := Nat.and_two_pow_sub_one_eq_mod e.cnt 8
  rw [entryBytes, hlow, Nat.shiftRight_eq_div_pow]

/-! ### COMPRESS (R198) -/

/-- When its first three stages complete on a table that is not empty, COMPRESS ends as ENCODE does. -/
theorem compressBody_of_stages {s s1 s2 s3 : State} (hfreq : freqBody s = .ok s1) (hn : s1.nsym ≠ 0)
    (hbuild : buildBody s1 = .ok s2) (hcodegen : codegenBody s2 = .ok s3) : compressBody s = encodeBody s3 := by
  simp only [compressBody, hfreq, hn, hbuild, hcodegen, if_false]

/-- The state after FREQ, BUILD and CODEGEN on `n` copies of `b`. -/
def State.singleCoded (s : State) (b : Byte) (n : Nat) : State := (s.tabled [⟨b, n⟩]).planted.coded

theorem singleCoded_ct (s : State) (b : Byte) (n : Nat) : (s.singleCoded b n).ct = [⟨b, 0, 0⟩] :=
  codeTable_of_root_leaf (w := n) (n := 0) rfl rfl

theorem singleCoded_codeOf (s : State) (b : Byte) (n : Nat) : codeOf (s.singleCoded b n).ct b = some ⟨b, 0, 0⟩ := by
  simp [singleCoded_ct, codeOf]

theorem compressBody_of_replicate {s : State} {b : Byte} {n : Nat} (hfits : s.inputFits = true) (hpos : 1 ≤ n)
    (hn : n ≤ 65535) (hin : s.input = List.replicate n b) : compressBody s = encodeBody (s.singleCoded b n) :=
  have hfreq : freqBody s = .ok (s.tabled [⟨b, n⟩]) :=
    freqBody_of_countAll hfits (hin ▸ countAll_replicate_nil b hpos hn)
  compressBody_of_stages hfreq Nat.one_ne_zero (buildBody_of_nsym_one rfl rfl) (codegenBody_of_tree rfl)

/-- The header is the whole container: its one entry, and no payload. -/
theorem singleCoded_containerBytes {s : State} {b : Byte} {n : Nat} (hin : s.input = List.replicate n b) :
    (s.singleCoded b n).containerBytes 0 = [0, 0, b, BitVec.ofNat 8 (n / 256), BitVec.ofNat 8 (n % 256)] := by
  have hstream : (s.singleCoded b n).input.flatMap (codeBits (s.singleCoded b n).ct) = [] :=
    (congrArg (List.flatMap _) hin).trans (flatMap_codeBits_replicate (singleCoded_codeOf s b n) rfl n)
  have hheader : headerBytes (s.singleCoded b n).nsym (padCount 0) (s.singleCoded b n).ft =
      0 :: 0 :: entryBytes ⟨b, n⟩ := rfl
  rw [State.containerBytes, hstream, hheader, entryBytes_eq]
  rfl

/-- Within a capacity of five bytes ENCODE completes on single-symbol data, with a stream of no bits. -/
theorem encodeBody_singleCoded {s : State} {b : Byte} {n : Nat} (hfits : s.inputFits = true)
    (hin : s.input = List.replicate n b) (hcap : 5 ≤ s.caps.outCap.val) :
    encodeBody (s.singleCoded b n) = .ok ((s.singleCoded b n).encoded 0) := by
  have hbits : measure (s.singleCoded b n).ct (s.singleCoded b n).input 0 = .ok 0 :=
    (congrArg (measure _ · 0) hin).trans (measure_replicate (singleCoded_codeOf s b n) n 0)
  exact encodeBody_of_measure rfl hfits hbits hcap

/-! ### The obligations -/

/-- Settles O47: one entry, one leaf, one code of length 0, and the header as the whole container. -/
theorem singleSymbolContainer : Obligations.SingleSymbolContainer := by
  intro s b herr hfits hpos hmax hin hcap
  have hfits' : s.fresh.inputFits = true := decide_eq_true hfits
  have hbody := (compressBody_of_replicate (s := s.fresh) hfits' hpos hmax hin).trans
    (encodeBody_singleCoded (s := s.fresh) hfits' hin hcap)
  have hbytes := singleCoded_containerBytes (s := s.fresh) hin
  exact ⟨_, run_ok herr hbody, herr, rfl, rfl, rfl, congrArg List.length hbytes, singleCoded_ct s.fresh b _,
    (encoded_output _ 0).trans hbytes⟩

end Sys2Proof.Machine

/-! ## The header decoder and the single leaf (R210, R214)

HDRPARSE outcome by outcome, in the order of its checks. For DECODE the shape of a finished tree: every node but the last
is a child of a later one, so the root is the last node, and it is a leaf exactly when no merge has made it. -/

namespace Sys2Proof.Machine

/-! ### HDRPARSE (R210) -/

theorem inputFits_of_le {s : State} (h : s.inLen.toNat ≤ s.caps.inCap.val) : s.inputFits = true := decide_eq_true h

/-- The entry's count is its high byte times 256 plus its low byte (R84, R118). -/
theorem headerEntry_eq (s : State) (i : Nat) : s.headerEntry i =
    ⟨s.memReadIn (2 + 3 * i), (s.memReadIn (3 + 3 * i)).toNat * 256 + (s.memReadIn (4 + 3 * i)).toNat⟩ := by
  have hlow : (s.memReadIn (4 + 3 * i)).toNat < 2 ^ 8 := BitVec.isLt _
  rw [State.headerEntry, ← Nat.shiftLeft_add_eq_or_of_lt hlow, Nat.shiftLeft_eq]

/-- n, the number of header entries that byte 0 of IN tells (R115). -/
def State.headerCount (s : State) : Nat := (s.memReadIn 0).toNat + 1

/-- The padding count, byte 1 of IN (R117). -/
def State.headerPad (s : State) : Nat := (s.memReadIn 1).toNat

/-- The state HDRPARSE makes from a header. -/
def State.parsed (s : State) : State :=
  { internalClear s with
    ft := (List.range s.headerCount).map s.headerEntry, nsym := s.headerCount, padBits := s.headerPad
    hlen := headerLength s.headerCount, status := s.status.clearValid.afterHdrparse }

theorem hdrparseBody_of_not_fits {s : State} (h : s.caps.inCap.val < s.inLen.toNat) :
    hdrparseBody s = .error .capacityIn := by
  have hfits : s.inputFits = false := decide_eq_false (Nat.not_le.2 h)
  simp [hdrparseBody, hfits]

/-- From two bytes on HDRPARSE makes its three checks of the header, in this order (R210). -/
theorem hdrparseBody_of_two_le {s : State} (hcap : s.inLen.toNat ≤ s.caps.inCap.val) (hlen : 2 ≤ s.inLen.toNat) :
    hdrparseBody s =
      if s.inLen.toNat < headerLength s.headerCount then .error .formatTruncated
      else if 7 < s.headerPad then .error .formatPadRange
      else if s.inLen.toNat = headerLength s.headerCount ∧ s.headerPad ≠ 0 then .error .formatPadNoPayload
      else .ok s.parsed := by
  have hpos : s.inLen.toNat ≠ 0 := by omega
  simp only [hdrparseBody, internalClear_inputFits, internalClear_inLen, inputFits_of_le hcap, hpos, Nat.not_lt.2 hlen]
  rfl

/-- What HDRPARSE leaves of STATUS when ERR = 0. -/
theorem hdrparse_status {f : Status} (h : f.err = false) :
    f.clearValid.afterHdrparse.setDone = { Status.zero with done := true, ftValid := true, hdrValid := true } := by
  rw [clearValid_of_not_err h]
  rfl

theorem exec_hdrparse_of_parsed {s : State} (herr : s.status.err = false)
    (h : hdrparseBody s.fresh = .ok s.fresh.parsed) :
    exec .hdrparse s = .next { internalClear s.fresh with
      ft := (List.range s.headerCount).map fun i =>
        ⟨s.memReadIn (2 + 3 * i), (s.memReadIn (3 + 3 * i)).toNat * 256 + (s.memReadIn (4 + 3 * i)).toNat⟩
      nsym := s.headerCount, padBits := s.headerPad, hlen := headerLength s.headerCount
      status := { Status.zero with done := true, ftValid := true, hdrValid := true } } := by
  have hentries : s.headerEntry = fun i => ⟨s.memReadIn (2 + 3 * i),
      (s.memReadIn (3 + 3 * i)).toNat * 256 + (s.memReadIn (4 + 3 * i)).toNat⟩ := funext (headerEntry_eq s)
  rw [← hentries, ← hdrparse_status herr]
  exact run_ok herr h

/-- Settles O52: by IN_CAP, by the number of bytes, and from two bytes on by the three checks of the header. -/
theorem hdrparseReadsTheHeader : Obligations.HdrparseReadsTheHeader := by
  intro s herr
  refine ⟨fun hcap => ?capacity, fun hcap hlen => ?empty, fun hcap hlen => ?oneByte, fun hcap hlen => ?header⟩
  case capacity => exact run_error herr (hdrparseBody_of_not_fits (s := s.fresh) hcap)
  case empty =>
    rw [← hdrparse_status herr]
    exact run_ok herr (hdrparseBody_of_inLen_zero (s := s.fresh) (BitVec.eq_of_toNat_eq hlen))
  case oneByte =>
    exact run_error herr (hdrparseBody_of_inLen_one (s := s.fresh) (BitVec.eq_of_toNat_eq hlen) (hlen.ge.trans hcap))
  case header =>
    have hbody := hdrparseBody_of_two_le (s := s.fresh) hcap hlen
    refine ⟨fun hshort => run_error herr (hbody.trans (if_pos hshort)), fun hlong => ?_⟩
    have hwhole := hbody.trans (if_neg (Nat.not_lt.2 hlong))
    refine ⟨fun hpad => run_error herr (hwhole.trans (if_pos hpad)), fun hpad hend hne => ?noPayload,
      fun hpad hend => ?parsed⟩
    case noPayload => exact run_error herr ((hwhole.trans (if_neg (Nat.not_lt.2 hpad))).trans (if_pos ⟨hend, hne⟩))
    case parsed =>
      have hmatch := (hwhole.trans (if_neg (Nat.not_lt.2 hpad))).trans (if_neg fun h => h.2 (hend h.1))
      exact exec_hdrparse_of_parsed herr hmatch

/-! ### The arena of a finished tree (R45, R167) -/

theorem ArenaOk.inPlace_getElem {s : State} (h : ArenaOk s) {i : Nat} (hi : i < s.node.length) :
    nodeInPlace s s.node[i] i = true :=
  h.inPlace (s.node[i], i) (List.mk_mem_zipIdx_iff_getElem?.2 (List.getElem?_eq_getElem hi))

/-- Leaves stand first. -/
theorem ArenaOk.isLeaf_iff {s : State} (h : ArenaOk s) {i : Nat} (hi : i < s.node.length) :
    s.node[i].isLeaf = true ↔ i < s.nsym := by
  have hplace := h.inPlace_getElem hi
  cases hn : s.node[i] with
  | leaf b w => simpa [hn, nodeInPlace, Node.isLeaf] using hplace
  | internal w l r =>
    simp only [hn, nodeInPlace, decide_eq_true_eq] at hplace
    simpa [Node.isLeaf] using hplace.1

/-- Children stand before their parent. -/
theorem ArenaOk.lt_of_mem_children {s : State} (h : ArenaOk s) {i k : Nat} (hi : i < s.node.length)
    (hk : k ∈ s.node[i].children) : k < i := by
  have hplace := h.inPlace_getElem hi
  cases hn : s.node[i] with
  | leaf b w => simp [hn, Node.children] at hk
  | internal w l r =>
    simp only [hn, nodeInPlace, decide_eq_true_eq] at hplace
    obtain ⟨-, hl, hr, -⟩ := hplace
    simp only [hn, Node.children, List.mem_cons, List.not_mem_nil, or_false] at hk
    obtain rfl | rfl := hk
    · exact hl
    · exact hr

/-- The last node is in the working list: it could be the child of a later node only. -/
theorem ArenaOk.last_mem_wl {s : State} (h : ArenaOk s) (hn : s.nnodes = s.node.length) {k : Nat}
    (hk : k + 1 = s.nnodes) : k ∈ s.wl := by
  have howned : k ∈ s.wl ++ s.node.flatMap Node.children := h.owned.mem_iff.2 (List.mem_range.2 (by omega))
  obtain hwl | hchild := List.mem_append.1 howned
  · exact hwl
  · obtain ⟨n, hmem, hkn⟩ := List.mem_flatMap.1 hchild
    obtain ⟨i, hi, rfl⟩ := List.getElem_of_mem hmem
    have := h.lt_of_mem_children hi hkn
    omega

/-- A finished tree: one node is left in the working list, the root, of 2 × NSYM − 1 (R167). -/
structure FinishedTree (s : State) : Prop where
  arena : ArenaOk s
  nsym : s.nsym = s.ft.length
  root : s.root + 1 = s.node.length
  size : s.node.length + 1 = 2 * s.nsym

theorem Coherent.finishedTree {s : State} (h : Coherent s) (ht : s.status.treeValid = true) : FinishedTree s := by
  obtain ⟨hlist, hwl⟩ := h.tree ht
  obtain ⟨-, harena⟩ := h.list hlist
  have hone : s.wlLen = 1 := (h.finished hlist).1 ht
  have hnodes := h.nnodes
  have hcounts := harena.counts
  have hseeded := harena.seeded
  refine ⟨harena, h.nsym, ?_, by omega⟩
  have hlast : s.nnodes - 1 ∈ s.wl := harena.last_mem_wl hnodes (by omega)
  rw [hwl, List.mem_singleton] at hlast
  omega

theorem FinishedTree.root_lt {s : State} (h : FinishedTree s) : s.root < s.node.length := by
  have := h.root
  omega

theorem isLeaf_iff_exists (n : Node) : n.isLeaf = true ↔ ∃ b w, n = .leaf b w := by
  cases n <;> simp [Node.isLeaf]

/-- The root stands at 2 × NSYM − 2, which is among the leaves exactly when it is 0. -/
theorem FinishedTree.root_leaf_iff {s : State} (h : FinishedTree s) :
    (∃ b w, s.nodeAt s.root = .leaf b w) ↔ s.nsym = 1 := by
  rw [← isLeaf_iff_exists, nodeAt_of_lt h.root_lt, h.arena.isLeaf_iff h.root_lt]
  have hroot := h.root
  have hsize := h.size
  omega

/-- A root that is a leaf is the only entry of FT. -/
theorem FinishedTree.ft_of_root_leaf {s : State} (h : FinishedTree s) {b : Byte} {w : Nat}
    (hleaf : s.nodeAt s.root = .leaf b w) : s.ft = [⟨b, w⟩] := by
  have hone : s.nsym = 1 := h.root_leaf_iff.1 ⟨b, w, hleaf⟩
  obtain ⟨e, he⟩ := List.length_eq_one_iff.1 (h.nsym.symm.trans hone)
  have hroot : s.root = 0 := by have := h.root; have := h.size; omega
  have hfirst : s.node[0]? = some (.leaf e.sym e.cnt) := by
    have := congrArg (·[0]?) h.arena.leaves
    simpa [hone, he] using this
  rw [State.nodeAt, hroot, hfirst] at hleaf
  obtain ⟨rfl, rfl⟩ := Node.leaf.inj hleaf
  exact he

/-! ### DECODE (R213, R214) -/

/-- DECODE's three tests before it walks pass (R244 to R246). -/
structure DecodeChecked (s : State) : Prop where
  ready : s.decodeReady = true
  fits : s.inputFits = true
  consistent : s.lengthConsistent = true

theorem decodeChecked_fresh {s : State} (hhdr : s.status.hdrValid = true) (htree : s.status.treeValid = true)
    (hcap : s.inLen.toNat ≤ s.caps.inCap.val) (hlen : s.hlen ≤ s.inLen.toNat)
    (hpad : s.inLen.toNat = s.hlen → s.padBits = 0) : DecodeChecked s.fresh where
  ready := by simp [State.decodeReady, hhdr, htree]
  fits := inputFits_of_le (s := s.fresh) hcap
  consistent := by simpa [State.lengthConsistent, hlen, imp_iff_not_or] using hpad

/-- The state DECODE makes when it has decoded `out`. -/
def State.unpacked (s : State) (out : List Byte) : State :=
  { s.putOut out with bitLen := s.payloadBits, status := s.status.setOutValid }

theorem unpacked_output (s : State) (out : List Byte) : (s.unpacked out).finish.output = out :=
  output_of_putOut rfl rfl rfl

theorem exec_decode_of_decoded {s : State} {out : List Byte} (herr : s.status.err = false) (h : DecodeChecked s.fresh)
    (hd : s.fresh.decoded = .ok out) : exec .decode s = .next (s.fresh.unpacked out).finish :=
  run_ok herr (by simp only [decodeBody, h.ready, h.fits, h.consistent, hd]; rfl)

theorem exec_decode_of_decoded_error {s : State} {e : Cause} (herr : s.status.err = false) (h : DecodeChecked s.fresh)
    (hd : s.fresh.decoded = .error e) : exec .decode s = .next (raise e s.fresh) :=
  run_error herr (by simp only [decodeBody, h.ready, h.fits, h.consistent, hd]; rfl)

/-- A root that is a leaf is decoded without a walk (R214). -/
theorem decoded_of_root_leaf {s : State} {b : Byte} {w : Nat} (h : s.nodeAt s.root = .leaf b w) :
    s.decoded =
      if s.payloadBits ≠ 0 then .error .formatSinglePayload
      else if s.caps.outCap.val < w then .error .capacityOut
      else .ok (List.replicate w b) := by
  simp only [State.decoded, h]

/-- Settles O56: the root is the last node, so a leaf only where it is the first; then DECODE does not walk. -/
theorem decodeSingleLeaf : Obligations.DecodeSingleLeaf := by
  intro s hinv herr hhdr htree hcap hlen hpad
  have hfinished : FinishedTree s := (hinv.coherent herr).finishedTree htree
  have hchecked : DecodeChecked s.fresh := decodeChecked_fresh hhdr htree hcap hlen hpad
  refine ⟨hfinished.root_leaf_iff, fun b w hleaf => ?_⟩
  have hfresh : s.fresh.nodeAt s.fresh.root = .leaf b w :=
    (nodeAt_congr (s := s.fresh) (t := s) rfl hfinished.root_lt).trans hleaf
  have hdecoded := decoded_of_root_leaf hfresh
  refine ⟨fun hbits => exec_decode_of_decoded_error herr hchecked (hdecoded.trans (if_pos hbits)),
    fun hbits hw => ?capacity, fun hbits hw => ⟨hfinished.ft_of_root_leaf hleaf, ?result⟩⟩
  case capacity =>
    exact exec_decode_of_decoded_error herr hchecked
      ((hdecoded.trans (if_neg (not_not.2 hbits))).trans (if_pos hw))
  case result =>
    have hbytes := (hdecoded.trans (if_neg (not_not.2 hbits))).trans (if_neg (Nat.not_lt.2 hw))
    exact ⟨_, exec_decode_of_decoded herr hchecked hbytes, rfl, unpacked_output _ _, List.length_replicate, hbits⟩

end Sys2Proof.Machine

/-! ## The control commands NOP and CLEAR (R230, R231, R243)

NOP looks at ERR only. CLEAR does not look at it, and leaves the state of `clearAll_eq_resetWith`. -/

namespace Sys2Proof.Machine

/-! ### NOP (R230) -/

theorem exec_nop_of_not_err {s : State} (herr : s.status.err = false) : exec .nop s = .next s.finish :=
  if_neg (Bool.eq_false_iff.1 herr)

/-- The refusal of R243 step 1. -/
theorem exec_nop_of_err {s : State} (herr : s.status.err = true) : exec .nop s = .next s :=
  if_pos herr

/-! ### CLEAR (R231) -/

/-- STATUS is register 1 (R31), and CLEAR gives it its reset value. -/
theorem clearAll_status_toWord (s : State) : (clearAll s).status.toWord = 0 :=
  resetWith_readReg s.caps 1

/-! ### The obligations -/

/-- Settles O15: with ERR = 0 NOP is the DONE line alone, with ERR = 1 it is refused. -/
theorem nopSetsDoneOnly : Obligations.NopSetsDoneOnly :=
  ⟨fun _ => exec_nop_of_not_err, fun _ => exec_nop_of_err⟩

/-- Settles O16: CLEAR has one outcome, whatever ERR is, and its state is known field by field. -/
theorem clearGivesTheResetState : Obligations.ClearGivesTheResetState := fun s =>
  ⟨clearAll s.fresh, exec_clear s, clearAll_status_toWord s.fresh, clearAll_errCode s.fresh, clearAll_errInfo s.fresh,
    clearAll_eq_resetWith s.fresh⟩

end Sys2Proof.Machine

/-! ## Sequence preconditions (R242, R244)

Without its precondition a stage command stops at its first line. That COMPRESS never meets a missing precondition needs
its stages: FREQ's table has every input byte, BUILD's tree has a leaf for every entry of the table, and the walk of the
finished tree comes to every leaf, so that ENCODE finds a code for every input byte. -/

namespace Sys2Proof.Machine

/-! ### FREQ (R150, R152) -/

theorem countSym_error {b : Byte} {ft : List FtEntry} {e : Cause} (h : countSym b ft = .error e) :
    e = .overflow b := by
  induction ft with
  | nil => cases h
  | cons x xs ih =>
    unfold countSym at h
    split at h
    · split at h <;> cases h
      rfl
    · split at h
      · cases h
      · next hxs => cases h; exact ih hxs

theorem countAll_error {bs : List Byte} {ft : List FtEntry} {e : Cause} (h : countAll bs ft = .error e) :
    ∃ b, e = .overflow b := by
  induction bs generalizing ft with
  | nil => cases h
  | cons b bs ih =>
    unfold countAll at h
    split at h
    · exact ih h
    · next hb => cases h; exact ⟨b, countSym_error hb⟩

/-- One turn of FREQ's loop adds the byte to the symbols of the table. -/
theorem mem_syms_of_countSym {b : Byte} {ft ft' : List FtEntry} (h : countSym b ft = .ok ft') {x : Byte}
    (hx : x = b ∨ x ∈ ft.map FtEntry.sym) : x ∈ ft'.map FtEntry.sym := by
  induction ft generalizing ft' with
  | nil => cases h; simpa using hx
  | cons e es ih =>
    unfold countSym at h
    split at h
    next hb =>
      split at h <;> cases h
      simpa [hb] using hx
    next =>
      split at h <;> cases h
      next es' hes =>
        have := ih hes
        simp only [List.map_cons, List.mem_cons] at hx ⊢
        tauto

/-- FREQ's table has an entry for every input byte. -/
theorem mem_syms_of_countAll {bs : List Byte} {ft ft' : List FtEntry} (h : countAll bs ft = .ok ft') {x : Byte}
    (hx : x ∈ bs ∨ x ∈ ft.map FtEntry.sym) : x ∈ ft'.map FtEntry.sym := by
  induction bs generalizing ft with
  | nil => cases h; simpa using hx
  | cons b bs ih =>
    unfold countAll at h
    split at h
    next hb =>
      have hturn := mem_syms_of_countSym hb (x := x)
      rw [List.mem_cons] at hx
      exact ih h (by tauto)
    next => cases h

/-- Everything FREQ's body can do. -/
theorem freqBody_cases (s : State) :
    freqBody s = .error .capacityIn ∨ (∃ b, freqBody s = .error (.overflow b)) ∨
    ∃ ft, countAll s.input [] = .ok ft ∧ freqBody s = .ok (s.tabled ft) := by
  cases hfits : s.inputFits with
  | false => exact .inl (by simp [freqBody, hfits])
  | true =>
    cases hcount : countAll s.input [] with
    | ok ft => exact .inr (.inr ⟨ft, rfl, freqBody_of_countAll hfits hcount⟩)
    | error e =>
      obtain ⟨b, rfl⟩ := countAll_error hcount
      exact .inr (.inl ⟨b, by simp [freqBody, hfits, hcount]⟩)

/-! ### HDRPARSE (R210) -/

/-- The state HDRPARSE makes from an empty IN. -/
def State.parsedEmpty (s : State) : State := { internalClear s with status := s.status.clearValid.afterHdrparse }

/-- IN_LEN holds the header and the padding that byte 0 and byte 1 of IN announce. -/
theorem parsed_lengthConsistent {s : State} (hlen : headerLength s.headerCount ≤ s.inLen.toNat)
    (hpad : ¬ (s.inLen.toNat = headerLength s.headerCount ∧ s.headerPad ≠ 0)) : s.parsed.lengthConsistent = true := by
  simpa [State.lengthConsistent, State.parsed, hlen, imp_iff_not_or] using hpad

/-- The errors HDRPARSE's body can raise. -/
def headerErrors : List Cause := [.capacityIn, .formatTruncated, .formatPadRange, .formatPadNoPayload]

/-- Everything HDRPARSE's body can do. -/
theorem hdrparseBody_cases (s : State) :
    (∃ e, hdrparseBody s = .error e ∧ e ∈ headerErrors) ∨
    hdrparseBody s = .ok s.parsedEmpty ∨
    (hdrparseBody s = .ok s.parsed ∧ s.parsed.lengthConsistent = true) := by
  by_cases hcap : s.inLen.toNat ≤ s.caps.inCap.val
  case neg => exact .inl ⟨_, hdrparseBody_of_not_fits (Nat.not_le.1 hcap), by decide⟩
  by_cases hlen : 2 ≤ s.inLen.toNat
  case pos =>
    have hbody := hdrparseBody_of_two_le hcap hlen
    split_ifs at hbody with hshort hrange hpad
    · exact .inl ⟨_, hbody, by decide⟩
    · exact .inl ⟨_, hbody, by decide⟩
    · exact .inl ⟨_, hbody, by decide⟩
    · exact .inr (.inr ⟨hbody, parsed_lengthConsistent (Nat.not_lt.1 hshort) hpad⟩)
  obtain hzero | hone : s.inLen.toNat = 0 ∨ s.inLen.toNat = 1 := by omega
  · exact .inr (.inl (hdrparseBody_of_inLen_zero (BitVec.eq_of_toNat_eq hzero)))
  · exact .inl ⟨_, hdrparseBody_of_inLen_one (BitVec.eq_of_toNat_eq hone) (hone.ge.trans hcap), by decide⟩

/-! ### The forest of a tree under construction (R161 to R167) -/

/-- Every node is in the working list or the child of a later node, every entry of FT has its leaf, and a working list of
one holds ROOT. -/
structure Forest (s : State) : Prop extends ListInArena s where
  owned : ∀ k < s.node.length, k ∈ s.wl ∨ ∃ j n, k < j ∧ s.node[j]? = some n ∧ k ∈ n.children
  leaves : ∀ e ∈ s.ft, Node.leaf e.sym e.cnt ∈ s.node
  root : s.wlLen = 1 → s.wl = [s.root]

theorem planted_forest {s : State} (h : s.nsym = s.ft.length) : Forest s.planted where
  toListInArena := planted_listInArena h
  owned k hk := .inl (by simpa [State.planted, h] using hk)
  leaves e he := List.mem_map_of_mem he
  root hone := by
    have hnsym : s.nsym = 1 := hone
    simp [State.planted, hnsym]

/-- The two nodes that leave the working list become the children of the node that joins it. -/
theorem joined_forest {s : State} {a b : Nat} {rest : List Nat} (h : Forest s)
    (hs : ssort s.weightOf s.wl = a :: b :: rest) : Forest (s.joined a b rest) where
  toListInArena := joined_listInArena h.toListInArena hs
  owned k hk := by
    simp only [State.joined, List.length_append, List.length_singleton] at hk ⊢
    obtain hnew | hold := Nat.eq_or_lt_of_le (Nat.lt_succ_iff.1 hk)
    · exact .inl (by simp [hnew, h.nnodes])
    obtain hwl | ⟨j, n, hkj, hj, hkn⟩ := h.owned k hold
    · have hsorted : k = a ∨ k = b ∨ k ∈ rest := by
        simpa only [hs, List.mem_cons] using (mem_ssort (w := s.weightOf)).2 hwl
      have hparent : (s.node ++ [.internal (s.weightOf a + s.weightOf b) a b])[s.node.length]? =
          some (.internal (s.weightOf a + s.weightOf b) a b) := by simp
      obtain rfl | rfl | hrest := hsorted
      · exact .inr ⟨_, _, hold, hparent, by simp [Node.children]⟩
      · exact .inr ⟨_, _, hold, hparent, by simp [Node.children]⟩
      · exact .inl (List.mem_append_left _ hrest)
    · have hjlt : j < s.node.length := (List.getElem?_eq_some_iff.1 hj).1
      exact .inr ⟨j, n, hkj, (List.getElem?_append_left hjlt).trans hj, hkn⟩
  leaves e he := List.mem_append_left _ (h.leaves e he)
  root hone := by
    have hlen : s.wl.length = rest.length + 2 := by rw [← ssort_length s.weightOf, hs]; rfl
    have htwo : s.wlLen = 2 := by
      have : s.wlLen - 1 = 1 := hone
      omega
    have hrest : rest = [] := List.eq_nil_of_length_eq_zero (by have := h.wlLen; omega)
    simp [State.joined, htwo, hrest]

theorem mergeOnce_forest {s : State} (h : Forest s) (hlen : 2 ≤ s.wlLen) : Forest (mergeOnce s) := by
  obtain ⟨a, b, rest, hs⟩ := h.exists_sorted hlen
  exact mergeOnce_eq_joined hs ▸ joined_forest h hs

theorem mergeOnce_iterate_forest {n : Nat} {s : State} (h : Forest s) (hlen : s.wlLen = n + 1) :
    Forest (mergeOnce^[n] s) := by
  induction n generalizing s with
  | zero => exact h
  | succ n ih => exact ih (mergeOnce_forest h (by omega)) (by simp [hlen])

/-- What one merge leaves unchanged, any number of merges does. -/
theorem mergeOnce_iterate_keeps {α : Type} {f : State → α} (h : ∀ s, f (mergeOnce s) = f s) (n : Nat) (s : State) :
    f (mergeOnce^[n] s) = f s := by
  induction n generalizing s with
  | zero => rfl
  | succ n ih => exact (ih (mergeOnce s)).trans (h s)

/-- The state BUILD makes: the leaves of FT, merged down to one node. -/
def State.built (s : State) : State := mergeOnce^[s.nsym - 1] s.planted

theorem buildBody_eq_built {s : State} (h : s.status.ftValid = true) (hn : 1 ≤ s.nsym) :
    buildBody s = .ok s.built := buildBody_of_table h hn

theorem built_keeps {α : Type} {f : State → α} (hplanted : ∀ s : State, f s.planted = f s)
    (hmerge : ∀ s, f (mergeOnce s) = f s) (s : State) : f s.built = f s :=
  (mergeOnce_iterate_keeps hmerge _ _).trans (hplanted s)

theorem built_status {s : State} (hn : 1 ≤ s.nsym) :
    s.built.status = { s.status with wlValid := true, treeValid := true, ctValid := false } :=
  mergeOnce_iterate_status (s := s.planted) (Nat.sub_add_cancel hn).symm rfl

theorem built_wlLen {s : State} (hn : 1 ≤ s.nsym) : s.built.wlLen = 1 :=
  (mergeOnce_iterate_wlLen _ _).trans (Nat.sub_sub_self hn)

theorem built_forest {s : State} (h : s.nsym = s.ft.length) (hn : 1 ≤ s.nsym) : Forest s.built :=
  mergeOnce_iterate_forest (planted_forest h) (Nat.sub_add_cancel hn).symm

/-! ### The code table of a finished tree has every symbol (R181, R184) -/

/-- The walk of an internal node holds the walk of each child, one turn shorter. -/
theorem walk_of_child {nodeOf : Nat → Node} {n j k : Nat} (hk : k ∈ (nodeOf j).children) (c : List Bool) :
    ∃ c', walk nodeOf n k c' ⊆ walk nodeOf (n + 1) j c := by
  cases hj : nodeOf j with
  | leaf b w => simp [hj, Node.children] at hk
  | internal w l r =>
    have hlr : k = l ∨ k = r := by simpa [hj, Node.children] using hk
    simp only [walk, hj]
    obtain rfl | rfl := hlr
    · exact ⟨c ++ [false], List.subset_append_left _ _⟩
    · exact ⟨c ++ [true], List.subset_append_right _ _⟩

/-- The walk from ROOT comes to every node, with a turn left to look at it: ROOT is in reach, and the children of a node in
reach are. The measure is how far the node is from the end of the arena, for parents stand behind their children. -/
theorem Forest.walk_subset_codeTable {s : State} (h : Forest s) (hone : s.wlLen = 1) {k : Nat} (hk : k < s.node.length) :
    ∃ n c, k < n ∧ walk s.nodeAt n k c ⊆ s.codeTable := by
  obtain hwl | ⟨j, node, hkj, hj, hchild⟩ := h.owned k hk
  · have hroot : k = s.root := by simpa [h.root hone] using hwl
    exact ⟨s.nnodes, [], h.nnodes ▸ hk, hroot ▸ List.Subset.refl _⟩
  · obtain ⟨hjlt, hnode⟩ := List.getElem?_eq_some_iff.1 hj
    obtain ⟨n, c, hn, hsub⟩ := h.walk_subset_codeTable hone hjlt
    obtain ⟨m, rfl⟩ := Nat.exists_eq_add_of_lt hn
    have hmem : k ∈ (s.nodeAt j).children := by rwa [nodeAt_of_lt hjlt, hnode]
    obtain ⟨c', hc'⟩ := walk_of_child (n := j + m) hmem c
    exact ⟨j + m, c', by omega, List.Subset.trans hc' hsub⟩
termination_by s.node.length - k

theorem Forest.codeOf_isSome {s : State} (h : Forest s) (hone : s.wlLen = 1) {e : FtEntry} (he : e ∈ s.ft) :
    (codeOf s.codeTable e.sym).isSome := by
  obtain ⟨k, hk, hleaf⟩ := List.getElem_of_mem (h.leaves e he)
  obtain ⟨n, c, hn, hsub⟩ := h.walk_subset_codeTable hone hk
  obtain ⟨m, rfl⟩ := Nat.exists_eq_add_of_lt hn
  have hwalk : walk s.nodeAt (k + m + 1) k c = [⟨e.sym, c.length, bitVal c⟩] := by
    simp [walk, nodeAt_of_lt hk, hleaf]
  exact List.find?_isSome.2 ⟨_, hsub (hwalk ▸ List.mem_singleton_self _), by simp⟩

/-! ### ENCODE after its flags (R191) -/

theorem encodeReady_iff (s : State) : s.encodeReady = true ↔ s.status.ftValid = true ∧ s.status.ctValid = true := by
  simp [State.encodeReady]

theorem measure_of_codes {ct : List CodeTuple} {bs : List Byte} (h : ∀ b ∈ bs, (codeOf ct b).isSome) (n : Nat) :
    ∃ bits, measure ct bs n = .ok bits := by
  induction bs generalizing n with
  | nil => exact ⟨n, rfl⟩
  | cons b bs ih =>
    obtain ⟨hb, hbs⟩ := List.forall_mem_cons.1 h
    obtain ⟨t, ht⟩ := Option.isSome_iff_exists.1 hb
    simpa [measure, ht] using ih hbs (n + t.len)

/-- With its flags set and a code for every input byte only the capacities can stop ENCODE. -/
theorem encodeBody_cases_of_codes {s : State} (hready : s.encodeReady = true)
    (hcodes : ∀ b ∈ s.input, (codeOf s.ct b).isSome) :
    encodeBody s = .error .capacityIn ∨ encodeBody s = .error .capacityOut ∨
    ∃ bits, encodeBody s = .ok (s.encoded bits) := by
  obtain ⟨bits, hbits⟩ := measure_of_codes hcodes 0
  cases hfits : s.inputFits with
  | false => exact .inl (by simp [encodeBody, hready, hfits])
  | true =>
    obtain hcap | hcap := Nat.lt_or_ge s.caps.outCap.val (headerLength s.nsym + payloadLength bits)
    · exact .inr (.inl (by simp [encodeBody, hready, hfits, hbits, hcap]))
    · exact .inr (.inr ⟨bits, encodeBody_of_measure hready hfits hbits hcap⟩)

/-! ### DECODE after its flags (R213, R214) -/

theorem decodeReady_iff (s : State) : s.decodeReady = true ↔ s.status.hdrValid = true ∧ s.status.treeValid = true := by
  simp [State.decodeReady]

theorem decodeBits_error {nodeOf : Nat → Node} {root cap cur n : Nat} {bits : List Bool} {e : Cause}
    (h : decodeBits nodeOf root cap bits cur n = .error e) : e = .formatMidCode ∨ e = .capacityOut := by
  induction bits generalizing cur n e with
  | nil =>
    unfold decodeBits at h
    split at h <;> cases h
    exact .inl rfl
  | cons b bs ih =>
    unfold decodeBits at h
    split at h
    next => cases h; exact .inl rfl
    next =>
      dsimp only at h
      split at h
      next => exact ih h
      next =>
        split at h
        next =>
          split at h <;> cases h
          next hrest => exact ih hrest
        next => cases h; exact .inr rfl

theorem decoded_error {s : State} {e : Cause} (h : s.decoded = .error e) :
    e = .formatMidCode ∨ e = .formatSinglePayload ∨ e = .capacityOut := by
  cases hroot : s.nodeAt s.root with
  | leaf b w =>
    rw [decoded_of_root_leaf hroot] at h
    split_ifs at h <;> cases h
    · exact .inr (.inl rfl)
    · exact .inr (.inr rfl)
  | internal w l r =>
    simp only [State.decoded, hroot] at h
    exact (decodeBits_error h).imp_right .inr

/-- The errors DECODE's body can raise when its flags are set and IN_LEN is consistent. -/
def decodeErrors : List Cause := [.capacityIn, .formatMidCode, .formatSinglePayload, .capacityOut]

/-- With its flags set and IN_LEN consistent DECODE has no Sequence error to raise. -/
theorem decodeBody_cases_of_consistent {s : State} (hready : s.decodeReady = true) (hlen : s.lengthConsistent = true) :
    (∃ e, decodeBody s = .error e ∧ e ∈ decodeErrors) ∨
    ∃ out, decodeBody s = .ok (s.unpacked out) := by
  cases hfits : s.inputFits with
  | false => exact .inl ⟨_, by simp [decodeBody, hready, hfits]; rfl, by decide⟩
  | true =>
    cases hdec : s.decoded with
    | ok out => exact .inr ⟨out, by simp only [decodeBody, hready, hfits, hlen, hdec]; rfl⟩
    | error e =>
      exact .inl ⟨e, by simp [decodeBody, hready, hfits, hlen, hdec], by simp [decodeErrors, decoded_error hdec]⟩

/-! ### The x marks of R242 for the commands with no precondition -/

/-- What R242 lets the body of the command `i` answer: a state with ERR = 0, or an error with an x mark. -/
def FollowsTable (i : Instr) : Except Cause State → Prop
  | .ok t => t.status.err = false
  | .error e => mayRaise i e = true

theorem headerErrors_marked : ∀ e ∈ headerErrors, mayRaise .hdrparse e = true ∧ mayRaise .decompress e = true := by
  decide

theorem decodeErrors_marked : ∀ e ∈ decodeErrors, mayRaise .decompress e = true := by decide

theorem freqBody_followsTable {s : State} (herr : s.status.err = false) : FollowsTable .freq (freqBody s) := by
  obtain h | ⟨b, h⟩ | ⟨ft, -, h⟩ := freqBody_cases s <;> rw [h]
  · rfl
  · rfl
  · exact herr

theorem hdrparseBody_followsTable {s : State} (herr : s.status.err = false) :
    FollowsTable .hdrparse (hdrparseBody s) := by
  obtain ⟨e, h, he⟩ | h | ⟨h, -⟩ := hdrparseBody_cases s <;> rw [h]
  · exact (headerErrors_marked e he).1
  · exact herr
  · exact herr

/-- The state that ENCODE finds in COMPRESS has a code for every input byte. -/
theorem compress_codes {s : State} {ft : List FtEntry} (hcount : countAll s.input [] = .ok ft) (hn : 1 ≤ ft.length) :
    ∀ b ∈ s.input, (codeOf (s.tabled ft).built.codeTable b).isSome := by
  intro b hb
  obtain ⟨e, he, rfl⟩ := List.mem_map.1 (mem_syms_of_countAll hcount (.inl hb))
  have hft : (s.tabled ft).built.ft = ft := built_keeps (f := State.ft) (fun _ => rfl) (fun _ => rfl) (s.tabled ft)
  have hforest : Forest (s.tabled ft).built := built_forest (s := s.tabled ft) rfl hn
  exact hforest.codeOf_isSome (built_wlLen (s := s.tabled ft) hn) (hft.symm ▸ he)

theorem compressBody_followsTable {s : State} (herr : s.status.err = false) :
    FollowsTable .compress (compressBody s) := by
  obtain h | ⟨b, h⟩ | ⟨ft, hcount, h⟩ := freqBody_cases s
  · simp [compressBody, h, FollowsTable, mayRaise]
  · simp [compressBody, h, FollowsTable, mayRaise]
  obtain hempty | hn : ft.length = 0 ∨ 1 ≤ ft.length := by omega
  · have hput : compressBody s = .ok (s.tabled ft).putEmpty := by
      simp only [compressBody, h]
      exact if_pos hempty
    exact hput ▸ herr
  · have hstatus := built_status (s := s.tabled ft) hn
    have hinput : (s.tabled ft).built.input = s.input := built_keeps (fun _ => rfl) (fun _ => rfl) (s.tabled ft)
    rw [compressBody_of_stages h (Nat.one_le_iff_ne_zero.1 hn) (buildBody_eq_built rfl hn)
      (codegenBody_of_tree (by rw [hstatus]))]
    have hready : (s.tabled ft).built.coded.encodeReady = true :=
      (encodeReady_iff _).2 ⟨congrArg Status.ftValid hstatus, rfl⟩
    have hcodes : ∀ b ∈ (s.tabled ft).built.coded.input, (codeOf (s.tabled ft).built.codeTable b).isSome :=
      hinput ▸ compress_codes hcount hn
    obtain he | he | ⟨bits, he⟩ := encodeBody_cases_of_codes hready hcodes <;> rw [he]
    · rfl
    · rfl
    · exact (congrArg Status.err hstatus).trans herr

theorem decompressBody_followsTable {s : State} (herr : s.status.err = false) :
    FollowsTable .decompress (decompressBody s) := by
  obtain ⟨e, h, he⟩ | h | ⟨h, hlen⟩ := hdrparseBody_cases s
  · rw [decompressBody_of_hdrparseBody_error h]
    exact (headerErrors_marked e he).2
  · have hput : decompressBody s = .ok s.parsedEmpty.putEmpty := by
      simp only [decompressBody, h]
      rfl
    exact hput ▸ herr
  · have hn : 1 ≤ s.parsed.nsym := Nat.le_add_left 1 _
    have hstatus := built_status hn
    have hstages : decompressBody s = decodeBody s.parsed.built := by
      simp only [decompressBody, h, buildBody_eq_built (s := s.parsed) rfl hn, Nat.one_le_iff_ne_zero.1 hn, if_false]
    have hready : s.parsed.built.decodeReady = true :=
      (decodeReady_iff _).2 ⟨congrArg Status.hdrValid hstatus, congrArg Status.treeValid hstatus⟩
    have hconsistent : s.parsed.built.lengthConsistent = true :=
      (built_keeps (fun _ => rfl) (fun _ => rfl) s.parsed).trans hlen
    obtain ⟨e, hdec, he⟩ | ⟨out, hdec⟩ := decodeBody_cases_of_consistent hready hconsistent <;> rw [hstages, hdec]
    · exact decodeErrors_marked e he
    · exact (congrArg Status.err hstatus).trans herr

/-- A command whose body follows the table ends in no error but those the table marks for it. -/
theorem run_error_followsTable {i : Instr} {body : State → Except Cause State} {s t : State}
    (hbody : FollowsTable i (body s.fresh)) (hs : s.status.err = false) (h : run body s = .next t)
    (ht : t.status.err = true) : ∃ e, mayRaise i e = true ∧ t = raise e s.fresh := by
  obtain ⟨hrefused, -⟩ | ⟨-, u, hu, rfl⟩ | ⟨-, e, he, rfl⟩ := run_cases h
  · simp [hs] at hrefused
  · rw [hu] at hbody
    exact absurd (hbody.symm.trans ht) Bool.false_ne_true
  · rw [he] at hbody
    exact ⟨e, hbody, rfl⟩

/-- The table has no x mark for NOP and CLEAR, and none under Sequence for the four commands that clear first. -/
theorem code_ne_four_of_mayRaise {i : Instr} {e : Cause}
    (hi : i ∈ [Instr.freq, .hdrparse, .compress, .decompress, .nop, .clear]) (h : mayRaise i e = true) : e.code ≠ 4 := by
  simp only [List.mem_cons, List.not_mem_nil, or_false] at hi
  cases e with
  | sequence op => obtain rfl | rfl | rfl | rfl | rfl | rfl := hi <;> cases h
  | noCode b => obtain rfl | rfl | rfl | rfl | rfl | rfl := hi <;> cases h
  | _ => simp [Cause.code]

/-- R242 for the commands with no precondition. -/
theorem exec_error_of_no_precondition {i : Instr} {s t : State}
    (hi : i ∈ [Instr.freq, .hdrparse, .compress, .decompress, .nop, .clear]) (hs : s.status.err = false)
    (h : exec i s = .next t) (ht : t.status.err = true) : ∃ e, mayRaise i e = true ∧ t = raise e s.fresh := by
  simp only [List.mem_cons, List.not_mem_nil, or_false] at hi
  obtain rfl | rfl | rfl | rfl | rfl | rfl := hi
  · exact run_error_followsTable (freqBody_followsTable (s := s.fresh) hs) hs h ht
  · exact run_error_followsTable (hdrparseBody_followsTable (s := s.fresh) hs) hs h ht
  · exact run_error_followsTable (compressBody_followsTable (s := s.fresh) hs) hs h ht
  · exact run_error_followsTable (decompressBody_followsTable (s := s.fresh) hs) hs h ht
  · cases (exec_nop_of_not_err hs).symm.trans h
    exact absurd (hs.symm.trans ht) Bool.false_ne_true
  · cases (exec_clear s).symm.trans h
    cases ht

/-! ### The stage commands without their preconditions (R244) -/

theorem codegenBody_of_not_ready {s : State} (h : ¬ s.codegenReady = true) : codegenBody s = .error (.sequence 0x3) := by
  simp [codegenBody, h]

theorem encodeBody_of_not_ready {s : State} (h : ¬ s.encodeReady = true) : encodeBody s = .error (.sequence 0x4) := by
  simp [encodeBody, h]

theorem decodeBody_of_not_ready {s : State} (h : ¬ s.decodeReady = true) : decodeBody s = .error (.sequence 0x6) := by
  simp [decodeBody, h]

theorem decodeBody_of_not_consistent {s : State} (hready : s.decodeReady = true) (hfits : s.inputFits = true)
    (h : ¬ s.lengthConsistent = true) : decodeBody s = .error (.sequence 0x6) := by
  simp [decodeBody, hready, hfits, h]

theorem not_lengthConsistent_iff (s : State) : ¬ s.lengthConsistent = true ↔
    s.inLen.toNat < s.hlen ∨ (s.inLen.toNat = s.hlen ∧ s.padBits ≠ 0) := by
  simp only [State.lengthConsistent, Bool.and_eq_true, decide_eq_true_eq, Bool.not_eq_true', not_and_or, not_le,
    Bool.not_eq_false, beq_iff_eq, bne_iff_ne]

/-! ### The obligation -/

/-- Settles O21: the commands with no precondition by the table of R242, each stage command by its `require` lines. -/
theorem sequencePreconditions : Obligations.SequencePreconditions := by
  intro s herr
  refine ⟨fun i t hi hexec ht => ?others, fun hft => ⟨?seed, ?build⟩, fun hwl => ?merge, fun htree => ?codegen,
    fun hflags => ?encode, fun hflags => ?decode, fun hhdr htree hcap hlen => ?decodeLength⟩
  case others =>
    obtain ⟨e, he, rfl⟩ := exec_error_of_no_precondition hi herr hexec ht
    exact code_ne_four_of_mayRaise hi he
  case seed => exact run_error herr (seedBody_of_no_table 0xA (s := s.fresh) hft)
  case build =>
    exact run_error herr (buildBody_of_seedBody_error (seedBody_of_no_table 0x2 (s := s.fresh) hft))
  case merge => exact exec_merge_of_not_ready herr (mt (mergeReady_iff s).1 hwl)
  case codegen => exact run_error herr (codegenBody_of_not_ready (s := s.fresh) (Bool.eq_false_iff.1 htree))
  case encode => exact run_error herr (encodeBody_of_not_ready (s := s.fresh) (mt (encodeReady_iff s).1 hflags))
  case decode => exact run_error herr (decodeBody_of_not_ready (s := s.fresh) (mt (decodeReady_iff s).1 hflags))
  case decodeLength =>
    exact run_error herr (decodeBody_of_not_consistent (s := s.fresh) ((decodeReady_iff s).2 ⟨hhdr, htree⟩)
      (inputFits_of_le hcap) ((not_lengthConsistent_iff s).2 hlen))

end Sys2Proof.Machine

/-! ## Refusal while ERR = 1 (R243, R281)

Step 1 of R243 stands in front of every command but CLEAR, and in front of IllegalCommand for the words that are no
command's. -/

namespace Sys2Proof.Machine

/-- NOP has the refusal in its own definition, the ten commands that run a body have it from `run`. -/
theorem exec_refused {i : Instr} {s : State} (hi : i ≠ .clear) (herr : s.status.err = true) :
    exec i s = .next s := by
  cases i with
  | clear => exact absurd rfl hi
  | nop => exact exec_nop_of_err herr
  | _ => exact run_refused herr

theorem illegalCommand_refused {c : Word} {s : State} (herr : s.status.err = true) :
    illegalCommand c s = .next s :=
  if_pos herr

/-! ### The obligation -/

/-- Settles O17: the word decodes to a command, which by its word is not CLEAR, or to none; each is refused. -/
theorem refusedWhileErrorStands : Obligations.RefusedWhileErrorStands := by
  intro s c rest h herr hc
  cases hdec : decodeWord c with
  | ok i =>
    have hword : c = encode i := (decodeWord_eq_ok_iff c i).1 hdec
    have hi : i ≠ .clear := by
      rintro rfl
      exact hc hword
    exact (step_of_command h hdec).trans (exec_refused hi herr)
  | error e => exact (step_of_illegal_word h hdec).trans (illegalCommand_refused herr)

end Sys2Proof.Machine

/-! ## What every command can do (R16, R81, R242, R247)

One lemma per command body says everything it can answer, and one lemma says the same of `exec`; the frame of the input,
the error entry, the table of errors and DONE follow from them. -/

namespace Sys2Proof.Machine

/-! ### The bodies -/

theorem seedBody_cases (op : BitVec 4) (s : State) :
    seedBody op s = .error (.sequence op) ∨ seedBody op s = .error .degenerate ∨
    (s.status.ftValid = true ∧ 1 ≤ s.nsym ∧ seedBody op s = .ok s.planted) := by
  cases hft : s.status.ftValid with
  | false => exact .inl (seedBody_of_no_table op hft)
  | true =>
    obtain hn | hn : s.nsym = 0 ∨ 1 ≤ s.nsym := by omega
    · exact .inr (.inl (seedBody_of_empty_table op hft hn))
    · exact .inr (.inr ⟨rfl, hn, seedBody_of_table op hft hn⟩)

theorem mergeBody_cases (s : State) :
    mergeBody s = .error (.sequence 0xB) ∨
    (s.status.wlValid = true ∧ 2 ≤ s.wlLen ∧ mergeBody s = .ok (mergeOnce s)) := by
  cases hready : s.mergeReady with
  | false => exact .inl (by simp [mergeBody, hready])
  | true =>
    obtain ⟨hvalid, hlen⟩ := (mergeReady_iff s).1 hready
    exact .inr ⟨hvalid, hlen, by simp [mergeBody, hready]⟩

theorem buildBody_cases (s : State) :
    buildBody s = .error (.sequence 0x2) ∨ buildBody s = .error .degenerate ∨
    (s.status.ftValid = true ∧ 1 ≤ s.nsym ∧ buildBody s = .ok s.built) := by
  obtain h | h | ⟨hft, hn, -⟩ := seedBody_cases 0x2 s
  · exact .inl (buildBody_of_seedBody_error h)
  · exact .inr (.inl (buildBody_of_seedBody_error h))
  · exact .inr (.inr ⟨hft, hn, buildBody_eq_built hft hn⟩)

theorem codegenBody_cases (s : State) :
    codegenBody s = .error (.sequence 0x3) ∨ (s.status.treeValid = true ∧ codegenBody s = .ok s.coded) := by
  cases htree : s.status.treeValid with
  | false => exact .inl (codegenBody_of_not_ready (Bool.eq_false_iff.1 htree))
  | true => exact .inr ⟨rfl, codegenBody_of_tree htree⟩

theorem measure_error {ct : List CodeTuple} {bs : List Byte} {n : Nat} {e : Cause} (h : measure ct bs n = .error e) :
    ∃ b, e = .noCode b := by
  induction bs generalizing n with
  | nil => cases h
  | cons b bs ih =>
    unfold measure at h
    split at h
    · cases h; exact ⟨b, rfl⟩
    · exact ih h

/-- When ENCODE's tests pass (R191). -/
structure EncodeChecked (s : State) (bits : Nat) : Prop where
  ready : s.encodeReady = true
  fits : s.inputFits = true
  measured : measure s.ct s.input 0 = .ok bits
  room : headerLength s.nsym + payloadLength bits ≤ s.caps.outCap.val

theorem EncodeChecked.encodeBody_eq {s : State} {bits : Nat} (h : EncodeChecked s bits) :
    encodeBody s = .ok (s.encoded bits) := encodeBody_of_measure h.ready h.fits h.measured h.room

theorem encodeBody_cases (s : State) :
    (∃ e, encodeBody s = .error e ∧ mayRaise .encode e = true) ∨ ∃ bits, EncodeChecked s bits := by
  cases hready : s.encodeReady with
  | false => exact .inl ⟨_, encodeBody_of_not_ready (Bool.eq_false_iff.1 hready), rfl⟩
  | true =>
    cases hfits : s.inputFits with
    | false => exact .inl ⟨.capacityIn, by simp [encodeBody, hready, hfits], rfl⟩
    | true =>
      cases hbits : measure s.ct s.input 0 with
      | error e =>
        obtain ⟨b, rfl⟩ := measure_error hbits
        exact .inl ⟨.noCode b, by simp [encodeBody, hready, hfits, hbits], rfl⟩
      | ok bits =>
        obtain hcap | hcap := Nat.lt_or_ge s.caps.outCap.val (headerLength s.nsym + payloadLength bits)
        · exact .inl ⟨.capacityOut, by simp [encodeBody, hready, hfits, hbits, hcap], rfl⟩
        · exact .inr ⟨bits, hready, hfits, hbits, hcap⟩

theorem decodeErrors_marked_decode : ∀ e ∈ decodeErrors, mayRaise .decode e = true := by decide

theorem DecodeChecked.decodeBody_eq {s : State} {out : List Byte} (h : DecodeChecked s) (hd : s.decoded = .ok out) :
    decodeBody s = .ok (s.unpacked out) := by
  simp only [decodeBody, h.ready, h.fits, h.consistent, hd]
  rfl

theorem DecodeChecked.decodeBody_eq_error {s : State} {e : Cause} (h : DecodeChecked s) (hd : s.decoded = .error e) :
    decodeBody s = .error e := by
  simp only [decodeBody, h.ready, h.fits, h.consistent, hd]
  rfl

theorem decodeBody_cases (s : State) :
    (∃ e, decodeBody s = .error e ∧ mayRaise .decode e = true) ∨
    ∃ out, DecodeChecked s ∧ s.decoded = .ok out := by
  cases hready : s.decodeReady with
  | false => exact .inl ⟨_, decodeBody_of_not_ready (Bool.eq_false_iff.1 hready), rfl⟩
  | true =>
    cases hfits : s.inputFits with
    | false => exact .inl ⟨.capacityIn, by simp [decodeBody, hready, hfits], rfl⟩
    | true =>
      cases hlen : s.lengthConsistent with
      | false => exact .inl ⟨_, decodeBody_of_not_consistent hready hfits (Bool.eq_false_iff.1 hlen), rfl⟩
      | true =>
        have hchecked : DecodeChecked s := ⟨hready, hfits, hlen⟩
        cases hdec : s.decoded with
        | ok out => exact .inr ⟨out, hchecked, rfl⟩
        | error e =>
          have he : e ∈ decodeErrors := by simp [decodeErrors, decoded_error hdec]
          exact .inl ⟨e, hchecked.decodeBody_eq_error hdec, decodeErrors_marked_decode e he⟩

/-- The state ENCODE finds in COMPRESS. -/
def State.compressed (s : State) (ft : List FtEntry) : State := (s.tabled ft).built.coded

theorem tabled_built_status {s : State} {ft : List FtEntry} (hn : 1 ≤ ft.length) :
    (s.tabled ft).built.status = { s.status.clearValid with ftValid := true, wlValid := true, treeValid := true } :=
  built_status (s := s.tabled ft) hn

theorem compressBody_of_countAll {s : State} {ft : List FtEntry} (hfits : s.inputFits = true)
    (hcount : countAll s.input [] = .ok ft) (hn : 1 ≤ ft.length) : compressBody s = encodeBody (s.compressed ft) :=
  compressBody_of_stages (freqBody_of_countAll hfits hcount) (Nat.one_le_iff_ne_zero.1 hn)
    (buildBody_eq_built rfl hn) (codegenBody_of_tree (by rw [tabled_built_status hn]))

theorem compressBody_of_countAll_nil {s : State} (hfits : s.inputFits = true) (hcount : countAll s.input [] = .ok []) :
    compressBody s = .ok (s.tabled []).putEmpty := by
  simp only [compressBody, freqBody_of_countAll hfits hcount]
  rfl

theorem freqBody_ok {s t : State} (h : freqBody s = .ok t) :
    ∃ ft, s.inputFits = true ∧ countAll s.input [] = .ok ft ∧ t = s.tabled ft := by
  cases hfits : s.inputFits with
  | false => simp [freqBody, hfits] at h
  | true =>
    cases hcount : countAll s.input [] with
    | error e => simp [freqBody, hfits, hcount] at h
    | ok ft =>
      cases (freqBody_of_countAll hfits hcount).symm.trans h
      exact ⟨ft, rfl, rfl, rfl⟩

theorem compressBody_cases (s : State) :
    (∃ e, freqBody s = .error e ∧ compressBody s = .error e) ∨
    (s.inputFits = true ∧ countAll s.input [] = .ok [] ∧ compressBody s = .ok (s.tabled []).putEmpty) ∨
    ∃ ft, s.inputFits = true ∧ countAll s.input [] = .ok ft ∧ 1 ≤ ft.length ∧
      compressBody s = encodeBody (s.compressed ft) := by
  cases hfreq : freqBody s with
  | error e => exact .inl ⟨e, rfl, by simp [compressBody, hfreq]⟩
  | ok s1 =>
    obtain ⟨ft, hfits, hcount, -⟩ := freqBody_ok hfreq
    obtain rfl | hn : ft = [] ∨ 1 ≤ ft.length := by
      cases ft with
      | nil => exact .inl rfl
      | cons e es => exact .inr (by simp)
    · exact .inr (.inl ⟨hfits, hcount, compressBody_of_countAll_nil hfits hcount⟩)
    · exact .inr (.inr ⟨ft, hfits, hcount, hn, compressBody_of_countAll hfits hcount hn⟩)

theorem decompressBody_of_parsed {s : State} (h : hdrparseBody s = .ok s.parsed) :
    decompressBody s = decodeBody s.parsed.built := by
  have hn : 1 ≤ s.parsed.nsym := Nat.le_add_left 1 _
  simp only [decompressBody, h, buildBody_eq_built (s := s.parsed) rfl hn, Nat.one_le_iff_ne_zero.1 hn, if_false]

theorem decompressBody_cases (s : State) :
    (∃ e, hdrparseBody s = .error e ∧ decompressBody s = .error e) ∨
    (hdrparseBody s = .ok s.parsedEmpty ∧ decompressBody s = .ok s.parsedEmpty.putEmpty) ∨
    (hdrparseBody s = .ok s.parsed ∧ s.parsed.lengthConsistent = true ∧
      decompressBody s = decodeBody s.parsed.built) := by
  obtain ⟨e, h, -⟩ | h | ⟨h, hlen⟩ := hdrparseBody_cases s
  · exact .inl ⟨e, h, decompressBody_of_hdrparseBody_error h⟩
  · exact .inr (.inl ⟨h, by simp only [decompressBody, h]; rfl⟩)
  · exact .inr (.inr ⟨h, hlen, decompressBody_of_parsed h⟩)

/-! ### Every command -/

/-- The body a command runs; NOP and CLEAR have none. -/
def commandBody : Instr → Option (State → Except Cause State)
  | .nop | .clear => none
  | .freq => some freqBody
  | .build => some buildBody
  | .codegen => some codegenBody
  | .encode => some encodeBody
  | .hdrparse => some hdrparseBody
  | .decode => some decodeBody
  | .compress => some compressBody
  | .decompress => some decompressBody
  | .seed => some (seedBody 0xA)
  | .merge => some mergeBody

theorem exec_eq_run {i : Instr} {body : State → Except Cause State} (h : commandBody i = some body) (s : State) :
    exec i s = run body s := by
  cases i <;> cases h <;> rfl

/-- Everything a command can do: be refused, be NOP or CLEAR, complete its body, or raise its body's error. -/
theorem exec_cases {i : Instr} {s t : State} (h : exec i s = .next t) :
    (i ≠ .clear ∧ s.status.err = true ∧ t = s) ∨ (i = .clear ∧ t = clearAll s.fresh) ∨
    (i = .nop ∧ s.status.err = false ∧ t = s.finish) ∨
    ∃ body, commandBody i = some body ∧ s.status.err = false ∧
      ((∃ u, body s.fresh = .ok u ∧ t = u.finish) ∨ ∃ e, body s.fresh = .error e ∧ t = raise e s.fresh) := by
  cases hi : commandBody i with
  | some body =>
    rw [exec_eq_run hi] at h
    have hclear : i ≠ .clear := by
      rintro rfl
      cases hi
    obtain ⟨herr, rfl⟩ | ⟨herr, h⟩ | ⟨herr, h⟩ := run_cases h
    · exact .inl ⟨hclear, herr, rfl⟩
    · exact .inr (.inr (.inr ⟨body, rfl, herr, .inl h⟩))
    · exact .inr (.inr (.inr ⟨body, rfl, herr, .inr h⟩))
  | none =>
    obtain rfl | rfl : i = .nop ∨ i = .clear := by cases i <;> simp [commandBody] at hi <;> simp
    · cases herr : s.status.err with
      | true => cases (exec_nop_of_err herr).symm.trans h; exact .inl ⟨by decide, rfl, rfl⟩
      | false => cases (exec_nop_of_not_err herr).symm.trans h; exact .inr (.inr (.inl ⟨rfl, rfl, rfl⟩))
    · cases (exec_clear s).symm.trans h
      exact .inr (.inl ⟨rfl, rfl⟩)

/-! ### The input is kept (R9, R37, R81) -/

theorem SameInput.refl (s : State) : SameInput s s := ⟨rfl, rfl, rfl, rfl, rfl⟩

theorem SameInput.trans {s t u : State} (h : SameInput s t) (h' : SameInput t u) : SameInput s u where
  caps := h'.caps.trans h.caps
  inLen := h'.inLen.trans h.inLen
  inMem := h'.inMem.trans h.inMem
  host := h'.host.trans h.host
  hostData := h'.hostData.trans h.hostData

theorem built_sameInput (s : State) : SameInput s s.built where
  caps := built_keeps (f := State.caps) (fun _ => rfl) (fun _ => rfl) s
  inLen := built_keeps (f := State.inLen) (fun _ => rfl) (fun _ => rfl) s
  inMem := built_keeps (f := State.inMem) (fun _ => rfl) (fun _ => rfl) s
  host := built_keeps (f := State.host) (fun _ => rfl) (fun _ => rfl) s
  hostData := built_keeps (f := State.hostData) (fun _ => rfl) (fun _ => rfl) s

theorem hdrparseBody_ok {s t : State} (h : hdrparseBody s = .ok t) :
    t = s.parsedEmpty ∨ (t = s.parsed ∧ s.parsed.lengthConsistent = true) := by
  obtain ⟨e, h', -⟩ | h' | ⟨h', hlen⟩ := hdrparseBody_cases s
  · cases h'.symm.trans h
  · cases h'.symm.trans h
    exact .inl rfl
  · cases h'.symm.trans h
    exact .inr ⟨rfl, hlen⟩

theorem seedBody_ok {op : BitVec 4} {s t : State} (h : seedBody op s = .ok t) :
    s.status.ftValid = true ∧ 1 ≤ s.nsym ∧ t = s.planted := by
  obtain h' | h' | ⟨hft, hn, h'⟩ := seedBody_cases op s
  · cases h'.symm.trans h
  · cases h'.symm.trans h
  · cases h'.symm.trans h
    exact ⟨hft, hn, rfl⟩

theorem mergeBody_ok {s t : State} (h : mergeBody s = .ok t) :
    s.status.wlValid = true ∧ 2 ≤ s.wlLen ∧ t = mergeOnce s := by
  obtain h' | ⟨hwl, hlen, h'⟩ := mergeBody_cases s
  · cases h'.symm.trans h
  · cases h'.symm.trans h
    exact ⟨hwl, hlen, rfl⟩

theorem buildBody_ok {s t : State} (h : buildBody s = .ok t) :
    s.status.ftValid = true ∧ 1 ≤ s.nsym ∧ t = s.built := by
  obtain h' | h' | ⟨hft, hn, h'⟩ := buildBody_cases s
  · cases h'.symm.trans h
  · cases h'.symm.trans h
  · cases h'.symm.trans h
    exact ⟨hft, hn, rfl⟩

theorem codegenBody_ok {s t : State} (h : codegenBody s = .ok t) : s.status.treeValid = true ∧ t = s.coded := by
  obtain h' | ⟨htree, h'⟩ := codegenBody_cases s
  · cases h'.symm.trans h
  · cases h'.symm.trans h
    exact ⟨htree, rfl⟩

theorem encodeBody_ok {s t : State} (h : encodeBody s = .ok t) : ∃ bits, EncodeChecked s bits ∧ t = s.encoded bits := by
  obtain ⟨e, h', -⟩ | ⟨bits, hbits⟩ := encodeBody_cases s
  · cases h'.symm.trans h
  · cases hbits.encodeBody_eq.symm.trans h
    exact ⟨bits, hbits, rfl⟩

theorem decodeBody_ok {s t : State} (h : decodeBody s = .ok t) :
    ∃ out, DecodeChecked s ∧ s.decoded = .ok out ∧ t = s.unpacked out := by
  obtain ⟨e, h', -⟩ | ⟨out, hchecked, hdec⟩ := decodeBody_cases s
  · cases h'.symm.trans h
  · cases (hchecked.decodeBody_eq hdec).symm.trans h
    exact ⟨out, hchecked, hdec, rfl⟩

/-- The two ways COMPRESS completes. -/
theorem compressBody_ok {s t : State} (h : compressBody s = .ok t) :
    s.inputFits = true ∧ ((countAll s.input [] = .ok [] ∧ t = (s.tabled []).putEmpty) ∨
      ∃ ft bits, countAll s.input [] = .ok ft ∧ 1 ≤ ft.length ∧ EncodeChecked (s.compressed ft) bits ∧
        t = (s.compressed ft).encoded bits) := by
  obtain ⟨e, -, h'⟩ | ⟨hfits, hcount, h'⟩ | ⟨ft, hfits, hcount, hn, h'⟩ := compressBody_cases s
  · cases h'.symm.trans h
  · cases h'.symm.trans h
    exact ⟨hfits, .inl ⟨hcount, rfl⟩⟩
  · obtain ⟨bits, hbits, rfl⟩ := encodeBody_ok (h'.symm.trans h)
    exact ⟨hfits, .inr ⟨ft, bits, hcount, hn, hbits, rfl⟩⟩

/-- The two ways DECOMPRESS completes. -/
theorem decompressBody_ok {s t : State} (h : decompressBody s = .ok t) :
    (hdrparseBody s = .ok s.parsedEmpty ∧ t = s.parsedEmpty.putEmpty) ∨
    ∃ out, hdrparseBody s = .ok s.parsed ∧ DecodeChecked s.parsed.built ∧ s.parsed.built.decoded = .ok out ∧
      t = s.parsed.built.unpacked out := by
  obtain ⟨e, -, h'⟩ | ⟨hparse, h'⟩ | ⟨hparse, -, h'⟩ := decompressBody_cases s
  · cases h'.symm.trans h
  · cases h'.symm.trans h
    exact .inl ⟨hparse, rfl⟩
  · obtain ⟨out, hchecked, hdec, rfl⟩ := decodeBody_ok (h'.symm.trans h)
    exact .inr ⟨out, hparse, hchecked, hdec, rfl⟩

theorem tabled_sameInput (s : State) (ft : List FtEntry) : SameInput s (s.tabled ft) := ⟨rfl, rfl, rfl, rfl, rfl⟩
theorem parsed_sameInput (s : State) : SameInput s s.parsed := ⟨rfl, rfl, rfl, rfl, rfl⟩
theorem coded_sameInput (s : State) : SameInput s s.coded := ⟨rfl, rfl, rfl, rfl, rfl⟩
theorem encoded_sameInput (s : State) (bits : Nat) : SameInput s (s.encoded bits) := ⟨rfl, rfl, rfl, rfl, rfl⟩
theorem unpacked_sameInput (s : State) (out : List Byte) : SameInput s (s.unpacked out) := ⟨rfl, rfl, rfl, rfl, rfl⟩

theorem compressed_sameInput (s : State) (ft : List FtEntry) : SameInput s (s.compressed ft) :=
  ((tabled_sameInput s ft).trans (built_sameInput _)).trans (coded_sameInput _)

theorem parsed_built_sameInput (s : State) : SameInput s s.parsed.built :=
  (parsed_sameInput s).trans (built_sameInput _)

/-- Every body keeps the input. -/
theorem commandBody_sameInput {i : Instr} {body : State → Except Cause State} (hi : commandBody i = some body)
    {s t : State} (h : body s = .ok t) : SameInput s t := by
  cases i <;> cases hi
  case freq => obtain ⟨ft, -, -, rfl⟩ := freqBody_ok h; exact tabled_sameInput s ft
  case build => obtain ⟨-, -, rfl⟩ := buildBody_ok h; exact built_sameInput s
  case codegen => obtain ⟨-, rfl⟩ := codegenBody_ok h; exact coded_sameInput s
  case encode => obtain ⟨bits, -, rfl⟩ := encodeBody_ok h; exact encoded_sameInput s bits
  case hdrparse =>
    obtain rfl | ⟨rfl, -⟩ := hdrparseBody_ok h
    · exact ⟨rfl, rfl, rfl, rfl, rfl⟩
    · exact parsed_sameInput s
  case decode => obtain ⟨out, -, -, rfl⟩ := decodeBody_ok h; exact unpacked_sameInput s out
  case compress =>
    obtain ⟨-, ⟨-, rfl⟩ | ⟨ft, bits, -, -, -, rfl⟩⟩ := compressBody_ok h
    · exact ⟨rfl, rfl, rfl, rfl, rfl⟩
    · exact (compressed_sameInput s ft).trans (encoded_sameInput _ bits)
  case decompress =>
    obtain ⟨-, rfl⟩ | ⟨out, -, -, -, rfl⟩ := decompressBody_ok h
    · exact ⟨rfl, rfl, rfl, rfl, rfl⟩
    · exact (parsed_built_sameInput s).trans (unpacked_sameInput _ out)
  case seed => obtain ⟨-, -, rfl⟩ := seedBody_ok h; exact ⟨rfl, rfl, rfl, rfl, rfl⟩
  case merge => obtain ⟨-, -, rfl⟩ := mergeBody_ok h; exact ⟨rfl, rfl, rfl, rfl, rfl⟩

/-! ### The table of errors (R242) -/

/-- Every body answers what the table lets it. -/
theorem commandBody_followsTable {i : Instr} {body : State → Except Cause State} (hi : commandBody i = some body)
    {s : State} (herr : s.status.err = false) : FollowsTable i (body s) := by
  cases i <;> cases hi
  case freq => exact freqBody_followsTable herr
  case hdrparse => exact hdrparseBody_followsTable herr
  case compress => exact compressBody_followsTable herr
  case decompress => exact decompressBody_followsTable herr
  case build =>
    obtain h | h | ⟨-, hn, h⟩ := buildBody_cases s <;> rw [h]
    · rfl
    · rfl
    · exact (congrArg Status.err (built_status hn)).trans herr
  case codegen =>
    obtain h | ⟨-, h⟩ := codegenBody_cases s <;> rw [h]
    · rfl
    · exact herr
  case encode =>
    obtain ⟨e, h, he⟩ | ⟨bits, h⟩ := encodeBody_cases s
    · exact h ▸ he
    · exact h.encodeBody_eq ▸ herr
  case decode =>
    obtain ⟨e, h, he⟩ | ⟨out, h, hdec⟩ := decodeBody_cases s
    · exact h ▸ he
    · exact h.decodeBody_eq hdec ▸ herr
  case seed =>
    obtain h | h | ⟨-, -, h⟩ := seedBody_cases 0xA s <;> rw [h]
    · rfl
    · rfl
    · exact herr
  case merge =>
    obtain h | ⟨-, -, h⟩ := mergeBody_cases s <;> rw [h]
    · rfl
    · exact herr

theorem commandBody_error_marked {i : Instr} {body : State → Except Cause State} (hi : commandBody i = some body)
    {s : State} {e : Cause} (herr : s.status.err = false) (h : body s = .error e) : mayRaise i e = true := by
  have := commandBody_followsTable hi herr
  rwa [h] at this

theorem commandBody_ok_err {i : Instr} {body : State → Except Cause State} (hi : commandBody i = some body)
    {s t : State} (herr : s.status.err = false) (h : body s = .ok t) : t.status.err = false := by
  have := commandBody_followsTable hi herr
  rwa [h] at this

/-- A command that ends in the error state has raised an error of the table. -/
theorem exec_error {i : Instr} {s t : State} (herr : s.status.err = false) (h : exec i s = .next t)
    (ht : t.status.err = true) : ∃ e, mayRaise i e = true ∧ t = raise e s.fresh := by
  obtain ⟨-, herr', -⟩ | ⟨rfl, rfl⟩ | ⟨rfl, -, rfl⟩ | ⟨body, hi, -, ⟨u, hu, rfl⟩ | ⟨e, he, rfl⟩⟩ := exec_cases h
  · simp [herr] at herr'
  · cases ht
  · exact absurd (herr.symm.trans ht) Bool.false_ne_true
  · exact absurd ((commandBody_ok_err hi (s := s.fresh) herr hu).symm.trans ht) Bool.false_ne_true
  · exact ⟨e, commandBody_error_marked hi (s := s.fresh) herr he, rfl⟩

/-- A command that completes has completed its body. -/
theorem exec_ok {i : Instr} {body : State → Except Cause State} (hi : commandBody i = some body) {s t : State}
    (herr : s.status.err = false) (h : exec i s = .next t) (ht : t.status.err = false) :
    ∃ u, body s.fresh = .ok u ∧ t = u.finish := by
  rw [exec_eq_run hi] at h
  obtain ⟨herr', -⟩ | ⟨-, h⟩ | ⟨-, e, -, rfl⟩ := run_cases h
  · simp [herr] at herr'
  · exact h
  · cases ht

/-! ### What the error entry writes (R247) -/

/-- The error entry looks at the state before for the input, the host's side and the draw alone. -/
theorem raise_eq_of_sameInput {s s' : State} (e : Cause) (h : SameInput s s') (hdraw : s'.freeCount = s.freeCount) :
    raise e s' = raise e s := by
  obtain ⟨hcaps, hinLen, hinMem, hhost, hhostData⟩ := h
  simp only [raise, hcaps, hinLen, hinMem, hhost, hhostData, hdraw]

/-! ### The obligations -/

/-- Settles O23: NOP and CLEAR by definition, the ten other commands because `run` always answers. -/
theorem everyCommandEnds : Obligations.EveryCommandEnds := by
  intro i s
  cases hi : commandBody i with
  | some body =>
    rw [exec_eq_run hi]
    exact run_answers_next body s
  | none =>
    obtain rfl | rfl : i = .nop ∨ i = .clear := by cases i <;> simp [commandBody] at hi <;> simp
    · cases herr : s.status.err with
      | true => exact ⟨_, exec_nop_of_err herr⟩
      | false => exact ⟨_, exec_nop_of_not_err herr⟩
    · exact ⟨_, exec_clear s⟩

/-- Settles O25: by what each command can do; the bodies keep the input, and so do the error entry and CLEAR. -/
theorem noCommandWritesTheInput : Obligations.NoCommandWritesTheInput := by
  intro i s t h
  obtain ⟨-, -, rfl⟩ | ⟨-, rfl⟩ | ⟨-, -, rfl⟩ | ⟨body, hi, -, ⟨u, hu, rfl⟩ | ⟨e, -, rfl⟩⟩ := exec_cases h
  · exact .refl _
  · exact ⟨rfl, rfl, rfl, rfl, rfl⟩
  · exact ⟨rfl, rfl, rfl, rfl, rfl⟩
  · obtain ⟨hcaps, hinLen, hinMem, hhost, hhostData⟩ := commandBody_sameInput hi hu
    exact ⟨hcaps, hinLen, hinMem, hhost, hhostData⟩
  · exact ⟨rfl, rfl, rfl, rfl, rfl⟩

/-- Settles O20: the only way into the error state is a body's error, and every body follows the table. -/
theorem errorsFollowTheTable : Obligations.ErrorsFollowTheTable := fun _ _ _ => exec_error

/-- Settles O19: `raise` field by field; and the error a command ends in is the one it raised. -/
theorem errorEntry : Obligations.ErrorEntry := by
  refine ⟨fun _ _ => ⟨rfl, rfl, rfl, rfl, rfl, rfl, rfl, rfl⟩, fun e _ _ => raise_eq_of_sameInput e, ?_⟩
  intro i s t herr h ht
  obtain ⟨e, -, he⟩ := exec_error herr h ht
  exact ⟨e, he⟩

/-- Settles O24: a refusal finds DONE set by the error entry, and every other end but CLEAR's sets it. -/
theorem doneAfterEveryCommandButClear : Obligations.DoneAfterEveryCommandButClear := by
  intro i s t hinv hi h
  obtain ⟨-, herr, rfl⟩ | ⟨rfl, -⟩ | ⟨-, -, rfl⟩ | ⟨body, -, -, ⟨u, -, rfl⟩ | ⟨e, -, rfl⟩⟩ := exec_cases h
  · exact congrArg Status.done (hinv.errored herr).status
  · exact absurd rfl hi
  · rfl
  · rfl
  · rfl

/-- Settles O22: the body of each command tests IN_LEN against IN_CAP right after its flags. -/
theorem inputBeyondCapacity : Obligations.InputBeyondCapacity := by
  intro s herr hcap
  have hfits : s.fresh.inputFits = false := decide_eq_false (Nat.not_le.2 hcap)
  have hfreq : freqBody s.fresh = .error .capacityIn := by simp [freqBody, hfits]
  have hparse : hdrparseBody s.fresh = .error .capacityIn := hdrparseBody_of_not_fits hcap
  refine ⟨run_error herr hfreq, run_error herr hparse, run_error herr (by simp [compressBody, hfreq]),
    run_error herr (decompressBody_of_hdrparseBody_error hparse), fun hft hct => ?encode, fun hhdr htree => ?decode⟩
  case encode =>
    have hready : s.fresh.encodeReady = true := (encodeReady_iff _).2 ⟨hft, hct⟩
    exact run_error herr (by simp [encodeBody, hready, hfits])
  case decode =>
    have hready : s.fresh.decodeReady = true := (decodeReady_iff _).2 ⟨hhdr, htree⟩
    exact run_error herr (by simp [decodeBody, hready, hfits])

end Sys2Proof.Machine

/-! ## The arena through SEED and MERGE (R161 to R168)

The arena of a tree under construction keeps its laws through SEED and every merge, and what the builder makes depends on
its own part of the state alone: not on the draw of free values, nor on anything else. -/

namespace Sys2Proof.Machine

/-! ### The order of R166 -/

/-- `a` comes before `b` in the order of R166: it is lighter, or as heavy and of smaller identifier. -/
abbrev Before (w : Nat → Nat) (a b : Nat) : Prop := w a < w b ∨ (w a = w b ∧ a < b)

/-- The sort keeps the order of equal weights, so it keeps them in the order of their identifiers. -/
theorem ssort_ties {w : Nat → Nat} {xs : List Nat} (h : xs.Pairwise fun a b => w a = w b → a < b) :
    (ssort w xs).Pairwise fun a b => w a = w b → a < b := by
  rw [List.pairwise_iff_forall_sublist] at h ⊢
  intro a b hab hw
  have hsame : [a, b].filter (w · == w a) = [a, b] := by simp [hw]
  have hsub := hab.filter (w · == w a)
  rw [hsame, filter_weight_ssort] at hsub
  exact h (hsub.trans List.filter_sublist) hw

theorem ssort_before {w : Nat → Nat} {xs : List Nat} (h : xs.Pairwise fun a b => w a = w b → a < b) :
    (ssort w xs).Pairwise (Before w) :=
  ((ssort_pairwise w xs).and (ssort_ties h)).imp fun hab =>
    (Nat.lt_or_eq_of_le hab.1).imp_right fun hw => ⟨hw, hab.2 hw⟩

/-! ### The laws of the arena -/

theorem ArenaOk.nsym_le {s : State} (h : ArenaOk s) (hn : s.nsym = s.ft.length) : s.nsym ≤ s.node.length := by
  have := congrArg List.length h.leaves
  simp only [List.length_take, List.length_map] at this
  omega

theorem ArenaOk.lt_of_mem_wl {s : State} (h : ArenaOk s) {k : Nat} (hk : k ∈ s.wl) : k < s.nnodes :=
  List.mem_range.1 (h.owned.mem_iff.1 (List.mem_append_left _ hk))

theorem ArenaOk.getElem_eq_internal {s : State} (h : ArenaOk s) {i w l r : Nat} (hi : i < s.node.length)
    (hn : s.node[i] = .internal w l r) : s.nsym ≤ i ∧ l < i ∧ r < i ∧ w = s.weightOf l + s.weightOf r := by
  have hplace := h.inPlace_getElem hi
  simpa only [hn, nodeInPlace, decide_eq_true_eq] using hplace

/-- A tree under construction: the laws of the arena, and the registers that count its parts (R45, R46, R161 to R167). -/
structure UnderConstruction (s : State) : Prop where
  arena : ArenaOk s
  nsym : s.nsym = s.ft.length
  nnodes : s.nnodes = s.node.length
  wlLen : s.wlLen = s.wl.length
  root : s.wlLen = 1 → s.wl = [s.root]

theorem UnderConstruction.listInArena {s : State} (h : UnderConstruction s) : ListInArena s where
  nnodes := h.nnodes
  wlLen := h.wlLen
  inArena _ hk := h.nnodes ▸ h.arena.lt_of_mem_wl hk

theorem Coherent.underConstruction {s : State} (h : Coherent s) (hwl : s.status.wlValid = true) : UnderConstruction s where
  arena := (h.list hwl).2
  nsym := h.nsym
  nnodes := h.nnodes
  wlLen := h.wlLen
  root hone := (h.tree ((h.finished hwl).2 hone)).2

/-! ### SEED -/

theorem planted_weights {s : State} : s.ft.map FtEntry.cnt = s.planted.node.map Node.weight := by
  simp [State.planted, Node.weight, Function.comp_def]

theorem planted_zipIdx {s : State} (h : s.nsym = s.ft.length) {p : Node × Nat} (hp : p ∈ s.planted.node.zipIdx) :
    nodeInPlace s.planted p.1 p.2 = true := by
  obtain ⟨n, i⟩ := p
  have hget := List.mk_mem_zipIdx_iff_getElem?.1 hp
  simp only [State.planted, List.getElem?_map, Option.map_eq_some_iff] at hget
  obtain ⟨e, he, rfl⟩ := hget
  have hi : i < s.nsym := h ▸ (List.getElem?_eq_some_iff.1 he).1
  exact decide_eq_true hi

/-- The weights of the identifiers 0 to N − 1 are the weights of the first N nodes of an arena. -/
theorem map_weightOf_range {s : State} {n : Nat} (hn : n = s.node.length) :
    (List.range n).map s.weightOf = s.node.map Node.weight := by
  refine List.ext_getElem (by simp [hn]) fun i h1 h2 => ?_
  have hi : i < s.node.length := by simpa using h2
  simp [State.weightOf, nodeAt_of_lt hi]

theorem le_totalCount {ft : List FtEntry} {e : FtEntry} (he : e ∈ ft) : e.cnt ≤ totalCount ft :=
  List.le_sum_of_mem (List.mem_map_of_mem he)

theorem planted_arena {s : State} (h : s.nsym = s.ft.length) (hn : 1 ≤ s.nsym) : ArenaOk s.planted where
  seeded := hn
  leaves := List.take_of_length_le (by simp [State.planted, h])
  inPlace _ hp := planted_zipIdx h hp
  owned := by
    have hleaves : s.planted.node.flatMap Node.children = [] := by
      simp [State.planted, Node.children, List.flatMap_eq_nil_iff]
    rw [hleaves, List.append_nil]
    exact List.Perm.refl _
  counts := (Nat.two_mul _).symm
  nonempty := hn
  total := by
    have hlen : s.nsym = s.planted.node.length := by simp [State.planted, h]
    have hweights := map_weightOf_range hlen
    rw [← planted_weights] at hweights
    exact congrArg List.sum hweights
  bounded n hmem := by
    obtain ⟨e, he, rfl⟩ := List.mem_map.1 hmem
    exact le_totalCount he
  ties := by
    refine List.Pairwise.imp ?_ (List.pairwise_lt_range (n := s.nsym))
    exact fun h _ => h

theorem planted_underConstruction {s : State} (h : s.nsym = s.ft.length) (hn : 1 ≤ s.nsym) :
    UnderConstruction s.planted where
  arena := planted_arena h hn
  nsym := h
  nnodes := (planted_listInArena h).nnodes
  wlLen := (planted_listInArena h).wlLen
  root := (planted_forest h).root

/-! ### MERGE -/

theorem joined_nodeAt {s : State} {a b k : Nat} {rest : List Nat} (hk : k < s.node.length) :
    (s.joined a b rest).nodeAt k = s.nodeAt k := by
  simp [State.nodeAt, State.joined, List.getElem?_append_left hk]

theorem joined_weightOf {s : State} {a b k : Nat} {rest : List Nat} (hk : k < s.node.length) :
    (s.joined a b rest).weightOf k = s.weightOf k := congrArg Node.weight (joined_nodeAt hk)

theorem joined_weightOf_new (s : State) (a b : Nat) (rest : List Nat) :
    (s.joined a b rest).weightOf s.node.length = s.weightOf a + s.weightOf b := by
  simp [State.weightOf, State.nodeAt, State.joined, Node.weight]

theorem perm_of_ssort_eq {w : Nat → Nat} {xs ys : List Nat} (hs : ssort w xs = ys) : xs.Perm ys :=
  hs ▸ (ssort_perm w xs).symm

section
variable {s : State} {a b : Nat} {rest : List Nat} (h : UnderConstruction s)
  (hs : ssort s.weightOf s.wl = a :: b :: rest)
include h hs

theorem UnderConstruction.sorted_lt {k : Nat} (hk : k ∈ a :: b :: rest) : k < s.node.length :=
  h.listInArena.inArena k ((perm_of_ssort_eq hs).mem_iff.2 hk)

theorem UnderConstruction.sorted_before : (a :: b :: rest).Pairwise (Before s.weightOf) := hs ▸ ssort_before h.arena.ties

theorem UnderConstruction.sum_weights :
    s.weightOf a + s.weightOf b + (rest.map s.weightOf).sum = totalCount s.ft := by
  rw [← h.arena.total, ((perm_of_ssort_eq hs).map s.weightOf).sum_eq]
  simp [Nat.add_assoc]

/-- Old nodes stand as they stood, and the new one stands last, the sum of its two children. -/
theorem UnderConstruction.joined_inPlace {p : Node × Nat} (hp : p ∈ (s.joined a b rest).node.zipIdx) :
    nodeInPlace (s.joined a b rest) p.1 p.2 = true := by
  obtain ⟨n, i⟩ := p
  have ha : a < s.node.length := h.sorted_lt hs (by simp)
  have hb : b < s.node.length := h.sorted_lt hs (by simp)
  have hget : (s.node ++ [.internal (s.weightOf a + s.weightOf b) a b])[i]? = some n :=
    List.mk_mem_zipIdx_iff_getElem?.1 hp
  obtain hi | hi := Nat.lt_or_ge i s.node.length
  · rw [List.getElem?_append_left hi, List.getElem?_eq_getElem hi, Option.some_inj] at hget
    subst hget
    have hplace := h.arena.inPlace_getElem hi
    cases hn : s.node[i] with
    | leaf c w =>
      rw [hn] at hplace
      exact hplace
    | internal w l r =>
      obtain ⟨hsym, hl, hr, hw⟩ := h.arena.getElem_eq_internal hi hn
      refine decide_eq_true ⟨hsym, hl, hr, ?_⟩
      rw [joined_weightOf (hl.trans hi), joined_weightOf (hr.trans hi)]
      exact hw
  · obtain rfl : i = s.node.length := by
      have := (List.getElem?_eq_some_iff.1 hget).1
      simp only [List.length_append, List.length_singleton] at this
      omega
    obtain rfl : Node.internal (s.weightOf a + s.weightOf b) a b = n := by simpa using hget
    refine decide_eq_true ⟨h.arena.nsym_le h.nsym, ha, hb, ?_⟩
    rw [joined_weightOf ha, joined_weightOf hb]

/-- The two that leave the working list become the children of the node that joins it. -/
theorem UnderConstruction.joined_owned :
    ((s.joined a b rest).wl ++ (s.joined a b rest).node.flatMap Node.children).Perm
      (List.range (s.joined a b rest).nnodes) :=
  calc
    _ = rest ++ [s.nnodes] ++ (s.node.flatMap Node.children ++ [a, b]) := by simp [State.joined, Node.children]
    _ |>.Perm ((a :: b :: rest) ++ s.node.flatMap Node.children ++ [s.nnodes]) := by
      rw [List.perm_iff_count]
      intro k
      simp only [List.count_append, List.count_cons, List.count_nil]
      omega
    _ |>.Perm (s.wl ++ s.node.flatMap Node.children ++ [s.nnodes]) :=
      ((perm_of_ssort_eq hs).symm.append_right _).append_right _
    _ |>.Perm (List.range s.nnodes ++ [s.nnodes]) := h.arena.owned.append_right _
    _ = List.range (s.joined a b rest).nnodes := List.range_succ.symm

theorem UnderConstruction.joined_total :
    ((s.joined a b rest).wl.map (s.joined a b rest).weightOf).sum = totalCount s.ft := by
  have hrest : rest.map (s.joined a b rest).weightOf = rest.map s.weightOf :=
    List.map_congr_left fun k hk => joined_weightOf (h.sorted_lt hs (by simp [hk]))
  have hnew : (s.joined a b rest).weightOf s.nnodes = s.weightOf a + s.weightOf b :=
    h.nnodes ▸ joined_weightOf_new s a b rest
  rw [← h.sum_weights hs]
  show ((rest ++ [s.nnodes]).map _).sum = _
  rw [List.map_append, List.sum_append, hrest, List.map_singleton, List.sum_singleton, hnew, Nat.add_comm]

/-- The remainder is sorted already, and the new identifier is the greatest. -/
theorem UnderConstruction.joined_ties : (s.joined a b rest).wl.Pairwise fun x y =>
    (s.joined a b rest).weightOf x = (s.joined a b rest).weightOf y → x < y := by
  have hlt : ∀ k ∈ rest, k < s.node.length := fun k hk => h.sorted_lt hs (by simp [hk])
  refine List.pairwise_append.2 ⟨?_, List.pairwise_singleton _ _, fun x hx y hy _ => ?_⟩
  · refine (h.sorted_before hs).of_cons.of_cons.imp_of_mem fun {x y} hx hy hxy hw => ?_
    rw [joined_weightOf (hlt x hx), joined_weightOf (hlt y hy)] at hw
    obtain hxy | hxy := hxy
    · omega
    · exact hxy.2
  · rw [List.mem_singleton.1 hy, h.nnodes]
    exact hlt x hx

theorem UnderConstruction.joined (hlen : 2 ≤ s.wlLen) : UnderConstruction (s.joined a b rest) where
  arena := {
    seeded := h.arena.seeded
    leaves := (List.take_append_of_le_length (h.arena.nsym_le h.nsym)).trans h.arena.leaves
    inPlace _ hp := h.joined_inPlace hs hp
    owned := h.joined_owned hs
    counts := by
      have hcounts := h.arena.counts
      show s.nnodes + 1 + (s.wlLen - 1) = 2 * s.nsym
      omega
    nonempty := Nat.le_sub_one_of_lt hlen
    total := h.joined_total hs
    bounded := by
      intro n hn
      obtain hn | hn := List.mem_append.1 hn
      · exact h.arena.bounded n hn
      · obtain rfl := List.mem_singleton.1 hn
        have hsum := h.sum_weights hs
        show s.weightOf a + s.weightOf b ≤ totalCount s.ft
        omega
    ties := h.joined_ties hs }
  nsym := h.nsym
  nnodes := (joined_listInArena h.listInArena hs).nnodes
  wlLen := (joined_listInArena h.listInArena hs).wlLen
  root hone := by
    have htwo : s.wlLen = 2 := by
      have : s.wlLen - 1 = 1 := hone
      omega
    have hlist : s.wl.length = rest.length + 2 := (perm_of_ssort_eq hs).length_eq
    have hrest : rest = [] := List.eq_nil_of_length_eq_zero (by have := h.wlLen; omega)
    simp [State.joined, htwo, hrest]

end

theorem UnderConstruction.mergeOnce {s : State} (h : UnderConstruction s) (hlen : 2 ≤ s.wlLen) :
    UnderConstruction (mergeOnce s) := by
  obtain ⟨a, b, rest, hs⟩ := h.listInArena.exists_sorted hlen
  exact mergeOnce_eq_joined hs ▸ h.joined hs hlen

theorem UnderConstruction.iterate {n : Nat} {s : State} (h : UnderConstruction s) (hlen : s.wlLen = n + 1) :
    UnderConstruction (Machine.mergeOnce^[n] s) := by
  induction n generalizing s with
  | zero => exact h
  | succ n ih => exact ih (h.mergeOnce (by omega)) (by simp [hlen])

/-! ### BUILD -/

/-- A finished tree with its registers: one node is left in the working list, the root (R167). -/
structure WholeTree (s : State) : Prop extends UnderConstruction s where
  one : s.wlLen = 1

theorem built_wholeTree {s : State} (h : s.nsym = s.ft.length) (hn : 1 ≤ s.nsym) : WholeTree s.built where
  toUnderConstruction := (planted_underConstruction h hn).iterate (Nat.sub_add_cancel hn).symm
  one := built_wlLen hn

theorem Coherent.wholeTree {s : State} (h : Coherent s) (ht : s.status.treeValid = true) : WholeTree s where
  toUnderConstruction := h.underConstruction (h.tree ht).1
  one := (h.finished (h.tree ht).1).1 ht

section
variable {s : State} (h : WholeTree s)
include h

theorem WholeTree.wl_eq : s.wl = [s.root] := h.root h.one

theorem WholeTree.finishedTree : FinishedTree s := by
  have hnodes := h.nnodes
  have hcounts := h.arena.counts
  have hone := h.one
  have hseeded := h.arena.seeded
  refine ⟨h.arena, h.nsym, ?_, by omega⟩
  have hlast : s.nnodes - 1 ∈ s.wl := h.arena.last_mem_wl hnodes (by omega)
  rw [h.wl_eq, List.mem_singleton] at hlast
  omega

theorem WholeTree.nnodes_eq : s.nnodes = 2 * s.nsym - 1 := by
  have := h.nnodes
  have := h.finishedTree.size
  omega

theorem WholeTree.root_eq : s.root = 2 * s.nsym - 2 := by
  have := h.finishedTree.root
  have := h.finishedTree.size
  omega

end

/-! ### The builder's part of the state (R168) -/

/-- Two states agree on what the tree builder reads and writes. -/
structure SameBuilder (s t : State) : Prop where
  nsym : s.nsym = t.nsym
  ft : s.ft = t.ft
  node : s.node = t.node
  nnodes : s.nnodes = t.nnodes
  wl : s.wl = t.wl
  wlLen : s.wlLen = t.wlLen
  root : s.root = t.root

theorem SameBuilder.weightOf {s t : State} (h : SameBuilder s t) {k : Nat} (hk : k < s.node.length) :
    s.weightOf k = t.weightOf k := congrArg Node.weight (nodeAt_congr h.node hk)

theorem SameBuilder.nodeInPlace {s t : State} (h : SameBuilder s t) {n : Node} {i : Nat} (hi : i < s.node.length)
    (hn : nodeInPlace s n i = true) : nodeInPlace t n i = true := by
  cases n with
  | leaf b w => exact decide_eq_true (h.nsym ▸ of_decide_eq_true hn)
  | internal w l r =>
    obtain ⟨hsym, hl, hr, hw⟩ := of_decide_eq_true hn
    exact decide_eq_true ⟨h.nsym ▸ hsym, hl, hr, by rwa [← h.weightOf (hl.trans hi), ← h.weightOf (hr.trans hi)]⟩

/-- The laws of the arena are about the builder's part alone. -/
theorem UnderConstruction.congr {s t : State} (hs : UnderConstruction s) (h : SameBuilder s t) :
    UnderConstruction t := by
  have hlt : ∀ k ∈ s.wl, k < s.node.length := hs.listInArena.inArena
  refine ⟨⟨h.nsym ▸ hs.arena.seeded, ?_, ?_, ?_, ?_, h.wlLen ▸ hs.arena.nonempty, ?_, ?_, ?_⟩, ?_, ?_, ?_, ?_⟩
  · rw [← h.node, ← h.nsym, ← h.ft]
    exact hs.arena.leaves
  · rintro ⟨n, i⟩ hp
    rw [← h.node] at hp
    have hi : i < s.node.length := (List.getElem?_eq_some_iff.1 (List.mk_mem_zipIdx_iff_getElem?.1 hp)).1
    exact h.nodeInPlace hi (hs.arena.inPlace (n, i) hp)
  · rw [← h.node, ← h.wl, ← h.nnodes]
    exact hs.arena.owned
  · rw [← h.nnodes, ← h.wlLen, ← h.nsym]
    exact hs.arena.counts
  · rw [← h.wl, ← h.ft, ← hs.arena.total]
    exact congrArg List.sum (List.map_congr_left fun k hk => (h.weightOf (hlt k hk)).symm)
  · rw [← h.node, ← h.ft]
    exact hs.arena.bounded
  · rw [← h.wl]
    refine hs.arena.ties.imp_of_mem fun {a b} ha hb hab hw => hab ?_
    rwa [h.weightOf (hlt a ha), h.weightOf (hlt b hb)]
  · rw [← h.nsym, ← h.ft]
    exact hs.nsym
  · rw [← h.nnodes, ← h.node]
    exact hs.nnodes
  · rw [← h.wlLen, ← h.wl]
    exact hs.wlLen
  · rw [← h.wlLen, ← h.wl, ← h.root]
    exact hs.root

theorem WholeTree.congr {s t : State} (hs : WholeTree s) (h : SameBuilder s t) : WholeTree t where
  toUnderConstruction := hs.toUnderConstruction.congr h
  one := h.wlLen ▸ hs.one

/-- A merge inside the arena looks at the builder's part alone. -/
theorem SameBuilder.mergeOnce {s t : State} (h : SameBuilder s t) (hs : ListInArena s) (hlen : 2 ≤ s.wlLen) :
    SameBuilder (mergeOnce s) (mergeOnce t) := by
  obtain ⟨a, b, rest, hsort⟩ := hs.exists_sorted hlen
  have hsort' : ssort t.weightOf t.wl = a :: b :: rest := by
    rw [← hsort, ← h.wl]
    exact ssort_congr fun k hk => (h.weightOf (hs.inArena k hk)).symm
  have hmem : ∀ k ∈ a :: b :: rest, k < s.node.length := fun k hk => hs.inArena k (mem_ssort.1 (hsort ▸ hk))
  have ha := h.weightOf (hmem a (by simp))
  have hb := h.weightOf (hmem b (by simp))
  rw [mergeOnce_eq_joined hsort, mergeOnce_eq_joined hsort']
  constructor <;> simp [State.joined, ha, hb, h.nsym, h.ft, h.node, h.nnodes, h.wlLen, h.root]

theorem SameBuilder.iterate {n : Nat} {s t : State} (h : SameBuilder s t) (hs : ListInArena s) (hlen : s.wlLen = n + 1) :
    SameBuilder (Machine.mergeOnce^[n] s) (Machine.mergeOnce^[n] t) := by
  induction n generalizing s t with
  | zero => exact h
  | succ n ih =>
    have hlen2 : 2 ≤ s.wlLen := by omega
    exact ih (h.mergeOnce hs hlen2) (mergeOnce_listInArena hs hlen2) (by simp [hlen])

/-- BUILD's tree is a function of the table alone. -/
theorem built_sameBuilder {s t : State} (hn : s.nsym = t.nsym) (hft : s.ft = t.ft) (hs : s.nsym = s.ft.length)
    (hpos : 1 ≤ s.nsym) : SameBuilder s.built t.built := by
  have hplanted : SameBuilder s.planted t.planted := by
    constructor <;> simp [State.planted, hn, hft]
  have := hplanted.iterate (planted_listInArena hs) (Nat.sub_add_cancel hpos).symm
  rw [State.built, State.built, ← hn]
  exact this

/-- A state that holds the table `ft` and nothing else. -/
def tableState (ft : List FtEntry) : State := { State.reset with ft := ft, nsym := ft.length }

/-- BUILD's tree is that of `treeOf` (R168). -/
theorem treeOf_sameBuilder {ft : List FtEntry} (hn : 1 ≤ ft.length) : SameBuilder (tableState ft).built (treeOf ft) := by
  have hloop := mergeLoop_eq_iterate (n := ft.length) (s := { State.reset with
    ft := ft, nsym := ft.length, node := ft.map fun e => .leaf e.sym e.cnt, nnodes := ft.length
    wl := List.range ft.length, wlLen := ft.length }) (Nat.le_succ _)
  have hplanted : SameBuilder (tableState ft).planted { State.reset with
      ft := ft, nsym := ft.length, node := ft.map fun e => .leaf e.sym e.cnt, nnodes := ft.length
      wl := List.range ft.length, wlLen := ft.length } := ⟨rfl, rfl, rfl, rfl, rfl, rfl, rfl⟩
  rw [treeOf, hloop]
  exact hplanted.iterate (planted_listInArena rfl) (Nat.sub_add_cancel hn).symm

theorem built_sameBuilder_treeOf {s : State} (hs : s.nsym = s.ft.length) (hpos : 1 ≤ s.nsym) :
    SameBuilder s.built (treeOf s.ft) := by
  have htable := built_sameBuilder (s := s) (t := tableState s.ft) hs rfl hs hpos
  obtain ⟨h1, h2, h3, h4, h5, h6, h7⟩ := treeOf_sameBuilder (ft := s.ft) (hs ▸ hpos)
  exact ⟨htable.nsym.trans h1, htable.ft.trans h2, htable.node.trans h3, htable.nnodes.trans h4, htable.wl.trans h5,
    htable.wlLen.trans h6, htable.root.trans h7⟩

theorem treeOf_wholeTree {ft : List FtEntry} (hn : 1 ≤ ft.length) : WholeTree (treeOf ft) :=
  (built_wholeTree (s := tableState ft) rfl hn).congr (treeOf_sameBuilder hn)

end Sys2Proof.Machine

/-! ## The tree in the arena and its codes (R166 to R168, R180 to R184)

An arena holds a tree below each of its nodes. The walk of CODEGEN lists the leaves of the tree below ROOT with their paths,
so the laws of the code table are laws of the paths of a tree, each by induction over the tree. -/

namespace Sys2Proof.Machine

/-! ### Bit-strings (R11) -/

theorem bitsOf_succ (k v : Nat) : bitsOf (k + 1) v = bitsOf k (v / 2) ++ [v % 2 == 1] := by
  have hprefix : ∀ t ∈ List.range k, ((v >>> (k - t)) % 2 == 1) = (((v / 2) >>> (k - 1 - t)) % 2 == 1) := fun t ht => by
    have hshift : k - t = 1 + (k - 1 - t) := by have := List.mem_range.1 ht; omega
    rw [hshift, Nat.shiftRight_add, Nat.shiftRight_one]
  simp only [bitsOf, List.range_succ, List.map_append, Nat.add_sub_cancel, List.map_singleton, Nat.sub_self]
  rw [List.map_congr_left hprefix]
  rfl

theorem bitVal_append_singleton (c : List Bool) (b : Bool) : bitVal (c ++ [b]) = 2 * bitVal c + b.toNat := by
  rw [bitVal_append, bitVal_singleton, List.length_singleton]
  omega

/-- bits_k is the inverse of val on bit-strings of length k (R11). -/
theorem bitsOf_bitVal (c : List Bool) : bitsOf c.length (bitVal c) = c := by
  induction c using List.reverseRecOn with
  | nil => rfl
  | append_singleton c b ih =>
    have hhalf : (2 * bitVal c + b.toNat) / 2 = bitVal c := by have := Bool.toNat_lt b; omega
    have hlast : ((2 * bitVal c + b.toNat) % 2 == 1) = b := by cases b <;> simp
    rw [List.length_append, List.length_singleton, bitVal_append_singleton, bitsOf_succ, hhalf, hlast, ih]

/-- The tuple of a code. -/
def tupleOf (b : Byte) (c : List Bool) : CodeTuple := ⟨b, c.length, bitVal c⟩

@[simp] theorem tupleOf_sym (b : Byte) (c : List Bool) : (tupleOf b c).sym = b := rfl
@[simp] theorem tupleOf_len (b : Byte) (c : List Bool) : (tupleOf b c).len = c.length := rfl
@[simp] theorem tupleOf_bits (b : Byte) (c : List Bool) : (tupleOf b c).bits = c := bitsOf_bitVal c

/-! ### Trees over an arena -/

@[simp] theorem Node.isLeaf_leaf (b : Byte) (w : Nat) : (Node.leaf b w).isLeaf = true := rfl
@[simp] theorem Node.isLeaf_internal (w l r : Nat) : (Node.internal w l r).isLeaf = false := rfl

/-- The tree below a node of the arena, with the identifiers of its nodes. -/
inductive ArenaTree where
  | leaf (id : Nat) (sym : Byte) (weight : Nat)
  | fork (id : Nat) (left right : ArenaTree)

/-- A leaf of a tree and the path to it: 0 to the left child, 1 to the right. -/
structure LeafPath where
  bits : List Bool
  id : Nat
  sym : Byte
  weight : Nat

/-- The path seen from the parent. -/
def LeafPath.below (b : Bool) (p : LeafPath) : LeafPath := { p with bits := b :: p.bits }

/-- The tuple CODEGEN makes of a leaf. -/
def LeafPath.tuple (p : LeafPath) : CodeTuple := tupleOf p.sym p.bits

/-- The node a leaf is. -/
def LeafPath.node (p : LeafPath) : Node := .leaf p.sym p.weight

/-- The entry of FT a leaf stands for. -/
def LeafPath.entry (p : LeafPath) : FtEntry := ⟨p.sym, p.weight⟩

@[simp] theorem LeafPath.tuple_bits (p : LeafPath) : p.tuple.bits = p.bits := tupleOf_bits _ _

namespace ArenaTree

/-- The identifier of the tree's root. -/
def root : ArenaTree → Nat
  | leaf k _ _ => k
  | fork k _ _ => k

@[simp] theorem root_leaf (k : Nat) (b : Byte) (w : Nat) : (leaf k b w).root = k := rfl
@[simp] theorem root_fork (k : Nat) (l r : ArenaTree) : (fork k l r).root = k := rfl

/-- The identifiers of the tree's nodes. -/
def ids : ArenaTree → List Nat
  | leaf k _ _ => [k]
  | fork k l r => k :: (l.ids ++ r.ids)

/-- The leaves in left-to-right order. -/
def leaves : ArenaTree → List LeafPath
  | leaf k b w => [⟨[], k, b, w⟩]
  | fork _ l r => l.leaves.map (LeafPath.below false) ++ r.leaves.map (LeafPath.below true)

/-- The arena holds the tree, every child before its parent (R45). -/
def Stands (nodeOf : Nat → Node) : ArenaTree → Prop
  | leaf k b w => nodeOf k = .leaf b w
  | fork k l r =>
    (∃ w, nodeOf k = .internal w l.root r.root) ∧ l.root < k ∧ r.root < k ∧ l.Stands nodeOf ∧ r.Stands nodeOf

/-- Where children stand before their parents, a tree stands below every node. -/
theorem exists_stands {nodeOf : Nat → Node} {n : Nat}
    (h : ∀ i < n, ∀ w l r, nodeOf i = .internal w l r → l < i ∧ r < i) {k : Nat} (hk : k < n) :
    ∃ T : ArenaTree, T.root = k ∧ T.Stands nodeOf := by
  induction k using Nat.strong_induction_on with
  | _ k ih =>
    cases hnode : nodeOf k with
    | leaf b w => exact ⟨leaf k b w, rfl, hnode⟩
    | internal w l r =>
      obtain ⟨hl, hr⟩ := h k hk w l r hnode
      obtain ⟨L, rfl, hL⟩ := ih l hl (hl.trans hk)
      obtain ⟨R, rfl, hR⟩ := ih r hr (hr.trans hk)
      exact ⟨fork k L R, rfl, ⟨w, hnode⟩, hl, hr, hL, hR⟩

theorem Stands.le_root {nodeOf : Nat → Node} {T : ArenaTree} (h : T.Stands nodeOf) {i : Nat} (hi : i ∈ T.ids) :
    i ≤ T.root := by
  induction T with
  | leaf k b w => exact (List.mem_singleton.1 hi).le
  | fork k l r ihl ihr =>
    obtain ⟨-, hl, hr, hL, hR⟩ := h
    rw [ids, List.mem_cons, List.mem_append] at hi
    obtain rfl | hi | hi := hi
    · exact Nat.le_refl _
    · exact (ihl hL hi).trans hl.le
    · exact (ihr hR hi).trans hr.le

theorem Stands.congr {nodeOf nodeOf' : Nat → Node} {T : ArenaTree} (h : T.Stands nodeOf)
    (heq : ∀ k ≤ T.root, nodeOf k = nodeOf' k) : T.Stands nodeOf' := by
  induction T with
  | leaf k b w => exact (heq k (Nat.le_refl _)).symm.trans h
  | fork k l r ihl ihr =>
    obtain ⟨⟨w, hk⟩, hl, hr, hL, hR⟩ := h
    exact ⟨⟨w, (heq k (Nat.le_refl _)).symm.trans hk⟩, hl, hr, ihl hL fun i hi => heq i (hi.trans hl.le),
      ihr hR fun i hi => heq i (hi.trans hr.le)⟩

/-! ### The laws of the paths (R184) -/

theorem leaves_length_pos (T : ArenaTree) : 1 ≤ T.leaves.length := by
  induction T with
  | leaf k b w => exact Nat.le_refl _
  | fork k l r ihl ihr => simp only [leaves, List.length_append, List.length_map]; omega

/-- A path is shorter than the number of leaves: every step leaves a leaf aside. -/
theorem bits_length_lt {T : ArenaTree} {p : LeafPath} (hp : p ∈ T.leaves) : p.bits.length < T.leaves.length := by
  induction T generalizing p with
  | leaf k b w =>
    obtain rfl := List.mem_singleton.1 hp
    exact Nat.zero_lt_one
  | fork k l r ihl ihr =>
    have hlpos := l.leaves_length_pos
    have hrpos := r.leaves_length_pos
    simp only [leaves, List.mem_append, List.mem_map, List.length_append, List.length_map] at hp ⊢
    obtain ⟨q, hq, rfl⟩ | ⟨q, hq, rfl⟩ := hp
    · have := ihl hq
      simp only [LeafPath.below, List.length_cons]
      omega
    · have := ihr hq
      simp only [LeafPath.below, List.length_cons]
      omega

theorem fork_bits_ne_nil {k : Nat} {l r : ArenaTree} {p : LeafPath} (hp : p ∈ (fork k l r).leaves) : p.bits ≠ [] := by
  simp only [leaves, List.mem_append, List.mem_map] at hp
  obtain ⟨q, -, rfl⟩ | ⟨q, -, rfl⟩ := hp <;> exact List.cons_ne_nil _ _

/-- No path of a tree begins another: they part at a fork. -/
theorem leaves_prefixFree (T : ArenaTree) :
    T.leaves.Pairwise fun p q => ¬ p.bits <+: q.bits ∧ ¬ q.bits <+: p.bits := by
  induction T with
  | leaf k b w => exact List.pairwise_singleton _ _
  | fork k l r ihl ihr =>
    rw [leaves, List.pairwise_append, List.pairwise_map, List.pairwise_map]
    refine ⟨ihl.imp fun h => ?_, ihr.imp fun h => ?_, ?_⟩
    · simpa [LeafPath.below, List.cons_prefix_cons] using h
    · simpa [LeafPath.below, List.cons_prefix_cons] using h
    · simp [LeafPath.below, List.cons_prefix_cons]

/-- The paths rise in lexicographic order. -/
theorem leaves_lex (T : ArenaTree) :
    T.leaves.Pairwise fun p q => List.Lex (fun x y => x = false ∧ y = true) p.bits q.bits := by
  induction T with
  | leaf k b w => exact List.pairwise_singleton _ _
  | fork k l r ihl ihr =>
    rw [leaves, List.pairwise_append, List.pairwise_map, List.pairwise_map]
    refine ⟨ihl.imp .cons, ihr.imp .cons, ?_⟩
    simp only [List.mem_map]
    rintro _ ⟨p, -, rfl⟩ _ ⟨q, -, rfl⟩
    exact .rel ⟨rfl, rfl⟩

/-- Kraft's equality: the paths fill the binary tree of depth `m`. -/
theorem sum_pow_leaves {T : ArenaTree} {m : Nat} (h : ∀ p ∈ T.leaves, p.bits.length ≤ m) :
    (T.leaves.map fun p => 2 ^ (m - p.bits.length)).sum = 2 ^ m := by
  induction T generalizing m with
  | leaf k b w => simp [leaves]
  | fork k l r ihl ihr =>
    have hl : ∀ p ∈ l.leaves, p.bits.length + 1 ≤ m := fun p hp =>
      h _ (List.mem_append_left _ (List.mem_map_of_mem hp))
    have hr : ∀ p ∈ r.leaves, p.bits.length + 1 ≤ m := fun p hp =>
      h _ (List.mem_append_right _ (List.mem_map_of_mem hp))
    obtain ⟨p, hp⟩ := List.exists_mem_of_length_pos l.leaves_length_pos
    obtain ⟨m, rfl⟩ : ∃ n, m = n + 1 := ⟨m - 1, by have := hl p hp; omega⟩
    have hsuml := ihl fun p hp => Nat.le_of_succ_le_succ (hl p hp)
    have hsumr := ihr fun p hp => Nat.le_of_succ_le_succ (hr p hp)
    simp only [leaves, List.map_append, List.map_map, List.sum_append, Function.comp_def, LeafPath.below,
      List.length_cons, Nat.add_sub_add_right, hsuml, hsumr, pow_succ]
    omega

/-- Every bit-string runs along a path: it begins with a whole one, or it is a part of one, cut off. -/
theorem exists_path (T : ArenaTree) (bits : List Bool) :
    (∃ p ∈ T.leaves, p.bits <+: bits) ∨ ∃ p ∈ T.leaves, bits <+: p.bits ∧ bits ≠ p.bits := by
  induction T generalizing bits with
  | leaf k b w => exact .inl ⟨_, List.mem_singleton_self _, List.nil_prefix⟩
  | fork k l r ihl ihr =>
    have step : ∀ (b : Bool) (bs : List Bool) (sub : ArenaTree),
        (∀ p ∈ sub.leaves, p.below b ∈ (fork k l r).leaves) →
        ((∃ p ∈ sub.leaves, p.bits <+: bs) ∨ ∃ p ∈ sub.leaves, bs <+: p.bits ∧ bs ≠ p.bits) →
        (∃ p ∈ (fork k l r).leaves, p.bits <+: b :: bs) ∨
          ∃ p ∈ (fork k l r).leaves, b :: bs <+: p.bits ∧ b :: bs ≠ p.bits := by
      rintro b bs sub hsub (⟨p, hp, hpre⟩ | ⟨p, hp, hpre, hne⟩)
      · exact .inl ⟨_, hsub p hp, (List.prefix_cons_inj b).2 hpre⟩
      · exact .inr ⟨_, hsub p hp, (List.prefix_cons_inj b).2 hpre, fun h => hne (List.cons.inj h).2⟩
    match bits with
    | [] =>
      obtain ⟨p, hp⟩ := List.exists_mem_of_length_pos (fork k l r).leaves_length_pos
      exact .inr ⟨p, hp, List.nil_prefix, (fork_bits_ne_nil hp).symm⟩
    | false :: bs => exact step false bs l (fun p hp => List.mem_append_left _ (List.mem_map_of_mem hp)) (ihl bs)
    | true :: bs => exact step true bs r (fun p hp => List.mem_append_right _ (List.mem_map_of_mem hp)) (ihr bs)

/-! ### What the machine does along a tree -/

/-- CODEGEN's walk lists the leaves with their paths (R181). -/
theorem Stands.walk_eq {nodeOf : Nat → Node} {T : ArenaTree} (h : T.Stands nodeOf) {n : Nat} (hn : T.root < n)
    (c : List Bool) : walk nodeOf n T.root c = T.leaves.map fun p => tupleOf p.sym (c ++ p.bits) := by
  induction T generalizing n c with
  | leaf k b w =>
    obtain ⟨m, rfl⟩ := Nat.exists_eq_add_of_lt hn
    have hk : nodeOf k = .leaf b w := h
    simp [walk, leaves, hk, tupleOf]
  | fork k l r ihl ihr =>
    obtain ⟨⟨w, hk⟩, hl, hr, hL, hR⟩ := h
    obtain ⟨m, rfl⟩ : ∃ m, n = m + 1 := ⟨n - 1, by omega⟩
    have hkm : k ≤ m := Nat.le_of_lt_succ hn
    simp [walk, leaves, hk, ihl hL (hl.trans_le hkm), ihr hR (hr.trans_le hkm), LeafPath.below,
      Function.comp_def]

/-- Following a path leads to its leaf (R180). -/
theorem Stands.follow_eq {s : State} {T : ArenaTree} (h : T.Stands s.nodeAt) {p : LeafPath} (hp : p ∈ T.leaves) :
    s.follow T.root p.bits = some p.id ∧ s.nodeAt p.id = p.node := by
  induction T generalizing p with
  | leaf k b w =>
    obtain rfl := List.mem_singleton.1 hp
    exact ⟨rfl, h⟩
  | fork k l r ihl ihr =>
    obtain ⟨⟨w, hk⟩, -, -, hL, hR⟩ := h
    simp only [leaves, List.mem_append, List.mem_map] at hp
    obtain ⟨q, hq, rfl⟩ | ⟨q, hq, rfl⟩ := hp
    · simpa [LeafPath.below, LeafPath.node, State.follow, hk] using ihl hL hq
    · simpa [LeafPath.below, LeafPath.node, State.follow, hk] using ihr hR hq

/-! ### The nodes of the tree -/

/-- The leaves of the tree are its nodes that are leaves. -/
theorem Stands.map_node_leaves {nodeOf : Nat → Node} {T : ArenaTree} (h : T.Stands nodeOf) :
    T.leaves.map LeafPath.node = (T.ids.map nodeOf).filter Node.isLeaf := by
  induction T with
  | leaf k b w =>
    have hk : nodeOf k = .leaf b w := h
    simp [leaves, ids, hk, LeafPath.node, List.filter_cons]
  | fork k l r ihl ihr =>
    obtain ⟨⟨w, hk⟩, -, -, hL, hR⟩ := h
    have hbelow : ∀ b, LeafPath.node ∘ LeafPath.below b = LeafPath.node := fun _ => rfl
    simp [leaves, ids, hk, hbelow, ihl hL, ihr hR]

/-- Every node of the tree is its root or the child of one of its nodes. -/
theorem Stands.ids_perm {nodeOf : Nat → Node} {T : ArenaTree} (h : T.Stands nodeOf) :
    T.ids.Perm ([T.root] ++ T.ids.flatMap fun k => (nodeOf k).children) := by
  induction T with
  | leaf k b w =>
    have hk : nodeOf k = .leaf b w := h
    simp [ids, hk, Node.children]
  | fork k l r ihl ihr =>
    obtain ⟨⟨w, hk⟩, -, -, hL, hR⟩ := h
    have hcount := fun i => congrArg₂ (· + ·) ((ihl hL).count_eq i) ((ihr hR).count_eq i)
    rw [List.perm_iff_count]
    intro i
    have := hcount i
    simp only [ids, root_fork, hk, Node.children, List.flatMap_cons, List.flatMap_append, List.count_append, List.count_cons,
      List.count_nil] at this ⊢
    omega

end ArenaTree

/-! ### The tree under ROOT has every node once -/

theorem filter_above_perm {S R : List Nat} {k : Nat} (h : ∀ i, k < i → S.count i = R.count i) :
    (S.filter fun p => decide (k < p)).Perm (R.filter fun p => decide (k < p)) := by
  rw [List.perm_iff_count]
  intro i
  by_cases hi : k < i
  · have hfilter := fun l => List.count_filter (l := l) (p := fun p => decide (k < p)) (decide_eq_true hi)
    rw [hfilter, hfilter]
    exact h i hi
  · have hfilter : ∀ l : List Nat, (l.filter fun p => decide (k < p)).count i = 0 := fun l =>
      List.count_eq_zero_of_not_mem fun hmem => hi (of_decide_eq_true (List.mem_filter.1 hmem).2)
    rw [hfilter, hfilter]

/-- Children are smaller than their parents, so only greater elements have `k` for a child. -/
theorem count_flatMap_above {ch : Nat → List Nat} {n k : Nat} (hch : ∀ p < n, ∀ k ∈ ch p, k < p) {l : List Nat}
    (hl : ∀ p ∈ l, p < n) :
    (l.flatMap ch).count k = ((l.filter fun p => decide (k < p)).map fun p => (ch p).count k).sum := by
  rw [List.count_flatMap]
  induction l with
  | nil => rfl
  | cons p l ih =>
    obtain ⟨hp, hl⟩ := List.forall_mem_cons.1 hl
    by_cases hkp : k < p
    · simp [hkp, ih hl]
    · have hzero : (ch p).count k = 0 := List.count_eq_zero_of_not_mem fun hmem => hkp (hch p hp k hmem)
      simp [hkp, hzero, ih hl]

/-- Two lists of identifiers that are each `top` and the children of their elements are the same but for order, when
children are smaller than their parents: from the greatest identifier down, an identifier stands in each as often as
`top` and the greater ones tell. -/
theorem perm_of_owned {ch : Nat → List Nat} {top S R : List Nat} {n : Nat} (hch : ∀ p < n, ∀ k ∈ ch p, k < p)
    (hS : S.Perm (top ++ S.flatMap ch)) (hR : R.Perm (top ++ R.flatMap ch)) (hSn : ∀ k ∈ S, k < n)
    (hRn : ∀ k ∈ R, k < n) : S.Perm R := by
  have down : ∀ m k, n ≤ k + m → S.count k = R.count k := by
    intro m
    induction m with
    | zero =>
      intro k hk
      rw [List.count_eq_zero_of_not_mem fun h => absurd (hSn k h) (by omega),
        List.count_eq_zero_of_not_mem fun h => absurd (hRn k h) (by omega)]
    | succ m ih =>
      intro k hk
      have habove := filter_above_perm (S := S) (R := R) (k := k) fun i hi => ih i (by omega)
      rw [hS.count_eq k, hR.count_eq k, List.count_append, List.count_append, count_flatMap_above hch hSn,
        count_flatMap_above hch hRn, (habove.map _).sum_eq]
  exact List.perm_iff_count.2 fun k => down n k (Nat.le_add_left n k)

theorem map_nodeAt_range {s : State} {n : Nat} (hn : n = s.node.length) : (List.range n).map s.nodeAt = s.node := by
  refine List.ext_getElem (by simp [hn]) fun i h1 h2 => ?_
  simp [nodeAt_of_lt h2]

/-- The leaves of the arena are those of FT. -/
theorem UnderConstruction.filter_isLeaf {s : State} (h : UnderConstruction s) :
    s.node.filter Node.isLeaf = s.ft.map fun e => .leaf e.sym e.cnt := by
  have hdrop : (s.node.drop s.nsym).filter Node.isLeaf = [] := by
    refine List.filter_eq_nil_iff.2 fun n hn hleaf => ?_
    obtain ⟨i, hi, rfl⟩ := List.getElem_of_mem hn
    rw [List.getElem_drop, h.arena.isLeaf_iff] at hleaf
    omega
  have htake : (s.node.take s.nsym).filter Node.isLeaf = s.ft.map fun e => .leaf e.sym e.cnt := by
    rw [h.arena.leaves]
    exact List.filter_eq_self.2 fun n hn => by
      obtain ⟨e, -, rfl⟩ := List.mem_map.1 hn
      rfl
  rw [← List.take_append_drop s.nsym s.node, List.filter_append, hdrop, htake, List.append_nil]

/-- `T` is the tree under ROOT, over the entries of FT. -/
structure IsTree (s : State) (T : ArenaTree) : Prop where
  root : T.root = s.root
  stands : T.Stands s.nodeAt
  entries : (T.leaves.map LeafPath.entry).Perm s.ft

theorem UnderConstruction.children_lt {s : State} (h : UnderConstruction s) {p k : Nat} (hp : p < s.node.length)
    (hk : k ∈ (s.nodeAt p).children) : k < p :=
  h.arena.lt_of_mem_children hp (nodeAt_of_lt hp ▸ hk)

/-- The entry of FT that a leaf is. -/
def Node.entry : Node → FtEntry
  | .leaf b w => ⟨b, w⟩
  | .internal w _ _ => ⟨0, w⟩

theorem WholeTree.exists_tree {s : State} (h : WholeTree s) : ∃ T, IsTree s T := by
  have hroot := h.finishedTree.root_lt
  have hch : ∀ p < s.node.length, ∀ k ∈ (s.nodeAt p).children, k < p := fun p hp k => h.children_lt hp
  obtain ⟨T, hT, hstands⟩ := ArenaTree.exists_stands (nodeOf := s.nodeAt) (n := s.node.length)
    (fun i hi w l r hn => ⟨hch i hi l (by simp [hn, Node.children]), hch i hi r (by simp [hn, Node.children])⟩) hroot
  have hrange : (List.range s.nnodes).Perm
      ([T.root] ++ (List.range s.nnodes).flatMap fun k => (s.nodeAt k).children) := by
    have howned := h.arena.owned
    rw [h.wl_eq, ← hT] at howned
    rw [← List.flatMap_map, map_nodeAt_range h.nnodes]
    exact howned.symm
  have hids : T.ids.Perm (List.range s.nnodes) := perm_of_owned hch hstands.ids_perm hrange
    (fun k hk => (hstands.le_root hk).trans_lt (hT ▸ hroot)) (fun k hk => h.nnodes ▸ List.mem_range.1 hk)
  have hleaves : (T.leaves.map LeafPath.node).Perm (s.ft.map fun e => .leaf e.sym e.cnt) := by
    rw [hstands.map_node_leaves, ← h.filter_isLeaf, ← map_nodeAt_range h.nnodes]
    exact (hids.map _).filter _
  refine ⟨T, hT, hstands, ?_⟩
  have hentries := hleaves.map Node.entry
  rwa [List.map_map, List.map_map, show Node.entry ∘ (fun e : FtEntry => Node.leaf e.sym e.cnt) = id from rfl,
    List.map_id] at hentries

section
variable {s : State} {T : ArenaTree} (h : WholeTree s) (hT : IsTree s T)
include h hT

theorem IsTree.codeTable_eq : s.codeTable = T.leaves.map LeafPath.tuple := by
  have hroot : T.root < s.nnodes := by
    rw [hT.root, h.nnodes]
    exact h.finishedTree.root_lt
  rw [State.codeTable, ← hT.root, hT.stands.walk_eq hroot]
  rfl

theorem IsTree.leaves_length : T.leaves.length = s.nsym := by
  rw [h.nsym, ← hT.entries.length_eq, List.length_map]

/-- The root is a fork exactly when there are two entries or more. -/
theorem IsTree.eq_fork (hn : 2 ≤ s.nsym) : ∃ l r, T = .fork s.root l r := by
  have hlen := hT.leaves_length h
  have hroot := hT.root
  cases T with
  | leaf k b w =>
    have : 1 = s.nsym := hlen
    omega
  | fork k l r =>
    obtain rfl : k = s.root := hroot
    exact ⟨l, r, rfl⟩

/-- The tree depends on the builder's part alone. -/
theorem IsTree.congr {t : State} (ht : SameBuilder s t) : IsTree t T where
  root := hT.root.trans ht.root
  stands := hT.stands.congr fun _ hk =>
    nodeAt_congr ht.node ((hT.root ▸ hk).trans_lt h.finishedTree.root_lt)
  entries := ht.ft ▸ hT.entries

end

/-- The code table depends on the builder's part alone (R168). -/
theorem WholeTree.codeTable_congr {s t : State} (h : WholeTree s) (ht : SameBuilder s t) :
    s.codeTable = t.codeTable := by
  obtain ⟨T, hT⟩ := h.exists_tree
  rw [hT.codeTable_eq h, (hT.congr h ht).codeTable_eq (h.congr ht)]

/-! ### The laws of the code table (R183, R184) -/

section
variable {s : State} (h : WholeTree s)
include h

theorem WholeTree.codeTable_length : s.codeTable.length = s.nsym := by
  obtain ⟨T, hT⟩ := h.exists_tree
  rw [hT.codeTable_eq h, List.length_map, hT.leaves_length h]

theorem WholeTree.codeTable_syms : (s.codeTable.map CodeTuple.sym).Perm (s.ft.map FtEntry.sym) := by
  obtain ⟨T, hT⟩ := h.exists_tree
  have hsyms := hT.entries.map FtEntry.sym
  rw [List.map_map] at hsyms
  rw [hT.codeTable_eq h, List.map_map]
  exact hsyms

theorem WholeTree.len_lt {c : CodeTuple} (hc : c ∈ s.codeTable) : c.len < s.nsym := by
  obtain ⟨T, hT⟩ := h.exists_tree
  rw [hT.codeTable_eq h] at hc
  obtain ⟨p, hp, rfl⟩ := List.mem_map.1 hc
  rw [← hT.leaves_length h]
  exact ArenaTree.bits_length_lt hp

theorem WholeTree.val_lt {c : CodeTuple} (hc : c ∈ s.codeTable) : c.val < 2 ^ c.len := by
  obtain ⟨T, hT⟩ := h.exists_tree
  rw [hT.codeTable_eq h] at hc
  obtain ⟨p, -, rfl⟩ := List.mem_map.1 hc
  exact bitVal_lt p.bits

theorem WholeTree.len_pos (hn : 2 ≤ s.nsym) {c : CodeTuple} (hc : c ∈ s.codeTable) : 1 ≤ c.len := by
  obtain ⟨T, hT⟩ := h.exists_tree
  rw [hT.codeTable_eq h] at hc
  obtain ⟨p, hp, rfl⟩ := List.mem_map.1 hc
  obtain ⟨l, r, rfl⟩ := hT.eq_fork h hn
  exact List.length_pos_iff.2 (ArenaTree.fork_bits_ne_nil hp)

theorem WholeTree.follow_bits {c : CodeTuple} (hc : c ∈ s.codeTable) :
    ∃ k w, s.follow s.root c.bits = some k ∧ s.nodeAt k = .leaf c.sym w := by
  obtain ⟨T, hT⟩ := h.exists_tree
  rw [hT.codeTable_eq h] at hc
  obtain ⟨p, hp, rfl⟩ := List.mem_map.1 hc
  obtain ⟨hfollow, hleaf⟩ := hT.stands.follow_eq hp
  exact ⟨p.id, p.weight, by rwa [LeafPath.tuple_bits, ← hT.root], hleaf⟩

theorem WholeTree.codeTable_prefixFree : PrefixFree s.codeTable := by
  obtain ⟨T, hT⟩ := h.exists_tree
  rw [hT.codeTable_eq h]
  have hpair := List.pairwise_iff_getElem.1 T.leaves_prefixFree
  intro i j c d hi hj hij
  obtain ⟨p, hp, rfl⟩ := Option.map_eq_some_iff.1 (List.getElem?_map.symm.trans hi)
  obtain ⟨q, hq, rfl⟩ := Option.map_eq_some_iff.1 (List.getElem?_map.symm.trans hj)
  obtain ⟨hip, rfl⟩ := List.getElem?_eq_some_iff.1 hp
  obtain ⟨hjq, rfl⟩ := List.getElem?_eq_some_iff.1 hq
  rw [LeafPath.tuple_bits, LeafPath.tuple_bits]
  obtain hlt | hlt := Nat.lt_or_gt_of_ne hij
  · exact (hpair i j hip hjq hlt).1
  · exact (hpair j i hjq hip hlt).2

theorem WholeTree.codeTable_lex :
    s.codeTable.Pairwise fun c d => List.Lex (fun x y => x = false ∧ y = true) c.bits d.bits := by
  obtain ⟨T, hT⟩ := h.exists_tree
  rw [hT.codeTable_eq h, List.pairwise_map]
  simpa only [LeafPath.tuple_bits] using T.leaves_lex

theorem WholeTree.codeTable_complete (hn : s.nsym ≤ 256) :
    (s.codeTable.map fun c => 2 ^ (255 - c.len)).sum = 2 ^ 255 := by
  obtain ⟨T, hT⟩ := h.exists_tree
  have hlen := hT.leaves_length h
  rw [hT.codeTable_eq h, List.map_map]
  exact ArenaTree.sum_pow_leaves fun p hp => by have := ArenaTree.bits_length_lt hp; omega

end

/-! ### BUILD's result -/

/-- What BUILD writes of the state. -/
theorem built_eq (s : State) : s.built = { s with
    node := s.built.node, nnodes := s.built.nnodes, wl := s.built.wl, wlLen := s.built.wlLen, root := s.built.root
    ct := [], ctLen := 0, status := s.built.status } := by
  have hframe := mergeOnce_iterate_keeps
    (f := fun s : State => { s with node := [], nnodes := 0, wl := [], wlLen := 0, root := 0, status := Status.zero })
    (fun _ => rfl) (s.nsym - 1) s.planted
  exact congrArg (fun u : State => { u with
    node := s.built.node, nnodes := s.built.nnodes, wl := s.built.wl, wlLen := s.built.wlLen, root := s.built.root
    status := s.built.status }) hframe

/-- A weight within the limits of FT (R167): 256 counts of at most 65535. -/
theorem totalCount_le {ft : List FtEntry} (hlen : ft.length ≤ 256) (hcnt : ∀ e ∈ ft, e.cnt < 2 ^ 16) :
    totalCount ft ≤ 16776960 := by
  have hsum : totalCount ft ≤ (ft.map FtEntry.cnt).length • 65535 :=
    List.sum_le_card_nsmul _ _ fun c hc => by
      obtain ⟨e, he, rfl⟩ := List.mem_map.1 hc
      have := hcnt e he
      omega
  rw [List.length_map, smul_eq_mul] at hsum
  omega

theorem WholeTree.weightOf_root {s : State} (h : WholeTree s) : s.weightOf s.root = totalCount s.ft := by
  have htotal := h.arena.total
  rwa [h.wl_eq, List.map_singleton, List.sum_singleton] at htotal

theorem WholeTree.children_perm {s : State} (h : WholeTree s) :
    (s.node.flatMap Node.children).Perm (List.range s.root) := by
  have howned := h.arena.owned
  have hn : s.nnodes = s.root + 1 := h.nnodes.trans h.finishedTree.root.symm
  rw [h.wl_eq, hn, List.range_succ] at howned
  exact (List.perm_cons s.root).1 (howned.trans List.perm_append_comm)

theorem UnderConstruction.exists_internal {s : State} (h : UnderConstruction s) {i : Nat} (hsym : s.nsym ≤ i)
    (hi : i < s.nnodes) :
    ∃ l r, s.nodeAt i = .internal (s.weightOf l + s.weightOf r) l r ∧ l < i ∧ r < i := by
  rw [h.nnodes] at hi
  cases hn : s.node[i] with
  | leaf b w =>
    have := (h.arena.isLeaf_iff hi).1 (by rw [hn]; rfl)
    omega
  | internal w l r =>
    obtain ⟨-, hl, hr, rfl⟩ := h.arena.getElem_eq_internal hi hn
    exact ⟨l, r, (nodeAt_of_lt hi).trans hn, hl, hr⟩

/-! ### The obligations -/

/-- Settles O37: the sorted list stands in the order of R166, because the sort is stable and WL has ties in order. -/
theorem mergeTakesThePriorityPair : Obligations.MergeTakesThePriorityPair := by
  intro s hinv herr hvalid hlen
  have hs : UnderConstruction s := (hinv.coherent herr).underConstruction hvalid
  obtain ⟨a, b, rest, hsort⟩ := hs.listInArena.exists_sorted hlen
  have hexec : exec .merge s = .next ((s.joined a b rest).withDraw (s.freeCount + 1)).finish := by
    rw [exec_merge_of_ready herr ((mergeReady_iff s).2 ⟨hvalid, hlen⟩), fresh_eq_withDraw,
      mergeOnce_withDraw hs.listInArena.inArena hsort, mergeOnce_eq_joined hsort]
  obtain ⟨ha, hb⟩ := List.pairwise_cons.1 (hs.sorted_before hsort)
  obtain ⟨hb, hrest⟩ := List.pairwise_cons.1 hb
  exact ⟨_, a, b, rest, hexec, perm_of_ssort_eq hsort, ha, hb, rfl, rfl, hrest, herr⟩

/-- Settles O38: the laws of the arena hold of the planted leaves and through every merge, down to one node. -/
theorem buildMakesTheTree : Obligations.BuildMakesTheTree := by
  intro s hinv herr hft hn
  have hcoh := hinv.coherent herr
  have htree : WholeTree s.fresh.built := built_wholeTree (s := s.fresh) hcoh.nsym hn
  have hsize := htree.finishedTree.size
  have hnsym : s.fresh.built.nsym = s.nsym := built_keeps (f := State.nsym) (fun _ => rfl) (fun _ => rfl) s.fresh
  have hftEq : s.fresh.built.ft = s.ft := built_keeps (f := State.ft) (fun _ => rfl) (fun _ => rfl) s.fresh
  have hbound := totalCount_le hinv.widths.ft.1 hinv.widths.ft.2
  rw [hnsym] at hsize
  refine ⟨_, run_ok herr (buildBody_eq_built (s := s.fresh) hft hn), hnsym ▸ htree.nnodes_eq, ?_, hnsym ▸ htree.root_eq,
    ?_, fun i hsym hi => htree.exists_internal (hnsym.trans_le hsym) hi, htree.children_perm, ?_, fun n hmem => ?_, ?_,
    fun c hc => ?_, ?_⟩
  · show s.fresh.built.node.length = _
    omega
  · rw [← hnsym, ← hftEq]
    exact htree.arena.leaves
  · exact hftEq ▸ htree.weightOf_root
  · have := hftEq ▸ htree.arena.bounded n hmem
    omega
  · have hleaves : s.fresh.built.node.filter Node.isLeaf = _ := htree.filter_isLeaf
    rw [finish_node, hleaves, List.length_map, hftEq, hcoh.nsym]
  · have := hnsym ▸ htree.len_lt hc
    omega
  · rw [built_eq s.fresh, htree.wl_eq, htree.one, built_status (s := s.fresh) hn]
    rfl

/-- Settles O40: BUILD looks at the builder's part of the state alone, and so do the tree and its codes. -/
theorem treeDependsOnTheTableAlone : Obligations.TreeDependsOnTheTableAlone := by
  intro s t hinv herr h ht
  obtain ⟨u, hu, rfl⟩ := exec_ok rfl herr h ht
  obtain ⟨-, hn, rfl⟩ := buildBody_ok hu
  have hnsym : s.fresh.nsym = s.fresh.ft.length := (hinv.coherent herr).nsym
  have hsame := built_sameBuilder_treeOf hnsym hn
  exact ⟨hsame.node, hsame.root, (built_wholeTree hnsym hn).codeTable_congr hsame⟩

/-- Settles O41: the code table lists the leaves of the tree under ROOT with their paths. -/
theorem codegenTableLaws : Obligations.CodegenTableLaws := by
  intro s hinv herr ht
  have hcoh := hinv.coherent herr
  have htree : WholeTree s := hcoh.wholeTree ht
  have hfresh : s.fresh.codeTable = s.codeTable :=
    (htree.codeTable_congr (t := s.fresh) ⟨rfl, rfl, rfl, rfl, rfl, rfl, rfl⟩).symm
  refine ⟨?_, htree.codeTable_length, htree.codeTable_syms, fun c hc => ⟨htree.val_lt hc, ?_, fun hn => htree.len_pos hn hc⟩,
    fun c hc => htree.follow_bits hc, htree.codeTable_prefixFree, htree.codeTable_complete ?_, htree.codeTable_lex,
    fun hone => ?_⟩
  · have hexec : exec .codegen s = .next s.fresh.coded.finish := run_ok herr (codegenBody_of_tree (s := s.fresh) ht)
    rw [hexec, State.coded, hfresh]
    rfl
  · have := htree.len_lt hc
    omega
  · rw [hcoh.nsym]
    exact hinv.widths.ft.1
  · obtain ⟨b, w, hleaf⟩ := htree.finishedTree.root_leaf_iff.2 hone
    have hnodes : s.nnodes = 0 + 1 := by rw [htree.nnodes_eq, hone]
    exact ⟨b, w, hleaf, codeTable_of_root_leaf hleaf hnodes⟩

end Sys2Proof.Machine

/-! ## The frequency table in closed form (R150 to R152)

FREQ's loop over the bytes read so far holds the table of those bytes; one more byte adds one to its count, at the end of
the table when it is new, and stops the loop when its count would pass 65535. -/

namespace Sys2Proof.Machine

/-! ### The distinct bytes -/

theorem eraseDups_concat (x : List Byte) (b : Byte) :
    (x ++ [b]).eraseDups = if b ∈ x then x.eraseDups else x.eraseDups ++ [b] := by
  rw [List.eraseDups_append]
  split
  next h => simp [List.removeAll, h]
  next h => simp [List.removeAll, h, List.eraseDups_cons]

theorem eraseDups_nodup (x : List Byte) : x.eraseDups.Nodup := by
  induction x using List.reverseRecOn with
  | nil => exact List.nodup_nil
  | append_singleton x b ih =>
    rw [eraseDups_concat]
    split
    next => exact ih
    next h => exact List.concat_eq_append ▸ ih.concat fun hb => h (List.mem_eraseDups.1 hb)

theorem toFinset_eraseDups (x : List Byte) : x.eraseDups.toFinset = x.toFinset := by
  ext b
  simp

/-- A list of distinct bytes has at most 256 of them. -/
theorem length_le_of_nodup {l : List Byte} (h : l.Nodup) : l.length ≤ 256 := by
  have hsub : l.map BitVec.toNat ⊆ List.range 256 := fun n hn => by
    obtain ⟨b, -, rfl⟩ := List.mem_map.1 hn
    exact List.mem_range.2 b.isLt
  have hnodup : (l.map BitVec.toNat).Nodup := h.map fun a b hab => BitVec.eq_of_toNat_eq hab
  simpa using (hnodup.subperm hsub).length_le

/-! ### The table of a byte sequence (R151) -/

theorem freqTable_syms (x : List Byte) : (freqTable x).map FtEntry.sym = x.eraseDups := by
  simp [freqTable, Function.comp_def]

theorem mem_freqTable {x : List Byte} {e : FtEntry} : e ∈ freqTable x ↔ e.sym ∈ x ∧ e.cnt = x.count e.sym := by
  constructor
  · intro he
    obtain ⟨b, hb, rfl⟩ := List.mem_map.1 he
    exact ⟨List.mem_eraseDups.1 hb, rfl⟩
  · rintro ⟨hsym, hcnt⟩
    exact List.mem_map.2 ⟨e.sym, List.mem_eraseDups.2 hsym, by rw [← hcnt]⟩

theorem freqTable_length_le (x : List Byte) : (freqTable x).length ≤ 256 := by
  rw [freqTable, List.length_map]
  exact length_le_of_nodup (eraseDups_nodup x)

theorem freqTable_length_eq_zero (x : List Byte) : (freqTable x).length = 0 ↔ x.length = 0 := by
  cases x with
  | nil => exact Iff.rfl
  | cons b x => simp [freqTable, List.eraseDups_cons]

theorem freqTable_length_pos {x : List Byte} (h : x ≠ []) : 1 ≤ (freqTable x).length :=
  Nat.one_le_iff_ne_zero.2 fun hzero => h (List.eq_nil_of_length_eq_zero ((freqTable_length_eq_zero x).1 hzero))

/-- A sum over the bytes is a sum over the table, each entry as often as it counts. -/
theorem sum_freqTable (x : List Byte) (f : Byte → Nat) :
    ((freqTable x).map fun e => e.cnt * f e.sym).sum = (x.map f).sum := by
  rw [Finset.sum_list_map_count x, ← toFinset_eraseDups, List.sum_toFinset _ (eraseDups_nodup x), freqTable, List.map_map]
  rfl

theorem totalCount_freqTable (x : List Byte) : totalCount (freqTable x) = x.length := by
  simpa [totalCount] using sum_freqTable x fun _ => 1

/-! ### FREQ's loop -/

/-- One turn over a table of distinct symbols: an entry with the symbol counts up, or a new one goes to the end. -/
theorem countSym_map {l : List Byte} (hl : l.Nodup) (f : Byte → Nat) (b : Byte) :
    countSym b (l.map fun a => ⟨a, f a⟩) =
      if b ∈ l then
        if f b < 65535 then .ok (l.map fun a => ⟨a, if a = b then f a + 1 else f a⟩) else .error (.overflow b)
      else .ok ((l.map fun a => ⟨a, f a⟩) ++ [⟨b, 1⟩]) := by
  induction l with
  | nil => rfl
  | cons a l ih =>
    obtain ⟨ha, hl⟩ := List.nodup_cons.1 hl
    by_cases hab : a = b
    · subst hab
      have hrest : ∀ c ∈ l, (if c = a then f c + 1 else f c) = f c := fun c hc =>
        if_neg fun hca : c = a => ha (hca ▸ hc)
      have htail : (l.map fun c => (⟨c, if c = a then f c + 1 else f c⟩ : FtEntry)) = l.map fun c => ⟨c, f c⟩ :=
        List.map_congr_left fun c hc => by rw [hrest c hc]
      simp [countSym, htail]
    · have hba : ¬ b = a := fun h => hab h.symm
      simp only [List.map_cons, countSym, hab, ih hl, List.mem_cons, hba, false_or, if_false]
      split_ifs <;> rfl

/-- The table of one byte more. -/
theorem freqTable_concat (x : List Byte) (b : Byte) :
    freqTable (x ++ [b]) = if b ∈ x then x.eraseDups.map fun a => ⟨a, if a = b then x.count a + 1 else x.count a⟩
      else freqTable x ++ [⟨b, 1⟩] := by
  have hcount : ∀ a, (x ++ [b]).count a = if a = b then x.count a + 1 else x.count a := fun a => by
    rw [List.count_append, List.count_singleton]
    split_ifs with h1 h2 h2 <;> simp_all
  rw [freqTable, eraseDups_concat]
  split
  next => exact List.map_congr_left fun a _ => by rw [hcount]
  next h =>
    have hold : (x.eraseDups.map fun a => (⟨a, (x ++ [b]).count a⟩ : FtEntry)) = freqTable x :=
      List.map_congr_left fun a ha => by
        have hab : a ≠ b := fun hab => h (hab ▸ List.mem_eraseDups.1 ha)
        rw [hcount, if_neg hab]
    rw [List.map_append, hold, List.map_singleton, hcount, if_pos rfl, List.count_eq_zero_of_not_mem h]

/-- One turn of FREQ's loop (R150, R152). -/
theorem countSym_freqTable (x : List Byte) (b : Byte) :
    countSym b (freqTable x) = if x.count b < 65535 then .ok (freqTable (x ++ [b])) else .error (.overflow b) := by
  rw [freqTable_concat, freqTable, countSym_map (eraseDups_nodup x)]
  by_cases h : b ∈ x
  · simp [h]
  · simp [h, List.count_eq_zero_of_not_mem h]

theorem countAll_append (xs ys : List Byte) (ft : List FtEntry) :
    countAll (xs ++ ys) ft = (countAll xs ft).bind (countAll ys) := by
  induction xs generalizing ft with
  | nil => rfl
  | cons b xs ih =>
    simp only [List.cons_append, countAll]
    cases countSym b ft with
    | ok ft' => exact ih ft'
    | error e => rfl

/-- FREQ's loop gives the table of the bytes exactly when no count passes 65535. -/
theorem countAll_eq_ok_iff (x : List Byte) (ft : List FtEntry) :
    countAll x [] = .ok ft ↔ (∀ b, x.count b ≤ 65535) ∧ ft = freqTable x := by
  induction x using List.reverseRecOn generalizing ft with
  | nil => simp [countAll, freqTable, eq_comm]
  | append_singleton x b ih =>
    have hcount : ∀ a, x.count a ≤ (x ++ [b]).count a := fun a => by
      rw [List.count_append]
      exact Nat.le_add_right _ _
    have hlast : (x ++ [b]).count b = x.count b + 1 := by simp [List.count_append]
    rw [countAll_append]
    constructor
    · intro h
      cases hx : countAll x [] with
      | error e => rw [hx] at h; cases h
      | ok ft' =>
        obtain ⟨hle, rfl⟩ := (ih ft').1 hx
        simp only [hx, Except.bind, countAll, countSym_freqTable] at h
        split_ifs at h with hb
        · cases h
          refine ⟨fun a => ?_, rfl⟩
          rw [List.count_append, List.count_singleton]
          have := hle a
          split_ifs with hab
          · obtain rfl : b = a := by simpa using hab
            omega
          · omega
    · rintro ⟨hle, rfl⟩
      have hx := (ih _).2 ⟨fun a => (hcount a).trans (hle a), rfl⟩
      have hb : x.count b < 65535 := by have := hle b; omega
      simp [hx, Except.bind, countAll, countSym_freqTable, hb]

/-- FREQ's loop stops at the first byte that occurs for the 65536th time. -/
theorem countAll_overflow {x y : List Byte} {b : Byte} (hle : ∀ c, x.count c ≤ 65535) (hb : x.count b = 65535) :
    countAll (x ++ b :: y) [] = .error (.overflow b) := by
  have hx := (countAll_eq_ok_iff x _).2 ⟨hle, rfl⟩
  rw [countAll_append, hx]
  simp [Except.bind, countAll, countSym_freqTable, hb]

theorem freqBody_of_countAll_error {s : State} {e : Cause} (hfits : s.inputFits = true)
    (h : countAll s.input [] = .error e) : freqBody s = .error e := by
  simp [freqBody, hfits, h]

/-! ### The obligations -/

/-- Settles O32: the loop's table in closed form, and what the closed form says of symbols, counts and their sum. -/
theorem freqCountsTheInput : Obligations.FreqCountsTheInput := by
  intro s herr hcap hcount
  have hfits : s.fresh.inputFits = true := inputFits_of_le (s := s.fresh) hcap
  have htable : countAll s.fresh.input [] = .ok (freqTable s.input) := (countAll_eq_ok_iff _ _).2 ⟨hcount, rfl⟩
  refine ⟨?_, ?_, freqTable_syms _, fun e he => ?_, ?_, ?_⟩
  · have hexec : exec .freq s = .next (s.fresh.tabled (freqTable s.input)).finish :=
      run_ok herr (freqBody_of_countAll hfits htable)
    rw [hexec, State.tabled, fresh_status, clearValid_of_not_err herr]
    rfl
  · rw [freqTable_syms]
    exact eraseDups_nodup _
  · obtain ⟨hsym, hcnt⟩ := mem_freqTable.1 he
    exact ⟨hcnt, hcnt ▸ List.count_pos_iff.2 hsym, hcnt ▸ hcount _⟩
  · rw [totalCount_freqTable, input_length]
  · rw [freqTable_length_eq_zero, input_length]

/-- Settles O33: the loop runs through the bytes before the one that overflows, and stops there. -/
theorem freqOverflow : Obligations.FreqOverflow := by
  intro s n b herr hcap hn hb hle
  have hfits : s.fresh.inputFits = true := inputFits_of_le (s := s.fresh) hcap
  obtain ⟨hlt, hget⟩ := List.getElem?_eq_some_iff.1 hn
  have hsplit : s.fresh.input = s.input.take n ++ b :: s.input.drop (n + 1) := by
    rw [← hget, ← List.drop_eq_getElem_cons hlt, List.take_append_drop]
    rfl
  have hcount : countAll s.fresh.input [] = .error (.overflow b) := hsplit ▸ countAll_overflow hle hb
  exact run_error herr (freqBody_of_countAll_error hfits hcount)

end Sys2Proof.Machine

/-! ## Packing, and what ENCODE writes (R85, R119, R191, R192, R195, R213)

A byte-string of the closed form is read and written eight bits at a time: the packing loop, the closed form and the bits
DECODE walks are compared on the first eight bits, and on the part of a byte that may be left at the end. -/

namespace Sys2Proof.Machine

/-! ### Lengths (R10, R117, R119) -/

theorem payloadLength_add_eight (n : Nat) : payloadLength (8 + n) = payloadLength n + 1 := by
  unfold payloadLength
  omega

theorem padCount_add_eight (n : Nat) : padCount (8 + n) = padCount n := by
  rw [padCount, padCount, payloadLength_add_eight]
  omega

theorem padCount_le (n : Nat) : padCount n ≤ 7 := by
  unfold padCount payloadLength
  omega

theorem eight_mul_payloadLength (n : Nat) : 8 * payloadLength n = n + padCount n := by
  unfold padCount payloadLength
  omega

theorem payloadLength_of_short {n : Nat} (hpos : 0 < n) (hlt : n < 8) : payloadLength n = 1 := by
  unfold payloadLength
  omega

theorem payloadLength_mono {m n : Nat} (h : m ≤ n) : payloadLength m ≤ payloadLength n := by
  unfold payloadLength
  omega

/-! ### The closed form (R119) -/

@[simp] theorem payloadOf_length (bits : List Bool) : (payloadOf bits).length = payloadLength bits.length := by
  simp [payloadOf]

/-- The first byte is the first eight bits. -/
theorem payloadOf_append_eight {d bits : List Bool} (hd : d.length = 8) :
    payloadOf (d ++ bits) = BitVec.ofNat 8 (bitVal d) :: payloadOf bits := by
  have hdrop : ∀ (m : Nat) (z : List Bool), (d ++ z).drop (8 * (m + 1)) = z.drop (8 * m) := fun m z => by
    rw [Nat.mul_succ, Nat.add_comm, ← hd, List.drop_append, List.drop_eq_nil_of_le (by omega), List.nil_append]
    congr 1
    omega
  have htake : ∀ z : List Bool, (d ++ z).take 8 = d := fun z => by rw [← hd, List.take_left]
  simp [payloadOf, hd, payloadLength_add_eight, padCount_add_eight, List.range_succ_eq_map, hdrop, htake,
    Function.comp_def]

theorem bitVal_replicate_false (k : Nat) : bitVal (List.replicate k false) = 0 := by
  induction k with
  | zero => rfl
  | succ k ih => rw [List.replicate_succ', bitVal_append_singleton, ih]; rfl

/-- What is left at the end is filled up by zero bits. -/
theorem payloadOf_of_short {c : List Bool} (hpos : 0 < c.length) (hlt : c.length < 8) :
    payloadOf c = [BitVec.ofNat 8 (bitVal (c ++ List.replicate (8 - c.length) false))] := by
  have hpad : padCount c.length = 8 - c.length := by rw [padCount, payloadLength_of_short hpos hlt]
  have hfull : (c ++ List.replicate (8 - c.length) false).length = 8 := by simp; omega
  rw [payloadOf, payloadLength_of_short hpos hlt, hpad, List.range_one, List.map_singleton, Nat.mul_zero,
    List.drop_zero, List.take_of_length_le hfull.le]

/-! ### The packing loop (R192) -/

/-- Shifting a bit into ACC. -/
theorem acc_shift {c : List Bool} (hc : c.length < 8) (b : Bool) :
    ((BitVec.ofNat 8 (bitVal c)) <<< 1) ||| BitVec.ofNat 8 b.toNat = BitVec.ofNat 8 (bitVal (c ++ [b])) := by
  have hval : bitVal c < 2 ^ 7 := (bitVal_lt c).trans_le (Nat.pow_le_pow_right (by decide) (by omega))
  have hb : b.toNat < 2 ^ 1 := Bool.toNat_lt b
  refine BitVec.eq_of_toNat_eq ?_
  rw [BitVec.toNat_or, BitVec.toNat_shiftLeft, BitVec.toNat_ofNat, BitVec.toNat_ofNat, BitVec.toNat_ofNat,
    bitVal_append_singleton, Nat.mod_eq_of_lt (by omega : bitVal c < 2 ^ 8),
    Nat.mod_eq_of_lt (by omega : b.toNat < 2 ^ 8), Nat.mod_eq_of_lt (by omega : 2 * bitVal c + b.toNat < 2 ^ 8),
    Nat.mod_eq_of_lt (by rw [Nat.shiftLeft_eq]; omega), ← Nat.shiftLeft_add_eq_or_of_lt hb, Nat.shiftLeft_eq]
  omega

/-- Shifting zero bits into ACC until it is full. -/
theorem acc_fill {c : List Bool} (k : Nat) :
    (BitVec.ofNat 8 (bitVal c)) <<< k = BitVec.ofNat 8 (bitVal (c ++ List.replicate k false)) := by
  refine BitVec.eq_of_toNat_eq ?_
  rw [bitVal_append, bitVal_replicate_false, List.length_replicate, BitVec.toNat_shiftLeft, BitVec.toNat_ofNat,
    BitVec.toNat_ofNat, Nat.shiftLeft_eq, Nat.add_zero, Nat.mod_mul_mod]

/-- With the bits `c` in ACC the loop writes the closed form of `c` and the bits to come. -/
theorem pack_eq_payloadOf (bits : List Bool) {c : List Bool} (hc : c.length < 8) :
    pack (BitVec.ofNat 8 (bitVal c)) c.length bits = payloadOf (c ++ bits) := by
  induction bits generalizing c with
  | nil =>
    rw [List.append_nil]
    obtain rfl | hne := eq_or_ne c []
    · rfl
    · have hpos := List.length_pos_iff.2 hne
      rw [payloadOf_of_short hpos hc, ← acc_fill]
      exact if_pos hpos
  | cons b bits ih =>
    have hlen : (c ++ [b]).length = c.length + 1 := by simp
    have hsplit : c ++ b :: bits = (c ++ [b]) ++ bits := by simp
    rw [pack, acc_shift hc, hsplit, ← hlen]
    split
    next hfull =>
      rw [payloadOf_append_eight hfull]
      exact congrArg _ (ih (c := []) (by decide))
    next hpart => exact ih (by omega)

/-! ### The bits of the payload (R85) -/

@[simp] theorem byteBits_length (b : Byte) : (byteBits b).length = 8 := bitsOf_length 8 _

theorem byteBits_ofNat_bitVal {d : List Bool} (hd : d.length = 8) : byteBits (BitVec.ofNat 8 (bitVal d)) = d := by
  have hlt : bitVal d < 2 ^ 8 := hd ▸ bitVal_lt d
  rw [byteBits, BitVec.toNat_ofNat, Nat.mod_eq_of_lt hlt, ← hd]
  exact bitsOf_bitVal d

/-- The payload's bits are the stream and the padding (R117, R119). -/
theorem payloadOf_flatMap_byteBits (bits : List Bool) :
    (payloadOf bits).flatMap byteBits = bits ++ List.replicate (padCount bits.length) false := by
  obtain hlong | hshort := Nat.lt_or_ge 7 bits.length
  · have htake : (bits.take 8).length = 8 := by rw [List.length_take]; omega
    have hrest := payloadOf_flatMap_byteBits (bits.drop 8)
    have hpad : padCount bits.length = padCount (bits.drop 8).length := by
      rw [← padCount_add_eight (bits.drop 8).length, List.length_drop]
      congr 1
      omega
    calc
      _ = (payloadOf (bits.take 8 ++ bits.drop 8)).flatMap byteBits := by rw [List.take_append_drop]
      _ = bits.take 8 ++ (bits.drop 8 ++ List.replicate (padCount (bits.drop 8).length) false) := by
        rw [payloadOf_append_eight htake, List.flatMap_cons, byteBits_ofNat_bitVal htake, hrest]
      _ = bits ++ List.replicate (padCount bits.length) false := by
        rw [← List.append_assoc, List.take_append_drop, hpad]
  · obtain rfl | hne := eq_or_ne bits []
    · rfl
    · have hpos := List.length_pos_iff.2 hne
      have hpad : padCount bits.length = 8 - bits.length := by
        rw [padCount, payloadLength_of_short hpos (by omega)]
      have hfull : (bits ++ List.replicate (8 - bits.length) false).length = 8 := by simp; omega
      rw [payloadOf_of_short hpos (by omega), hpad, List.flatMap_singleton, byteBits_ofNat_bitVal hfull]
termination_by bits.length
decreasing_by rw [List.length_drop]; omega

/-- Bit j of a byte-string: bit 7 − (j mod 8) of byte j div 8 (R85). -/
theorem flatMap_byteBits_getElem? {xs : List Byte} {j : Nat} (hj : j / 8 < xs.length) :
    (xs.flatMap byteBits)[j]? = some ((xs[j / 8].toNat >>> (7 - j % 8)) % 2 == 1) := by
  induction xs generalizing j with
  | nil => exact absurd hj (Nat.not_lt_zero _)
  | cons x xs ih =>
    rw [List.flatMap_cons]
    obtain hlt | hge := Nat.lt_or_ge j 8
    · have hdiv : j / 8 = 0 := by omega
      have hmod : j % 8 = j := by omega
      rw [List.getElem?_append_left (by simpa using hlt)]
      simp [byteBits, bitsOf, hlt, hdiv, hmod]
    · obtain ⟨i, rfl⟩ := Nat.exists_eq_add_of_le hge
      have hdiv : (8 + i) / 8 = i / 8 + 1 := by omega
      have hmod : (8 + i) % 8 = i % 8 := by omega
      have hi : i / 8 < xs.length := by rw [List.length_cons] at hj; omega
      rw [List.getElem?_append_right (by simp), byteBits_length, Nat.add_sub_cancel_left, ih hi]
      simp [hdiv, hmod]

/-- The bits DECODE walks (R85, R213). -/
theorem stream_eq {s : State} (h : s.hlen ≤ s.inLen.toNat) :
    s.stream = ((s.input.drop s.hlen).flatMap byteBits).take (8 * (s.inLen.toNat - s.hlen) - s.padBits) := by
  have hlen : s.stream.length = s.payloadBits := by simp [State.stream]
  rw [← State.payloadBits]
  refine List.ext_getElem? fun j => ?_
  obtain hj | hj := Nat.lt_or_ge j s.payloadBits
  · have hbyte : j / 8 < (s.input.drop s.hlen).length := by
      rw [List.length_drop, input_length]
      unfold State.payloadBits at hj
      omega
    have hread : (s.input.drop s.hlen)[j / 8] = s.memReadIn (s.hlen + j / 8) := by simp [State.input]
    rw [List.getElem?_take_of_lt hj, flatMap_byteBits_getElem? hbyte, hread]
    simp [State.stream, State.streamBit, hj]
  · rw [List.getElem?_eq_none (hlen.trans_le hj), List.getElem?_eq_none]
    rw [List.length_take]
    exact (Nat.min_le_left _ _).trans hj

/-! ### Pass 1 (R191) -/

theorem codeBits_of_codeOf {ct : List CodeTuple} {b : Byte} {t : CodeTuple} (h : codeOf ct b = some t) :
    codeBits ct b = t.bits := by
  simp only [codeBits, h]

@[simp] theorem CodeTuple.bits_length (t : CodeTuple) : t.bits.length = t.len := bitsOf_length _ _

/-- Pass 1 completes exactly when every byte has a code, with the length of the stream. -/
theorem measure_eq_ok_iff {ct : List CodeTuple} {bs : List Byte} {n m : Nat} :
    measure ct bs n = .ok m ↔
      (∀ b ∈ bs, ∃ t, codeOf ct b = some t) ∧ m = n + (bs.flatMap (codeBits ct)).length := by
  induction bs generalizing n with
  | nil => simp [measure, eq_comm]
  | cons b bs ih =>
    cases hb : codeOf ct b with
    | none => simp [measure, hb]
    | some t => simp [measure, hb, ih, codeBits_of_codeOf hb, Nat.add_assoc]

/-- Pass 1 stops at the first byte without a code. -/
theorem measure_noCode {ct : List CodeTuple} {bs : List Byte} {n k : Nat} {b : Byte} (hk : bs[k]? = some b)
    (hb : codeOf ct b = none) (hbefore : ∀ (m : Nat) c, m < k → bs[m]? = some c → codeOf ct c ≠ none) :
    measure ct bs n = .error (.noCode b) := by
  induction bs generalizing n k with
  | nil => simp at hk
  | cons x xs ih =>
    cases k with
    | zero =>
      obtain rfl : x = b := by simpa using hk
      simp [measure, hb]
    | succ k =>
      obtain ⟨t, ht⟩ := Option.ne_none_iff_exists'.1 (hbefore 0 x (Nat.succ_pos k) rfl)
      simpa [measure, ht] using ih hk fun m c hm hc => hbefore (m + 1) c (Nat.succ_lt_succ hm) hc

/-! ### ENCODE (R191) -/

/-- The stream ENCODE packs. -/
def State.bitStream (s : State) : List Bool := s.input.flatMap (codeBits s.ct)

theorem containerBytes_eq (s : State) (bits : Nat) :
    s.containerBytes bits = headerBytes s.nsym (padCount bits) s.ft ++ payloadOf s.bitStream := by
  rw [State.containerBytes]
  exact congrArg _ (pack_eq_payloadOf _ (c := []) (by decide))

theorem EncodeChecked.bits_eq {s : State} {bits : Nat} (h : EncodeChecked s bits) : bits = s.bitStream.length :=
  (measure_eq_ok_iff.1 h.measured).2.trans (Nat.zero_add _)

theorem containerBytes_length {s : State} (hn : s.nsym = s.ft.length) (bits : Nat) :
    (s.containerBytes bits).length = headerLength s.nsym + payloadLength s.bitStream.length := by
  rw [containerBytes_eq, List.length_append, headerBytes_length, payloadOf_length, hn]
  rfl

theorem EncodeChecked.fresh {s : State} {bits : Nat} (h : EncodeChecked s bits) : EncodeChecked s.fresh bits :=
  ⟨h.ready, h.fits, h.measured, h.room⟩

/-- When ENCODE's tests pass, in terms of the stream. -/
theorem encodeChecked_of_codes {s : State} (hft : s.status.ftValid = true) (hct : s.status.ctValid = true)
    (hcap : s.inLen.toNat ≤ s.caps.inCap.val) (hcodes : ∀ b ∈ s.input, ∃ c, codeOf s.ct b = some c)
    (hroom : headerLength s.nsym + payloadLength s.bitStream.length ≤ s.caps.outCap.val) :
    EncodeChecked s s.bitStream.length where
  ready := (encodeReady_iff s).2 ⟨hft, hct⟩
  fits := inputFits_of_le hcap
  measured := measure_eq_ok_iff.2 ⟨hcodes, (Nat.zero_add _).symm⟩
  room := hroom

/-- With no room for the container ENCODE stops at its last test (R245). -/
theorem encodeBody_of_full {s : State} {bits : Nat} (hready : s.encodeReady = true) (hfits : s.inputFits = true)
    (hbits : measure s.ct s.input 0 = .ok bits) (hfull : s.caps.outCap.val < headerLength s.nsym + payloadLength bits) :
    encodeBody s = .error .capacityOut := by
  simp only [encodeBody, hready, hfits, hbits, hfull]
  rfl

theorem codeBits_length_le {ct : List CodeTuple} {m : Nat} (h : ∀ t ∈ ct, t.len ≤ m) (b : Byte) :
    (codeBits ct b).length ≤ m := by
  cases hb : codeOf ct b with
  | none => simp [codeBits, hb]
  | some t =>
    rw [codeBits_of_codeOf hb, CodeTuple.bits_length]
    exact h t (List.mem_of_find?_eq_some hb)

/-- A stream is at most `m` bits for each byte when no code is longer (R195). -/
theorem flatMap_codeBits_length_le {ct : List CodeTuple} {m : Nat} (h : ∀ t ∈ ct, t.len ≤ m) (x : List Byte) :
    (x.flatMap (codeBits ct)).length ≤ m * x.length := by
  induction x with
  | nil => exact Nat.zero_le _
  | cons b x ih =>
    have := codeBits_length_le h b
    rw [List.flatMap_cons, List.length_append, List.length_cons, Nat.mul_succ]
    omega

theorem bitStream_length_le {s : State} {m : Nat} (h : ∀ t ∈ s.ct, t.len ≤ m) :
    s.bitStream.length ≤ m * s.inLen.toNat := input_length s ▸ flatMap_codeBits_length_le h s.input

theorem bitStream_length (s : State) : s.bitStream.length = (s.input.map fun b => (codeBits s.ct b).length).sum := by
  rw [State.bitStream, List.length_flatMap]

/-! ### The obligations -/

/-- Settles O42: by the closed form, eight bits at a time. -/
theorem packingIsMsbFirst : Obligations.PackingIsMsbFirst := by
  intro bits
  have hpack : pack 0 0 bits = payloadOf bits := pack_eq_payloadOf bits (c := []) (by decide)
  rw [hpack]
  exact ⟨rfl, payloadOf_length bits, padCount_le _, eight_mul_payloadLength _, payloadOf_flatMap_byteBits bits⟩

/-- Settles O43: ENCODE's tests pass, and its bytes are those of the closed form. -/
theorem encodeWritesTheContainer : Obligations.EncodeWritesTheContainer := by
  intro s herr hft hct hcap hcodes hn hroom
  have hchecked : EncodeChecked s.fresh s.bitStream.length :=
    (encodeChecked_of_codes hft hct hcap hcodes hroom).fresh
  exact ⟨_, run_ok herr hchecked.encodeBody_eq, herr, (encoded_output _ _).trans (containerBytes_eq _ _),
    containerBytes_length (s := s.fresh) hn _, rfl, rfl, rfl, rfl⟩

/-- Settles O44: by ENCODE's tests after its flags, in their order. -/
theorem encodeErrors : Obligations.EncodeErrors := by
  intro s herr hft hct
  have hready : s.fresh.encodeReady = true := (encodeReady_iff _).2 ⟨hft, hct⟩
  refine ⟨fun hcap => ?_, fun n b hcap hn hb hbefore => ?_, fun hcap hcodes hroom => ?_⟩
  · obtain ⟨-, -, -, -, hencode, -⟩ := inputBeyondCapacity s herr hcap
    exact hencode hft hct
  · have hfits : s.fresh.inputFits = true := inputFits_of_le (s := s.fresh) hcap
    have hmeasure : measure s.fresh.ct s.fresh.input 0 = .error (.noCode b) := measure_noCode hn hb hbefore
    exact run_error herr (by simp only [encodeBody, hready, hfits, hmeasure]; rfl)
  · have hfits : s.fresh.inputFits = true := inputFits_of_le (s := s.fresh) hcap
    have hmeasure : measure s.fresh.ct s.fresh.input 0 = .ok s.bitStream.length :=
      measure_eq_ok_iff.2 ⟨fun b hb => Option.ne_none_iff_exists'.1 (hcodes b hb), (Nat.zero_add _).symm⟩
    exact run_error herr (encodeBody_of_full hready hfits hmeasure hroom)

/-- Settles O45: BITLEN is the length of the stream; CT's widths bound each code by 255 bits and IN has at most 2^24
bytes. -/
theorem bitLengthIsTheSumOfCodeLengths : Obligations.BitLengthIsTheSumOfCodeLengths := by
  intro s t hinv herr h ht
  obtain ⟨u, hu, rfl⟩ := exec_ok rfl herr h ht
  obtain ⟨bits, hchecked, rfl⟩ := encodeBody_ok hu
  have hbits : (s.fresh.encoded bits).finish.bitLen = s.bitStream.length := hchecked.bits_eq
  have hcap : s.inLen.toNat ≤ s.caps.inCap.val := of_decide_eq_true hchecked.fits
  have hmax : s.caps.inCap.val < 2 ^ 24 + 1 := s.caps.inCap.isLt
  have hbound := bitStream_length_le (s := s) (m := 255) fun t ht =>
    Nat.le_of_lt_succ (hinv.widths.ct.2 t ht).1
  rw [hbits]
  refine ⟨bitStream_length s, fun hft => ?_, hbound, by omega⟩
  rw [bitStream_length, hft]
  exact (sum_freqTable s.input fun b => (codeBits s.ct b).length).symm

/-- Settles O55: bit by bit. -/
theorem streamIsThePayloadBits : Obligations.StreamIsThePayloadBits := fun _ => stream_eq

end Sys2Proof.Machine

/-! ## The invariant (R34, R38 to R48, R52, R161 to R167)

What a command writes falls in one of four parts of the state: the table and the header over a cleared state, the builder's
part, the code table, and the output. One lemma per part says what a new part must satisfy for the invariant to hold, and a
command's body is a chain of these. DONE is set only at the end of a command, so between the stages the invariant is
that of the state with DONE set. -/

namespace Sys2Proof.Machine

/-! ### What the invariant does not look at -/

/-- The state with another content of IN, another IN_LEN, another host and another draw. -/
def State.withHost (s : State) (m : Memory) (n : Word) (hs : List HostAction) (d : HostValue) (k : Nat) : State :=
  { s with inMem := m, inLen := n, host := hs, hostData := d, freeCount := k }

theorem withHost_sameBuilder (s : State) (m : Memory) (n : Word) (hs : List HostAction) (d : HostValue) (k : Nat) :
    SameBuilder s (s.withHost m n hs d k) := ⟨rfl, rfl, rfl, rfl, rfl, rfl, rfl⟩

theorem Coherent.withHost {s : State} (h : Coherent s) (m : Memory) (n : Word) (hs : List HostAction) (d : HostValue)
    (k : Nat) : Coherent (s.withHost m n hs d k) :=
  have hsame := withHost_sameBuilder s m n hs d k
  { h with
    list := fun hwl => ⟨(h.list hwl).1, ((h.underConstruction hwl).congr hsame).arena⟩
    codes := fun hct =>
      have htree := (h.codes hct).1
      ⟨htree, (h.codes hct).2.trans ((h.wholeTree htree).codeTable_congr hsame)⟩ }

theorem Widths.withHost {s : State} (h : Widths s) (m : Memory) (n : Word) (hs : List HostAction) (d : HostValue)
    (k : Nat) : Widths (s.withHost m n hs d k) := { h with }

theorem StateInv.withHost {s : State} (h : StateInv s) {m : Memory} (hm : m.wf) (hbound : ∀ c ∈ m, c.1 < s.caps.inCap.val)
    (n : Word) (hs : List HostAction) (d : HostValue) (k : Nat) : StateInv (s.withHost m n hs d k) where
  inWf := hm
  inBound := hbound
  outWf := h.outWf
  widths := h.widths.withHost m n hs d k
  errored herr := ⟨(h.errored herr).status, (h.errored herr).cause⟩
  coherent herr := (h.coherent herr).withHost m n hs d k

theorem Coherent.finish {s : State} (h : Coherent s) : Coherent s.finish :=
  { h with
    done := fun _ => rfl
    list := fun hwl => ⟨(h.list hwl).1, { (h.list hwl).2 with }⟩ }

theorem StateInv.finish {s : State} (h : StateInv s) : StateInv s.finish where
  inWf := h.inWf
  inBound := h.inBound
  outWf := h.outWf
  widths := { h.widths with }
  errored herr := ⟨congrArg Status.setDone (h.errored herr).status, (h.errored herr).cause⟩
  coherent herr := (h.coherent herr).finish

/-! ### Errors (R240, R241, R247) -/

theorem legal_of_mayRaise {i : Instr} {e : Cause} (h : mayRaise i e = true) : e.legal = true := by
  cases e with
  | sequence op =>
    cases i <;> simp [mayRaise] at h <;> subst h <;> decide
  | illegalCommand c => cases i <;> cases h
  | _ => rfl

theorem legal_of_undecoded {c : Word} (h : ∃ e, decodeWord c = .error e) : (Cause.illegalCommand c).legal = true := by
  obtain hdiv | hmod := (decodeWord_error_iff c).1 h
  · have hzero : (wordZero c == 0) = false := beq_false_of_ne (mt (wordZero_eq_zero_iff c).1 hdiv)
    rw [Cause.legal, wordWf, hzero]
    rfl
  · simp [Cause.legal, wordWf, wordOp_toNat, Nat.not_lt.2 hmod]

theorem nodeOfBits_bounds (n : Bool × BitVec 8 × BitVec 24 × BitVec 9 × BitVec 9) :
    (nodeOfBits n).weight < 2 ^ 24 ∧ ∀ k ∈ (nodeOfBits n).children, k < 2 ^ 9 := by
  obtain ⟨leaf, b, w, l, r⟩ := n
  cases leaf with
  | true => exact ⟨w.isLt, fun k hk => absurd hk List.not_mem_nil⟩
  | false =>
    refine ⟨w.isLt, fun k hk => ?_⟩
    have hlr : k = l.toNat ∨ k = r.toNat := by simpa [nodeOfBits, Node.children] using hk
    obtain rfl | rfl := hlr
    · exact l.isLt
    · exact r.isLt

/-- After an error the free values are within the widths (R38 to R48). -/
theorem raise_widths (e : Cause) (s : State) : Widths (raise e s) where
  outLen := BitVec.isLt _
  nsym := BitVec.isLt _
  padBits := BitVec.isLt _
  bitLen := BitVec.isLt _
  hlen := BitVec.isLt _
  nnodes := BitVec.isLt _
  root := BitVec.isLt _
  wlLen := BitVec.isLt _
  ctLen := BitVec.isLt _
  ft := by
    refine ⟨(List.length_map ..).trans_le (List.length_take_le _ _), fun x hx => ?_⟩
    obtain ⟨b, -, rfl⟩ := List.mem_map.1 hx
    exact b.2.isLt
  node := by
    refine ⟨(List.length_map ..).trans_le (List.length_take_le _ _), fun x hx => ?_⟩
    obtain ⟨b, -, rfl⟩ := List.mem_map.1 hx
    exact nodeOfBits_bounds b
  wl := by
    refine ⟨(List.length_map ..).trans_le (List.length_take_le _ _), fun x hx => ?_⟩
    obtain ⟨b, -, rfl⟩ := List.mem_map.1 hx
    exact b.isLt
  ct := by
    refine ⟨(List.length_map ..).trans_le (List.length_take_le _ _), fun x hx => ?_⟩
    obtain ⟨b, -, rfl⟩ := List.mem_map.1 hx
    exact ⟨b.2.1.isLt, b.2.2.isLt⟩

theorem StateInv.raise {s : State} (h : StateInv s) {e : Cause} (he : e.legal = true) : StateInv (raise e s) where
  inWf := h.inWf
  inBound := h.inBound
  outWf := List.Pairwise.nil
  widths := raise_widths e s
  errored _ := ⟨rfl, e, he, rfl, rfl⟩
  coherent herr := nomatch herr

/-! ### A cleared state with a table and a header -/

/-- The builder's part, the code table and the output hold nothing (R53). -/
structure Cleared (s : State) : Prop where
  outLen : s.outLen = 0
  bitLen : s.bitLen = 0
  nnodes : s.nnodes = 0
  root : s.root = 0
  wlLen : s.wlLen = 0
  ctLen : s.ctLen = 0
  node : s.node = []
  wl : s.wl = []
  ct : s.ct = []
  outMem : s.outMem = []
  wlValid : s.status.wlValid = false
  treeValid : s.status.treeValid = false
  ctValid : s.status.ctValid = false
  outValid : s.status.outValid = false

/-- What the invariant says of the table, the header and the error registers while ERR = 0. -/
structure TableOk (s : State) : Prop where
  err : s.status.err = false
  errCode : s.errCode = 0
  errInfo : s.errInfo = 0
  nsym : s.nsym = s.ft.length
  length : s.ft.length ≤ 256
  counts : ∀ e ∈ s.ft, e.cnt < 2 ^ 16
  padBits : s.padBits < 2 ^ 3
  hlen : s.hlen < 2 ^ 10
  done : s.status.ftValid = true → s.status.done = true
  noTable : s.status.ftValid = false → s.ft = []
  header : s.status.hdrValid = true →
    s.status.ftValid = true ∧ s.hlen = (if s.nsym = 0 then 0 else headerLength s.nsym) ∧ (s.nsym = 0 → s.padBits = 0)

section
variable {s : State} (hc : Cleared s) (ht : TableOk s)
include hc ht

theorem Cleared.widths : Widths s where
  outLen := by simp [hc.outLen]
  nsym := by have := ht.nsym; have := ht.length; omega
  padBits := ht.padBits
  bitLen := by simp [hc.bitLen]
  hlen := ht.hlen
  nnodes := by simp [hc.nnodes]
  root := by simp [hc.root]
  wlLen := by simp [hc.wlLen]
  ctLen := by simp [hc.ctLen]
  ft := ⟨ht.length, ht.counts⟩
  node := by simp [hc.node]
  wl := by simp [hc.wl]
  ct := by simp [hc.ct]

theorem Cleared.coherent : Coherent s where
  errCode := ht.errCode
  errInfo := ht.errInfo
  nsym := ht.nsym
  nnodes := by simp [hc.nnodes, hc.node]
  wlLen := by simp [hc.wlLen, hc.wl]
  ctLen := by simp [hc.ctLen, hc.ct]
  done := ht.done
  noTable := ht.noTable
  noList _ := ⟨hc.node, hc.wl⟩
  noCodes _ := hc.ct
  noOutput _ := ⟨hc.outLen, hc.outMem⟩
  header := ht.header
  list := by simp [hc.wlValid]
  finished := by simp [hc.wlValid]
  tree := by simp [hc.treeValid]
  codes := by simp [hc.ctValid]
  output := by simp [hc.outValid]

theorem Cleared.stateInv (hwf : s.inMem.wf) (hbound : ∀ c ∈ s.inMem, c.1 < s.caps.inCap.val) : StateInv s where
  inWf := hwf
  inBound := hbound
  outWf := hc.outMem ▸ List.Pairwise.nil
  widths := hc.widths ht
  errored herr := by simp [ht.err] at herr
  coherent _ := hc.coherent ht

end

theorem resetWith_stateInv (caps : Caps) : StateInv (State.resetWith caps) :=
  have hc : Cleared (State.resetWith caps) := ⟨rfl, rfl, rfl, rfl, rfl, rfl, rfl, rfl, rfl, rfl, rfl, rfl, rfl, rfl⟩
  hc.stateInv ⟨rfl, rfl, rfl, rfl, Nat.zero_le _, fun _ he => absurd he List.not_mem_nil, Nat.zero_lt_succ _, Nat.zero_lt_succ _,
    (fun h => nomatch h), fun _ => rfl, (fun h => nomatch h)⟩ List.Pairwise.nil fun _ h => absurd h List.not_mem_nil

/-- CLEAR gives the reset state but for the part the invariant does not look at. -/
theorem StateInv.clearAll {s : State} (h : StateInv s) : StateInv (clearAll s) :=
  (resetWith_stateInv s.caps).withHost h.inWf h.inBound s.inLen s.host s.hostData s.freeCount

/-! ### Between the stages of a command -/

/-- The state between two stages of a command: ERR = 0, and the invariant holds once DONE is set. -/
structure Sound (s : State) : Prop where
  err : s.status.err = false
  inv : StateInv s.finish

theorem StateInv.sound {s : State} (h : StateInv s) (herr : s.status.err = false) : Sound s.fresh where
  err := herr
  inv := (h.withHost h.inWf h.inBound s.inLen s.host s.hostData (s.freeCount + 1)).finish

section
variable {s : State} (h : Sound s)
include h

theorem Sound.coherent : Coherent s.finish := h.inv.coherent h.err

theorem Sound.nsym : s.nsym = s.ft.length := h.coherent.nsym

theorem Sound.nsym_le : s.nsym ≤ 256 := h.nsym ▸ h.inv.widths.ft.1

theorem Sound.hlen_lt : headerLength s.nsym < 2 ^ 10 := by
  have := h.nsym_le
  unfold headerLength
  omega

/-! ### FREQ and HDRPARSE -/

theorem Sound.tabled {ft : List FtEntry} (hcount : countAll s.input [] = .ok ft) : Sound (s.tabled ft) where
  err := h.err
  inv := by
    obtain ⟨hle, rfl⟩ := (countAll_eq_ok_iff _ _).1 hcount
    have hc : Cleared (s.tabled (freqTable s.input)).finish :=
      ⟨rfl, rfl, rfl, rfl, rfl, rfl, rfl, rfl, rfl, rfl, rfl, rfl, rfl, rfl⟩
    have hcnt : ∀ e ∈ freqTable s.input, e.cnt < 2 ^ 16 := fun e he => by
      have := (mem_freqTable.1 he).2
      have := hle e.sym
      omega
    exact hc.stateInv ⟨h.err, h.coherent.errCode, h.coherent.errInfo, rfl, freqTable_length_le _, hcnt, Nat.zero_lt_succ _,
      Nat.zero_lt_succ _, fun _ => rfl, (fun h => nomatch h), (fun h => nomatch h)⟩ h.inv.inWf h.inv.inBound

theorem Sound.parsedEmpty : Sound s.parsedEmpty where
  err := h.err
  inv :=
    have hc : Cleared s.parsedEmpty.finish := ⟨rfl, rfl, rfl, rfl, rfl, rfl, rfl, rfl, rfl, rfl, rfl, rfl, rfl, rfl⟩
    hc.stateInv ⟨h.err, h.coherent.errCode, h.coherent.errInfo, rfl, Nat.zero_le _,
      fun _ he => absurd he List.not_mem_nil, Nat.zero_lt_succ _, Nat.zero_lt_succ _, fun _ => rfl, (fun h => nomatch h),
      fun _ => ⟨rfl, rfl, fun _ => rfl⟩⟩ h.inv.inWf h.inv.inBound

end

/-- A header's entry has a count of two bytes (R118). -/
theorem headerEntry_cnt_lt (s : State) (i : Nat) : (s.headerEntry i).cnt < 2 ^ 16 := by
  have hhigh := (s.memReadIn (3 + 3 * i)).isLt
  have hlow := (s.memReadIn (4 + 3 * i)).isLt
  rw [headerEntry_eq]
  show (s.memReadIn (3 + 3 * i)).toNat * 256 + (s.memReadIn (4 + 3 * i)).toNat < 2 ^ 16
  omega

theorem headerCount_le (s : State) : s.headerCount ≤ 256 := (s.memReadIn 0).isLt

/-- What HDRPARSE has checked when it comes to a table (R210). -/
theorem parsed_checks {s : State} (h : hdrparseBody s = .ok s.parsed) :
    s.inLen.toNat ≤ s.caps.inCap.val ∧ headerLength s.headerCount ≤ s.inLen.toNat ∧ s.headerPad ≤ 7 := by
  obtain hcap | hcap := Nat.lt_or_ge s.caps.inCap.val s.inLen.toNat
  · cases (hdrparseBody_of_not_fits hcap).symm.trans h
  obtain hlen | hlen := Nat.lt_or_ge 1 s.inLen.toNat
  · rw [hdrparseBody_of_two_le hcap hlen] at h
    split_ifs at h with hshort hrange
    exact ⟨hcap, Nat.not_lt.1 hshort, Nat.not_lt.1 hrange⟩
  obtain hzero | hone : s.inLen.toNat = 0 ∨ s.inLen.toNat = 1 := by omega
  · cases (hdrparseBody_of_inLen_zero (BitVec.eq_of_toNat_eq hzero)).symm.trans h
  · cases (hdrparseBody_of_inLen_one (BitVec.eq_of_toNat_eq hone) (hone.ge.trans hcap)).symm.trans h

theorem headerLength_headerCount_lt (s : State) : headerLength s.headerCount < 2 ^ 10 := by
  have := headerCount_le s
  unfold headerLength
  omega

theorem Sound.parsed {s : State} (h : Sound s) (hparse : hdrparseBody s = .ok s.parsed) : Sound s.parsed where
  err := h.err
  inv := by
    obtain ⟨-, -, hpad⟩ := parsed_checks hparse
    have hc : Cleared s.parsed.finish := ⟨rfl, rfl, rfl, rfl, rfl, rfl, rfl, rfl, rfl, rfl, rfl, rfl, rfl, rfl⟩
    have hft : s.parsed.finish.ft.length = s.headerCount := by simp [State.parsed]
    have hcnt : ∀ e ∈ s.parsed.finish.ft, e.cnt < 2 ^ 16 := fun e he => by
      obtain ⟨i, -, rfl⟩ := List.mem_map.1 he
      exact headerEntry_cnt_lt s i
    have hheader : s.parsed.finish.hlen =
        if s.parsed.finish.nsym = 0 then 0 else headerLength s.parsed.finish.nsym :=
      (if_neg (Nat.succ_ne_zero _)).symm
    exact hc.stateInv ⟨h.err, h.coherent.errCode, h.coherent.errInfo, hft.symm, hft ▸ headerCount_le s, hcnt,
      Nat.lt_succ_of_le hpad, headerLength_headerCount_lt s, fun _ => rfl, (fun h => nomatch h),
      fun _ => ⟨rfl, hheader, fun h => absurd h (Nat.succ_ne_zero _)⟩⟩ h.inv.inWf h.inv.inBound

/-! ### SEED, MERGE and BUILD -/

/-- A new builder's part: the tree under construction, and no codes. -/
structure Rebuilt (s t : State) : Prop where
  frame : t = { s with
    node := t.node, nnodes := t.nnodes, wl := t.wl, wlLen := t.wlLen, root := t.root, ct := [], ctLen := 0
    status := { s.status with wlValid := true, treeValid := t.wlLen == 1, ctValid := false } }
  built : UnderConstruction t
  root : t.root < 2 ^ 9

section
variable {s t : State} (h : StateInv s) (hr : Rebuilt s t)
include h hr

theorem Rebuilt.widths : Widths t := by
  have hft : t.ft = s.ft := by rw [hr.frame]
  have hftWidth := hft ▸ h.widths.ft
  have hnsym := hr.built.nsym
  have hnnodes := hr.built.nnodes
  have hwlLen := hr.built.wlLen
  have hcounts := hr.built.arena.counts
  have hseeded := hr.built.arena.seeded
  have hle := hr.built.arena.nsym_le hnsym
  have hnonempty := hr.built.arena.nonempty
  have hlength := hftWidth.1
  have hnodes : t.node.length ≤ 511 := by omega
  refine ⟨?_, ?_, ?_, ?_, ?_, ?_, hr.root, ?_, ?_, hftWidth, ⟨hnodes, fun n hn => ⟨?_, fun k hk => ?_⟩⟩,
    ⟨by omega, fun k hk => ?_⟩, ?_⟩
  · rw [hr.frame]; exact h.widths.outLen
  · omega
  · rw [hr.frame]; exact h.widths.padBits
  · rw [hr.frame]; exact h.widths.bitLen
  · rw [hr.frame]; exact h.widths.hlen
  · omega
  · omega
  · rw [hr.frame]; exact Nat.zero_lt_succ _
  · have := hr.built.arena.bounded n hn
    have := totalCount_le hftWidth.1 hftWidth.2
    omega
  · obtain ⟨i, hi, rfl⟩ := List.getElem_of_mem hn
    have := hr.built.arena.lt_of_mem_children hi hk
    omega
  · have := hr.built.arena.lt_of_mem_wl hk
    omega
  · rw [hr.frame]
    exact ⟨Nat.zero_le _, fun _ hc => absurd hc List.not_mem_nil⟩

theorem Rebuilt.coherent (herr : s.status.err = false) (hft : s.status.ftValid = true) : Coherent t := by
  have hs := h.coherent herr
  have hwl : t.status.wlValid = true := by rw [hr.frame]
  have htree : t.status.treeValid = (t.wlLen == 1) := by rw [hr.frame]
  have hct : t.status.ctValid = false := by rw [hr.frame]
  have hftValid : t.status.ftValid = true := by rw [hr.frame]; exact hft
  refine {
    errCode := by rw [hr.frame]; exact hs.errCode
    errInfo := by rw [hr.frame]; exact hs.errInfo
    nsym := hr.built.nsym
    nnodes := hr.built.nnodes
    wlLen := hr.built.wlLen
    ctLen := by rw [hr.frame]; rfl
    done := fun _ => by rw [hr.frame]; exact hs.done hft
    noTable := by simp [hftValid]
    noList := by simp [hwl]
    noCodes := fun _ => by rw [hr.frame]
    noOutput := by rw [hr.frame]; exact hs.noOutput
    header := by rw [hr.frame]; exact hs.header
    list := fun _ => ⟨hftValid, hr.built.arena⟩
    finished := fun _ => by simp [htree]
    tree := fun hone => ⟨hwl, hr.built.root (by simpa [htree] using hone)⟩
    codes := by simp [hct]
    output := by rw [hr.frame]; exact hs.output }

theorem Rebuilt.stateInv (herr : s.status.err = false) (hft : s.status.ftValid = true) : StateInv t where
  inWf := by rw [hr.frame]; exact h.inWf
  inBound := by rw [hr.frame]; exact h.inBound
  outWf := by rw [hr.frame]; exact h.outWf
  widths := hr.widths h
  errored he := by
    rw [hr.frame] at he
    exact absurd (herr.symm.trans he) Bool.false_ne_true
  coherent _ := hr.coherent h herr hft

end

section
variable {s : State} (h : Sound s)
include h

theorem Sound.planted (hft : s.status.ftValid = true) (hn : 1 ≤ s.nsym) : Sound s.planted where
  err := h.err
  inv :=
    have hr : Rebuilt s.finish s.planted.finish :=
      ⟨rfl, planted_underConstruction (s := s.finish) h.nsym hn, Nat.zero_lt_succ _⟩
    hr.stateInv h.inv h.err hft

theorem Sound.built (hft : s.status.ftValid = true) (hn : 1 ≤ s.nsym) : Sound s.built where
  err := (congrArg Status.err (built_status hn)).trans h.err
  inv :=
    have htree : WholeTree s.built.finish :=
      (built_wholeTree (s := s) h.nsym hn).congr ⟨rfl, rfl, rfl, rfl, rfl, rfl, rfl⟩
    have hroot : s.built.root < 2 ^ 9 := by
      have hnsym : s.built.nsym = s.nsym := built_keeps (f := State.nsym) (fun _ => rfl) (fun _ => rfl) s
      have := (built_wholeTree (s := s) h.nsym hn).root_eq
      have := h.nsym_le
      omega
    have hr : Rebuilt s.finish s.built.finish := by
      refine ⟨?_, htree.toUnderConstruction, hroot⟩
      rw [built_eq s, built_status hn, built_wlLen hn]
      rfl
    hr.stateInv h.inv h.err hft

/-- Before a merge the tree is not finished, and so there are no codes. -/
theorem Sound.no_codes (hwl : s.status.wlValid = true) (hlen : 2 ≤ s.wlLen) :
    s.status.treeValid = false ∧ s.status.ctValid = false ∧ s.ct = [] := by
  have htree : s.status.treeValid = false := Bool.eq_false_iff.2 fun ht => by
    have hone : s.wlLen = 1 := (h.coherent.finished hwl).1 ht
    omega
  have hct : s.status.ctValid = false := Bool.eq_false_iff.2 fun hct =>
    absurd (htree.symm.trans (h.coherent.codes hct).1) Bool.false_ne_true
  exact ⟨htree, hct, h.coherent.noCodes hct⟩

theorem Sound.mergeOnce (hwl : s.status.wlValid = true) (hlen : 2 ≤ s.wlLen) : Sound (mergeOnce s) where
  err := h.err
  inv := by
    have hu : UnderConstruction s := (h.coherent.underConstruction hwl).congr ⟨rfl, rfl, rfl, rfl, rfl, rfl, rfl⟩
    obtain ⟨htree, hctValid, hct⟩ := h.no_codes hwl hlen
    have hctLen : s.ctLen = 0 := h.coherent.ctLen.trans (congrArg List.length hct)
    have hroot : (Machine.mergeOnce s).root < 2 ^ 9 := by
      rw [mergeOnce_root]
      split
      · have := hu.nsym
        have := h.nsym_le
        have := hu.arena.counts
        omega
      · exact h.inv.widths.root
    have hstatus : s.status.afterMerge (s.wlLen - 1) =
        { s.status with wlValid := true, treeValid := s.wlLen - 1 == 1, ctValid := false } := by
      simp [Status.afterMerge, htree, hctValid, hwl]
    have hr : Rebuilt s.finish (Machine.mergeOnce s).finish := by
      refine ⟨?_, (hu.mergeOnce hlen).congr ⟨rfl, rfl, rfl, rfl, rfl, rfl, rfl⟩, hroot⟩
      rw [State.finish, mergeOnce_status, hstatus, ← hct, ← hctLen]
      rfl
    exact hr.stateInv h.inv h.err (h.coherent.list hwl).1

/-! ### CODEGEN -/

theorem Sound.wholeTree (ht : s.status.treeValid = true) : WholeTree s :=
  (h.coherent.wholeTree ht).congr ⟨rfl, rfl, rfl, rfl, rfl, rfl, rfl⟩

theorem Sound.coded (ht : s.status.treeValid = true) : Sound s.coded where
  err := h.err
  inv := by
    have htree := h.wholeTree ht
    have hn := h.nsym_le
    have hlength := htree.codeTable_length
    have hct : ∀ c ∈ s.codeTable, c.len < 2 ^ 8 ∧ c.val < 2 ^ 255 := fun c hc => by
      have hlen := htree.len_lt hc
      exact ⟨by omega, (htree.val_lt hc).trans_le (Nat.pow_le_pow_right (by decide) (by omega))⟩
    refine ⟨h.inv.inWf, h.inv.inBound, h.inv.outWf,
      { h.inv.widths with ctLen := ?_, ct := ⟨hlength.trans_le hn, hct⟩ },
      fun he => absurd (h.err.symm.trans he) Bool.false_ne_true, fun _ =>
        { h.coherent with
          ctLen := rfl
          noCodes := (fun h => nomatch h)
          codes := fun _ => ⟨ht, rfl⟩
          list := fun hwl => ⟨(h.coherent.list hwl).1, { (h.coherent.list hwl).2 with }⟩ }⟩
    show s.codeTable.length < 2 ^ 9
    omega

end

/-! ### The output -/

/-- A new output within OUT_CAP and its registers. -/
structure Output (s t : State) (bytes : List Byte) : Prop where
  frame : t = { s.putOut bytes with
    bitLen := t.bitLen, padBits := t.padBits, hlen := t.hlen
    status := { s.status with outValid := true, hdrValid := t.status.hdrValid } }
  room : bytes.length ≤ s.caps.outCap.val
  bitLen : t.bitLen < 2 ^ 32
  padBits : t.padBits < 2 ^ 3
  hlen : t.hlen < 2 ^ 10
  header : t.status.hdrValid = true → s.status.hdrValid = true ∧ t.hlen = s.hlen ∧ t.padBits = s.padBits

section
variable {s t : State} {bytes : List Byte} (h : StateInv s) (ho : Output s t bytes)
include h ho

theorem Output.widths : Widths t := by
  have hroom := ho.room
  have hcap := s.caps.outCap.isLt
  rw [ho.frame]
  exact { h.widths with
    outLen := hroom.trans_lt hcap, bitLen := ho.bitLen, padBits := ho.padBits, hlen := ho.hlen }

theorem Output.coherent (herr : s.status.err = false) (hft : s.status.ftValid = true) : Coherent t := by
  have hs := h.coherent herr
  have hheader : t.status.hdrValid = true → s.status.ftValid = true ∧
      t.hlen = (if s.nsym = 0 then 0 else headerLength s.nsym) ∧ (s.nsym = 0 → t.padBits = 0) := fun hhdr => by
    obtain ⟨hvalid, hhlen, hpad⟩ := ho.header hhdr
    rw [hhlen, hpad]
    exact hs.header hvalid
  rw [ho.frame]
  exact { hs with
    noOutput := (fun h => nomatch h)
    header := hheader
    list := fun hwl => ⟨(hs.list hwl).1, { (hs.list hwl).2 with }⟩
    codes := fun hct => hs.codes hct
    output := fun _ => ⟨hft, Memory.writeBytes_offsets bytes, ho.room⟩ }

theorem Output.stateInv (herr : s.status.err = false) (hft : s.status.ftValid = true) : StateInv t where
  inWf := by rw [ho.frame]; exact h.inWf
  inBound := by rw [ho.frame]; exact h.inBound
  outWf := by rw [ho.frame]; exact Memory.writeBytes_wf _ _ _ List.Pairwise.nil
  widths := ho.widths h
  errored he := by
    rw [ho.frame] at he
    exact absurd (herr.symm.trans he) Bool.false_ne_true
  coherent _ := ho.coherent h herr hft

end

/-- Within a capacity the walk writes no more than it. -/
theorem decodeBits_length_le {nodeOf : Nat → Node} {root cap cur n : Nat} {bits : List Bool} {out : List Byte}
    (hn : n ≤ cap) (h : decodeBits nodeOf root cap bits cur n = .ok out) : n + out.length ≤ cap := by
  induction bits generalizing cur n out with
  | nil =>
    unfold decodeBits at h
    split at h <;> cases h
    exact hn
  | cons b bs ih =>
    unfold decodeBits at h
    split at h
    next => cases h
    next =>
      dsimp only at h
      split at h
      next => exact ih hn h
      next =>
        split at h
        next hlt =>
          split at h <;> cases h
          next out hrest =>
            have := ih (Nat.succ_le_of_lt hlt) hrest
            rw [List.length_cons]
            omega
        next => cases h

theorem decoded_length_le {s : State} {out : List Byte} (h : s.decoded = .ok out) : out.length ≤ s.caps.outCap.val := by
  cases hroot : s.nodeAt s.root with
  | leaf b w =>
    rw [decoded_of_root_leaf hroot] at h
    split_ifs at h with _ hroom
    cases h
    rw [List.length_replicate]
    exact Nat.not_lt.1 hroom
  | internal w l r =>
    simp only [State.decoded, hroot] at h
    simpa using decodeBits_length_le (Nat.zero_le _) h

theorem inLen_le_of_fits {s : State} (hfits : s.inputFits = true) : s.inLen.toNat ≤ 2 ^ 24 :=
  (of_decide_eq_true hfits : s.inLen.toNat ≤ s.caps.inCap.val).trans (Nat.le_of_lt_succ s.caps.inCap.isLt)

section
variable {s : State} (h : Sound s)
include h

theorem Sound.encoded {bits : Nat} (hchecked : EncodeChecked s bits) : Sound (s.encoded bits) where
  err := h.err
  inv :=
    have hbits := hchecked.bits_eq
    have hstream := bitStream_length_le (s := s) (m := 255) fun t ht => Nat.le_of_lt_succ (h.inv.widths.ct.2 t ht).1
    have hin := inLen_le_of_fits hchecked.fits
    have ho : Output s.finish (s.encoded bits).finish (s.containerBytes bits) := {
      frame := rfl
      room := (containerBytes_length h.nsym bits).trans_le (hbits ▸ hchecked.room)
      bitLen := by
        show bits < 2 ^ 32
        omega
      padBits := Nat.lt_succ_of_le (padCount_le _)
      hlen := h.hlen_lt
      header := (fun h => nomatch h) }
    ho.stateInv h.inv h.err ((encodeReady_iff s).1 hchecked.ready).1

theorem Sound.unpacked {out : List Byte} (hchecked : DecodeChecked s) (hdec : s.decoded = .ok out) :
    Sound (s.unpacked out) where
  err := h.err
  inv :=
    have hhdr := ((decodeReady_iff s).1 hchecked.ready).1
    have hin := inLen_le_of_fits hchecked.fits
    have ho : Output s.finish (s.unpacked out).finish out := {
      frame := rfl
      room := decoded_length_le hdec
      bitLen := by
        show 8 * (s.inLen.toNat - s.hlen) - s.padBits < 2 ^ 32
        omega
      padBits := h.inv.widths.padBits
      hlen := h.inv.widths.hlen
      header := fun _ => ⟨hhdr, rfl, rfl⟩ }
    ho.stateInv h.inv h.err (h.coherent.header hhdr).1

theorem Sound.putEmpty (hft : s.status.ftValid = true) (hhlen : s.hlen = 0) (hpad : s.padBits = 0) :
    Sound s.putEmpty where
  err := h.err
  inv :=
    have ho : Output s.finish s.putEmpty.finish [] :=
      ⟨rfl, Nat.zero_le _, Nat.zero_lt_succ _, Nat.zero_lt_succ _, Nat.zero_lt_succ _,
        fun hhdr => ⟨hhdr, hhlen.symm, hpad.symm⟩⟩
    ho.stateInv h.inv h.err hft

/-! ### The composites -/

theorem Sound.compressed {ft : List FtEntry} (hcount : countAll s.input [] = .ok ft) (hn : 1 ≤ ft.length) :
    Sound (s.compressed ft) :=
  ((h.tabled hcount).built rfl hn).coded (by rw [tabled_built_status hn])

theorem Sound.parsed_built (hparse : hdrparseBody s = .ok s.parsed) : Sound s.parsed.built :=
  (h.parsed hparse).built rfl (Nat.le_add_left 1 _)

/-- Every body keeps the invariant. -/
theorem Sound.commandBody {i : Instr} {body : State → Except Cause State} (hi : commandBody i = some body) {t : State}
    (hbody : body s = .ok t) : Sound t := by
  cases i <;> cases hi
  case freq => obtain ⟨ft, -, hcount, rfl⟩ := freqBody_ok hbody; exact h.tabled hcount
  case build => obtain ⟨hft, hn, rfl⟩ := buildBody_ok hbody; exact h.built hft hn
  case codegen => obtain ⟨ht, rfl⟩ := codegenBody_ok hbody; exact h.coded ht
  case encode => obtain ⟨bits, hchecked, rfl⟩ := encodeBody_ok hbody; exact h.encoded hchecked
  case hdrparse =>
    obtain rfl | ⟨rfl, -⟩ := hdrparseBody_ok hbody
    · exact h.parsedEmpty
    · exact h.parsed hbody
  case decode => obtain ⟨out, hchecked, hdec, rfl⟩ := decodeBody_ok hbody; exact h.unpacked hchecked hdec
  case compress =>
    obtain ⟨-, ⟨hcount, rfl⟩ | ⟨ft, bits, hcount, hn, hchecked, rfl⟩⟩ := compressBody_ok hbody
    · exact (h.tabled hcount).putEmpty rfl rfl rfl
    · exact (h.compressed hcount hn).encoded hchecked
  case decompress =>
    obtain ⟨-, rfl⟩ | ⟨out, hparse, hchecked, hdec, rfl⟩ := decompressBody_ok hbody
    · exact h.parsedEmpty.putEmpty rfl rfl rfl
    · exact (h.parsed_built hparse).unpacked hchecked hdec
  case seed => obtain ⟨hft, hn, rfl⟩ := seedBody_ok hbody; exact h.planted hft hn
  case merge => obtain ⟨hwl, hlen, rfl⟩ := mergeBody_ok hbody; exact h.mergeOnce hwl hlen

end

/-! ### A step -/

/-- Every command keeps the invariant. -/
theorem StateInv.exec {s t : State} {i : Instr} (h : StateInv s) (hexec : exec i s = .next t) : StateInv t := by
  have hfresh : StateInv s.fresh := h.withHost h.inWf h.inBound s.inLen s.host s.hostData (s.freeCount + 1)
  obtain ⟨-, -, rfl⟩ | ⟨-, rfl⟩ | ⟨-, -, rfl⟩ | ⟨body, hi, herr, ⟨u, hu, rfl⟩ | ⟨e, he, rfl⟩⟩ := exec_cases hexec
  · exact h
  · exact hfresh.clearAll
  · exact h.finish
  · exact ((h.sound herr).commandBody hi hu).inv
  · exact hfresh.raise (legal_of_mayRaise (commandBody_error_marked hi (s := s.fresh) herr he))

theorem StateInv.issueCommand {s t : State} {c : Word} (h : StateInv s) (hstep : issueCommand c s = .next t) :
    StateInv t := by
  unfold Machine.issueCommand at hstep
  split at hstep
  next i _ => exact h.exec hstep
  next e he =>
    unfold illegalCommand at hstep
    split at hstep <;> cases hstep
    · exact h
    · exact (h.withHost h.inWf h.inBound s.inLen s.host s.hostData (s.freeCount + 1)).raise
        (legal_of_undecoded ⟨e, he⟩)

theorem output_length (s : State) : s.output.length = s.outLen := by simp [State.output]

theorem StateInv.hostMov {s t : State} (h : StateInv s) (hstep : hostMov s = .next t) : StateInv t := by
  unfold Machine.hostMov at hstep
  split at hstep <;> cases hstep
  next hroom =>
    refine h.withHost (Memory.writeBytes_wf _ _ _ h.inWf) (fun c hc => ?_) _ s.host s.hostData s.freeCount
    obtain hnew | hold := Memory.mem_writeBytes hc
    · rw [output_length] at hnew
      omega
    · exact h.inBound c hold

theorem StateInv.hostWriteIn {s t : State} {off : Nat} {b : Byte} (h : StateInv s)
    (hstep : hostWriteIn off b s = .next t) : StateInv t := by
  unfold Machine.hostWriteIn at hstep
  split at hstep <;> cases hstep
  next hoff =>
    refine h.withHost (Memory.write_wf _ _ _ h.inWf) (fun c hc => ?_) s.inLen s.host s.hostData s.freeCount
    obtain rfl | hold := Memory.mem_write hc
    · exact hoff
    · exact h.inBound c hold

theorem StateInv.hostWriteReg {s : State} (h : StateInv s) (num : Nat) (v : Word) : StateInv (s.writeReg num v) := by
  by_cases hnum : num = 4
  · subst hnum
    exact h.withHost h.inWf h.inBound v s.host s.hostData s.freeCount
  · exact (writeReg_of_ne_four s hnum v).symm ▸ h

/-- A host read answers the state with another value read, or stops. -/
theorem StateInv.read {s t : State} (h : StateInv s) {p : Prop} [Decidable p] {d : HostValue} {r : Fault}
    (hstep : (if p then .next { s with hostData := d } else .fault r : Result) = .next t) : StateInv t := by
  split at hstep <;> cases hstep
  exact h.withHost h.inWf h.inBound s.inLen s.host d s.freeCount

/-- Every access of the host keeps the invariant. -/
theorem StateInv.hostStep {s t : State} {a : HostAction} (h : StateInv s) (hstep : hostStep a s = .next t) :
    StateInv t := by
  cases a with
  | writeIn off b => exact h.hostWriteIn hstep
  | writeReg num v =>
    by_cases hnum : num = 0
    · subst hnum
      exact h.issueCommand hstep
    · rw [hostStep_writeReg_of_ne_zero hnum] at hstep
      cases hstep
      exact h.hostWriteReg num v
  | readReg num =>
    cases hstep
    exact h.withHost h.inWf h.inBound s.inLen s.host _ s.freeCount
  | readIn off => exact h.read hstep
  | readOut off => exact h.read hstep
  | readFt i => exact h.read hstep
  | readNode i => exact h.read hstep
  | readWl i => exact h.read hstep
  | readCt i => exact h.read hstep
  | mov => exact h.hostMov hstep

/-! ### The obligations -/

/-- Settles O31: the access leaves the host's list, which the invariant does not look at, and every access keeps it. -/
theorem everyStepKeepsTheInvariant : Obligations.EveryStepKeepsTheInvariant := by
  intro s t h hstep
  cases hhost : s.host with
  | nil =>
    simp only [step, hhost] at hstep
    cases hstep
    exact h
  | cons a rest =>
    rw [step_of_host_cons hhost] at hstep
    exact (h.withHost h.inWf h.inBound s.inLen rest s.hostData s.freeCount).hostStep hstep

/-- Settles O2: the reset state is cleared and holds no table. -/
theorem resetMeetsInvariant : Obligations.ResetMeetsInvariant := resetWith_stateInv

/-- Settles O30: from the clauses of the invariant; with ERR = 1 every flag of the six is 0. -/
theorem flagImplications : Obligations.FlagImplications := by
  intro s h
  cases herr : s.status.err with
  | true => simp [(h.errored herr).status]
  | false =>
    have hs := h.coherent herr
    exact ⟨fun ht => ⟨(hs.tree ht).1, (hs.wholeTree ht).one, (hs.tree ht).2⟩, fun hct => (hs.codes hct).1,
      fun hhdr => (hs.header hhdr).1⟩

/-- Settles O5: each width is below 32 bits, so the natural the model holds is the word the host reads. -/
theorem registersReadWithinTheirFields : Obligations.RegistersReadWithinTheirFields := by
  intro s h
  obtain ⟨houtLen, hnsym, hpadBits, hbitLen, hhlen, hnnodes, hroot, hwlLen, hctLen, -, -, -, -⟩ := h.widths
  have hread : ∀ {n : Nat}, n < 2 ^ 32 → (BitVec.ofNat 32 n).toNat = n := fun hn => by
    rw [BitVec.toNat_ofNat, Nat.mod_eq_of_lt hn]
  have herrCode : (s.readReg 2).toNat < 2 ^ 4 := by
    have hcode := s.errCode.isLt
    show (s.errCode.zeroExtend 32).toNat < 2 ^ 4
    rwa [BitVec.toNat_setWidth, Nat.mod_eq_of_lt (by omega)]
  exact ⟨herrCode, hread houtLen, ⟨hread (by omega), hnsym⟩, ⟨hread (by omega), hpadBits⟩, hread hbitLen,
    ⟨hread (by omega), hhlen⟩, ⟨hread (by omega), hnnodes⟩, ⟨hread (by omega), hroot⟩, ⟨hread (by omega), hwlLen⟩,
    ⟨hread (by omega), hctLen⟩⟩

end Sys2Proof.Machine

/-! ## Decoding (R115 to R118, R210, R213 to R218)

DECODE walks the stream along the tree. A stream is a list of codes and at most a part of one more, cut off; the walk gives
the symbols of the codes, if OUT has room for them, and the cut part is Format(4). HDRPARSE reads back the table a header
was written from, and so DECOMPRESS decodes a container with the tree of its table. -/

namespace Sys2Proof.Machine

/-! ### One symbol (R213) -/

/-- A decoded symbol goes to OUT if there is room behind the `n` bytes written, and the walk goes on. -/
def emit (cap n : Nat) (b : Byte) (rest : Except Cause (List Byte)) : Except Cause (List Byte) :=
  if n < cap then rest.map (List.cons b) else .error .capacityOut

theorem decodeBits_to_leaf {nodeOf : Nat → Node} {root cap cur n w w' l r : Nat} {b : Bool} {bs : List Bool} {sym : Byte}
    (hcur : nodeOf cur = .internal w l r) (hnext : nodeOf (if b then r else l) = .leaf sym w') :
    decodeBits nodeOf root cap (b :: bs) cur n = emit cap n sym (decodeBits nodeOf root cap bs root (n + 1)) := by
  simp only [decodeBits, hcur, hnext, emit]
  cases decodeBits nodeOf root cap bs root (n + 1) <;> rfl

theorem decodeBits_to_internal {nodeOf : Nat → Node} {root cap cur n w w' l r l' r' : Nat} {b : Bool} {bs : List Bool}
    (hcur : nodeOf cur = .internal w l r) (hnext : nodeOf (if b then r else l) = .internal w' l' r') :
    decodeBits nodeOf root cap (b :: bs) cur n = decodeBits nodeOf root cap bs (if b then r else l) n := by
  simp only [decodeBits, hcur, hnext]

/-! ### Along the tree -/

namespace ArenaTree

/-- The child a bit leads to. -/
def child (l r : ArenaTree) (b : Bool) : ArenaTree := if b then r else l

theorem child_root (l r : ArenaTree) (b : Bool) : (if b then r.root else l.root) = (child l r b).root := by
  cases b <;> rfl

/-- A leaf of a fork is a leaf of one of its children. -/
theorem mem_leaves_fork {k : Nat} {l r : ArenaTree} {p : LeafPath} (hp : p ∈ (fork k l r).leaves) :
    ∃ b, ∃ q ∈ (child l r b).leaves, p = q.below b := by
  simp only [leaves, List.mem_append, List.mem_map] at hp
  obtain ⟨q, hq, rfl⟩ | ⟨q, hq, rfl⟩ := hp
  · exact ⟨false, q, hq, rfl⟩
  · exact ⟨true, q, hq, rfl⟩

theorem Stands.child {nodeOf : Nat → Node} {k : Nat} {l r : ArenaTree} (h : (fork k l r).Stands nodeOf) (b : Bool) :
    (child l r b).Stands nodeOf ∧ (ArenaTree.child l r b).root < k := by
  obtain ⟨-, hl, hr, hL, hR⟩ := h
  cases b
  · exact ⟨hL, hl⟩
  · exact ⟨hR, hr⟩

/-- The bits of a path lead to its leaf, which gives its symbol (R213). -/
theorem Stands.decodeBits_path {nodeOf : Nat → Node} {root cap n : Nat} {rest : List Bool} {T : ArenaTree}
    (h : T.Stands nodeOf) {p : LeafPath} (hp : p ∈ T.leaves) (hne : p.bits ≠ []) :
    decodeBits nodeOf root cap (p.bits ++ rest) T.root n =
      emit cap n p.sym (decodeBits nodeOf root cap rest root (n + 1)) := by
  have below : ∀ (k : Nat) (l r : ArenaTree) (b : Bool) (q : LeafPath), (fork k l r).Stands nodeOf →
      q ∈ (ArenaTree.child l r b).leaves →
      (q.bits ≠ [] → decodeBits nodeOf root cap (q.bits ++ rest) (ArenaTree.child l r b).root n =
        emit cap n q.sym (decodeBits nodeOf root cap rest root (n + 1))) →
      decodeBits nodeOf root cap (b :: (q.bits ++ rest)) k n =
        emit cap n q.sym (decodeBits nodeOf root cap rest root (n + 1)) := by
    intro k l r b q hk hq ih
    obtain ⟨hsub, -⟩ := hk.child b
    obtain ⟨⟨w, hcur⟩, -⟩ := hk
    have hnext := child_root l r b
    cases hchild : ArenaTree.child l r b with
    | leaf k' sym w' =>
      rw [hchild] at hsub hq hnext
      obtain rfl := List.mem_singleton.1 hq
      have hleaf : nodeOf (if b then r.root else l.root) = .leaf sym w' := hnext ▸ hsub
      exact decodeBits_to_leaf hcur hleaf
    | fork k' l' r' =>
      rw [hchild] at hsub hq hnext ih
      obtain ⟨⟨w', hfork⟩, -⟩ := hsub
      have hinternal : nodeOf (if b then r.root else l.root) = .internal w' l'.root r'.root := hnext ▸ hfork
      rw [decodeBits_to_internal hcur hinternal, hnext]
      exact ih (fork_bits_ne_nil hq)
  induction T generalizing p with
  | leaf k b w =>
    obtain rfl := List.mem_singleton.1 hp
    exact absurd rfl hne
  | fork k l r ihl ihr =>
    obtain ⟨b, q, hq, rfl⟩ := mem_leaves_fork hp
    refine below k l r b q h hq fun hqne => ?_
    cases b with
    | false => exact ihl (h.child false).1 hq hqne
    | true => exact ihr (h.child true).1 hq hqne

/-- A part of a path that is cut off leaves the walk inside the tree (R217). -/
theorem Stands.decodeBits_cut {nodeOf : Nat → Node} {root cap n : Nat} {T : ArenaTree} (h : T.Stands nodeOf)
    {p : LeafPath} (hp : p ∈ T.leaves) {cut : List Bool} (hpre : cut <+: p.bits) (hne : cut ≠ p.bits)
    (hroot : T.root < root ∨ T.root = root ∧ cut ≠ []) :
    decodeBits nodeOf root cap cut T.root n = .error .formatMidCode := by
  induction T generalizing p cut with
  | leaf k b w =>
    obtain rfl := List.mem_singleton.1 hp
    exact absurd (List.prefix_nil.1 hpre) hne
  | fork k l r ihl ihr =>
    cases cut with
    | nil =>
      have hlt : k < root := hroot.resolve_right fun hr => hr.2 rfl
      exact if_neg (Nat.ne_of_lt hlt)
    | cons c cut =>
      obtain ⟨b, q, hq, rfl⟩ := mem_leaves_fork hp
      obtain ⟨hsub, hlt⟩ := h.child b
      obtain ⟨rfl, hpreq⟩ := List.cons_prefix_cons.1 hpre
      have hqne : cut ≠ q.bits := fun hcut => hne (by rw [hcut]; rfl)
      have hchild : (ArenaTree.child l r c).root < root := by
        obtain hr | ⟨hr, -⟩ := hroot
        · exact hlt.trans hr
        · exact hr ▸ hlt
      have hrest : decodeBits nodeOf root cap cut (ArenaTree.child l r c).root n = .error .formatMidCode := by
        cases c with
        | false => exact ihl hsub hq hpreq hqne (.inl hchild)
        | true => exact ihr hsub hq hpreq hqne (.inl hchild)
      obtain ⟨⟨w, hcur⟩, -⟩ := h
      have hnext := child_root l r c
      cases hc : ArenaTree.child l r c with
      | leaf k' sym w' =>
        rw [hc] at hq
        obtain rfl := List.mem_singleton.1 hq
        exact absurd (List.prefix_nil.1 hpreq) hqne
      | fork k' l' r' =>
        rw [hc] at hsub hnext hrest
        obtain ⟨⟨w', hfork⟩, -⟩ := hsub
        have hinternal : nodeOf (if c then r.root else l.root) = .internal w' l'.root r'.root := hnext ▸ hfork
        rw [root_fork, decodeBits_to_internal hcur hinternal, hnext]
        exact hrest

/-- Codes one after the other give their symbols, as long as OUT has room. -/
theorem Stands.decodeBits_paths {nodeOf : Nat → Node} {cap n : Nat} {rest : List Bool} {T : ArenaTree}
    (h : T.Stands nodeOf) (hT : ∀ p ∈ T.leaves, p.bits ≠ []) {ps : List LeafPath} (hps : ∀ p ∈ ps, p ∈ T.leaves)
    (hn : n ≤ cap) :
    decodeBits nodeOf T.root cap (ps.flatMap LeafPath.bits ++ rest) T.root n =
      if n + ps.length ≤ cap then
        (decodeBits nodeOf T.root cap rest T.root (n + ps.length)).map (ps.map LeafPath.sym ++ ·)
      else .error .capacityOut := by
  induction ps generalizing n with
  | nil =>
    rw [List.length_nil, Nat.add_zero, if_pos hn, List.flatMap_nil, List.nil_append]
    cases decodeBits nodeOf T.root cap rest T.root n <;> rfl
  | cons p ps ih =>
    obtain ⟨hp, hps⟩ := List.forall_mem_cons.1 hps
    rw [List.flatMap_cons, List.append_assoc, h.decodeBits_path hp (hT p hp), emit]
    have hsum : n + (p :: ps).length = n + 1 + ps.length := by rw [List.length_cons]; omega
    rw [hsum]
    split
    next hlt =>
      rw [ih hps (Nat.succ_le_of_lt hlt)]
      split
      · cases decodeBits nodeOf T.root cap rest T.root (n + 1 + ps.length) <;> rfl
      · rfl
    next hfull => rw [if_neg (by omega)]

/-- Every bit-string is a list of paths and at most a part of one more, cut off. -/
theorem exists_paths {T : ArenaTree} (hT : ∀ p ∈ T.leaves, p.bits ≠ []) (bits : List Bool) :
    ∃ (ps : List LeafPath) (cut : List Bool), (∀ p ∈ ps, p ∈ T.leaves) ∧ bits = ps.flatMap LeafPath.bits ++ cut ∧
      (cut = [] ∨ ∃ p ∈ T.leaves, cut <+: p.bits ∧ cut ≠ p.bits) := by
  obtain ⟨p, hp, rest, rfl⟩ | hcut := T.exists_path bits
  · have hshorter : rest.length < (p.bits ++ rest).length := by
      have := List.length_pos_iff.2 (hT p hp)
      rw [List.length_append]
      omega
    obtain ⟨ps, cut, hps, hrest, hcut⟩ := exists_paths hT rest
    exact ⟨p :: ps, cut, List.forall_mem_cons.2 ⟨hp, hps⟩, by rw [List.flatMap_cons, List.append_assoc, ← hrest], hcut⟩
  · exact ⟨[], bits, fun _ h => absurd h List.not_mem_nil, rfl, .inr hcut⟩
termination_by bits.length

end ArenaTree

/-! ### DECODE's result (R213, R217) -/

/-- Tuples of the code table are leaves of the tree. -/
theorem IsTree.exists_leaves {s : State} {T : ArenaTree} (hT : IsTree s T) (h : WholeTree s) {cs : List CodeTuple}
    (hcs : ∀ c ∈ cs, c ∈ s.codeTable) : ∃ ps : List LeafPath, (∀ p ∈ ps, p ∈ T.leaves) ∧ cs = ps.map LeafPath.tuple := by
  rw [hT.codeTable_eq h] at hcs
  induction cs with
  | nil => exact ⟨[], fun _ h => absurd h List.not_mem_nil, rfl⟩
  | cons c cs ih =>
    obtain ⟨hc, hrest⟩ := List.forall_mem_cons.1 hcs
    obtain ⟨p, hp, rfl⟩ := List.mem_map.1 hc
    obtain ⟨ps, hps, rfl⟩ := ih hrest
    exact ⟨p :: ps, List.forall_mem_cons.2 ⟨hp, hps⟩, rfl⟩

theorem flatMap_tuple_bits (ps : List LeafPath) :
    (ps.map LeafPath.tuple).flatMap CodeTuple.bits = ps.flatMap LeafPath.bits := by
  rw [List.flatMap_map]
  exact congrArg (List.flatMap · ps) (funext fun p => p.tuple_bits)

/-- The part of a code that is cut off, or none. -/
def CutOff (ct : List CodeTuple) (cut : List Bool) : Prop := cut = [] ∨ ∃ c ∈ ct, cut <+: c.bits ∧ cut ≠ c.bits

section
variable {s : State} (h : WholeTree s) (hn : 2 ≤ s.nsym)
include h hn

/-- The stream is codes and at most a part of one more: the symbols if they fit OUT, and Format(4) for the part. -/
theorem WholeTree.decoded_eq {cs : List CodeTuple} {cut : List Bool} (hcs : ∀ c ∈ cs, c ∈ s.codeTable)
    (hcut : CutOff s.codeTable cut) (hstream : s.stream = cs.flatMap CodeTuple.bits ++ cut) :
    s.decoded = if cs.length ≤ s.caps.outCap.val then
        if cut = [] then .ok (cs.map CodeTuple.sym) else .error .formatMidCode
      else .error .capacityOut := by
  obtain ⟨T, hT⟩ := h.exists_tree
  obtain ⟨l, r, rfl⟩ := hT.eq_fork h hn
  obtain ⟨ps, hps, rfl⟩ := hT.exists_leaves h hcs
  have hne : ∀ p ∈ (ArenaTree.fork s.root l r).leaves, p.bits ≠ [] := fun p hp => ArenaTree.fork_bits_ne_nil hp
  obtain ⟨⟨w, hroot⟩, -⟩ := id hT.stands
  rw [flatMap_tuple_bits] at hstream
  have hpaths := hT.stands.decodeBits_paths (rest := cut) hne hps (Nat.zero_le s.caps.outCap.val)
  rw [ArenaTree.root_fork, Nat.zero_add] at hpaths
  simp only [State.decoded, hroot, hstream, hpaths, List.length_map, List.map_map]
  congr 1
  obtain rfl | ⟨c, hc, hpre, hneq⟩ := hcut
  · simp [decodeBits, Except.map, LeafPath.tuple, Function.comp_def]
  · rw [hT.codeTable_eq h] at hc
    obtain ⟨p, hp, rfl⟩ := List.mem_map.1 hc
    rw [LeafPath.tuple_bits] at hpre hneq
    by_cases hnil : cut = []
    · subst hnil
      simp [decodeBits, Except.map, LeafPath.tuple, Function.comp_def]
    · have hstop := hT.stands.decodeBits_cut (cap := s.caps.outCap.val) (n := ps.length) hp hpre hneq (.inr ⟨rfl, hnil⟩)
      rw [ArenaTree.root_fork] at hstop
      rw [if_neg hnil, hstop]
      rfl

/-- Every stream is codes and at most a part of one more. -/
theorem WholeTree.exists_codes (bits : List Bool) :
    ∃ (cs : List CodeTuple) (cut : List Bool), (∀ c ∈ cs, c ∈ s.codeTable) ∧ bits = cs.flatMap CodeTuple.bits ++ cut ∧
      CutOff s.codeTable cut := by
  obtain ⟨T, hT⟩ := h.exists_tree
  obtain ⟨l, r, rfl⟩ := hT.eq_fork h hn
  obtain ⟨ps, cut, hps, hbits, hcut⟩ := ArenaTree.exists_paths (fun p hp => ArenaTree.fork_bits_ne_nil hp) bits
  refine ⟨ps.map LeafPath.tuple, cut, ?_, by rwa [flatMap_tuple_bits], hcut.imp_right ?_⟩
  · rw [hT.codeTable_eq h]
    intro c hc
    obtain ⟨p, hp, rfl⟩ := List.mem_map.1 hc
    exact List.mem_map_of_mem (hps p hp)
  · rintro ⟨p, hp, hpre⟩
    rw [hT.codeTable_eq h]
    exact ⟨p.tuple, List.mem_map_of_mem hp, by rwa [LeafPath.tuple_bits]⟩

/-- Codes are not empty, so there are no more codes than bits. -/
theorem WholeTree.length_le_flatMap_bits {cs : List CodeTuple} (hcs : ∀ c ∈ cs, c ∈ s.codeTable) :
    cs.length ≤ (cs.flatMap CodeTuple.bits).length := by
  induction cs with
  | nil => exact Nat.le_refl _
  | cons c cs ih =>
    obtain ⟨hc, hcs⟩ := List.forall_mem_cons.1 hcs
    have hpos := h.len_pos hn hc
    have hrest := ih hcs
    rw [List.flatMap_cons, List.length_append, List.length_cons, CodeTuple.bits_length]
    omega

end

/-- Settles O54: every clause by the one equation of `decoded_eq`. -/
theorem decodeInvertsTheCodes : Obligations.DecodeInvertsTheCodes := by
  intro s hinv herr hhdr htree hn hcap hlen hpad
  have hwhole : WholeTree s := (hinv.coherent herr).wholeTree htree
  have hsame : SameBuilder s s.fresh := ⟨rfl, rfl, rfl, rfl, rfl, rfl, rfl⟩
  have htable : s.codeTable = s.fresh.codeTable := hwhole.codeTable_congr hsame
  have hchecked : DecodeChecked s.fresh := decodeChecked_fresh hhdr htree hcap hlen hpad
  have hdecoded : ∀ (cs : List CodeTuple) (cut : List Bool), (∀ c ∈ cs, c ∈ s.codeTable) → CutOff s.codeTable cut →
      s.stream = cs.flatMap CodeTuple.bits ++ cut → s.fresh.decoded = if cs.length ≤ s.caps.outCap.val then
        if cut = [] then .ok (cs.map CodeTuple.sym) else .error .formatMidCode
      else .error .capacityOut := fun cs cut hcs hcut hstream =>
    (hwhole.congr hsame).decoded_eq hn (htable ▸ hcs) (htable ▸ hcut) hstream
  have hcutOff : ∀ (cs : List CodeTuple) (cut : List Bool), (∀ c ∈ cs, c ∈ s.codeTable) → CutOff s.codeTable cut →
      cut ≠ [] → s.stream = cs.flatMap CodeTuple.bits ++ cut →
      (cs.length ≤ s.caps.outCap.val → exec .decode s = .next (raise .formatMidCode s.fresh)) ∧
      (s.caps.outCap.val < cs.length → exec .decode s = .next (raise .capacityOut s.fresh)) := by
    intro cs cut hcs hcut hne hstream
    have hdec := hdecoded cs cut hcs hcut hstream
    rw [if_neg hne] at hdec
    exact ⟨fun hroom => exec_decode_of_decoded_error herr hchecked (hdec.trans (if_pos hroom)),
      fun hroom => exec_decode_of_decoded_error herr hchecked (hdec.trans (if_neg (Nat.not_le.2 hroom)))⟩
  refine ⟨fun cs hcs hstream => ?codes, fun hno hroom => ?noCodes, hwhole.exists_codes hn s.stream,
    fun cs cut c hcs hstream hne hc hpre hneq => hcutOff cs cut hcs (.inr ⟨c, hc, hpre, hneq⟩) hne hstream⟩
  case codes =>
    have hdec := hdecoded cs [] hcs (.inl rfl) (by rw [List.append_nil]; exact hstream)
    rw [if_pos rfl] at hdec
    exact ⟨fun hroom => ⟨_, exec_decode_of_decoded herr hchecked (hdec.trans (if_pos hroom)), rfl, unpacked_output _ _,
        List.length_map _, rfl⟩,
      fun hroom => exec_decode_of_decoded_error herr hchecked (hdec.trans (if_neg (Nat.not_le.2 hroom)))⟩
  case noCodes =>
    obtain ⟨cs, cut, hcs, hstream, hcut⟩ := hwhole.exists_codes hn s.stream
    have hne : cut ≠ [] := by
      rintro rfl
      exact hno ⟨cs, hcs, by rw [hstream, List.append_nil]⟩
    have hlength := hwhole.length_le_flatMap_bits hn hcs
    have hbits : (cs.flatMap CodeTuple.bits).length ≤ s.stream.length := by
      rw [hstream, List.length_append]
      exact Nat.le_add_right _ _
    exact (hcutOff cs cut hcs hcut hne hstream).1 (hlength.trans (hbits.trans hroom))

end Sys2Proof.Machine

/-! ## The header, and DECOMPRESS on a container (R115 to R118, R210, R218)

HDRPARSE reads back the table and the padding count a header was written from, so the tree DECOMPRESS builds is that of
the table, and the stream it walks is the payload without its padding. -/

namespace Sys2Proof.Machine

/-! ### The bytes of a header -/

theorem input_getElem? {s : State} {i : Nat} (hi : i < s.inLen.toNat) : s.input[i]? = some (s.memReadIn i) := by
  simp [State.input, hi]

/-- A byte of IN below IN_LEN is a byte of the input. -/
theorem memReadIn_of_input {s : State} {i : Nat} {b : Byte} (h : s.input[i]? = some b) : s.memReadIn i = b := by
  have hi : i < s.inLen.toNat := input_length s ▸ (List.getElem?_eq_some_iff.1 h).1
  exact Option.some_inj.1 ((input_getElem? hi).symm.trans h)

/-- The three bytes of an entry stand at three times its position (R118). -/
theorem flatMap_entryBytes_getElem? {ft : List FtEntry} {i : Nat} {e : FtEntry} (h : ft[i]? = some e) :
    (ft.flatMap entryBytes)[3 * i]? = some e.sym ∧
    (ft.flatMap entryBytes)[3 * i + 1]? = some (BitVec.ofNat 8 (e.cnt / 256)) ∧
    (ft.flatMap entryBytes)[3 * i + 2]? = some (BitVec.ofNat 8 (e.cnt % 256)) := by
  induction ft generalizing i with
  | nil => simp at h
  | cons x xs ih =>
    rw [List.flatMap_cons, entryBytes_eq]
    cases i with
    | zero =>
      obtain rfl : x = e := by simpa using h
      exact ⟨rfl, rfl, rfl⟩
    | succ i => exact ih h

theorem parsed_nsym_pos (s : State) : 1 ≤ s.parsed.nsym := Nat.le_add_left 1 _

/-- The input is a written header and a payload, within the limits HDRPARSE checks (R115 to R118, R210). -/
structure Contained (s : State) (ft : List FtEntry) (pad : Nat) (payload : List Byte) : Prop where
  fits : s.inLen.toNat ≤ s.caps.inCap.val
  input : s.input = headerBytes ft.length pad ft ++ payload
  pos : 1 ≤ ft.length
  length : ft.length ≤ 256
  counts : ∀ e ∈ ft, e.cnt ≤ 65535
  pad_le : pad ≤ 7
  pad_zero : payload = [] → pad = 0

section
variable {s : State} {ft : List FtEntry} {pad : Nat} {payload : List Byte} (h : Contained s ft pad payload)
include h

theorem Contained.inLen_eq : s.inLen.toNat = headerLength ft.length + payload.length := by
  rw [← input_length, h.input, List.length_append, headerBytes_length]
  rfl

theorem Contained.headerCount_eq : s.headerCount = ft.length := by
  have hbyte : s.memReadIn 0 = BitVec.ofNat 8 (ft.length - 1) := memReadIn_of_input (by rw [h.input]; rfl)
  have hpos := h.pos
  have hlength := h.length
  rw [State.headerCount, hbyte, BitVec.toNat_ofNat]
  omega

theorem Contained.headerPad_eq : s.headerPad = pad := by
  have hbyte : s.memReadIn 1 = BitVec.ofNat 8 pad := memReadIn_of_input (by rw [h.input]; rfl)
  have hpad := h.pad_le
  rw [State.headerPad, hbyte, BitVec.toNat_ofNat]
  omega

theorem Contained.headerEntry_eq {i : Nat} {e : FtEntry} (he : ft[i]? = some e) : s.headerEntry i = e := by
  have hcnt := h.counts e (List.mem_of_getElem? he)
  have hi : i < ft.length := (List.getElem?_eq_some_iff.1 he).1
  have hlen : (ft.flatMap entryBytes).length = 3 * ft.length := by
    have := headerBytes_length 0 0 ft
    simp only [headerBytes, List.length_cons] at this
    omega
  have hread : ∀ {j : Nat} {b : Byte}, j < 3 * ft.length → (ft.flatMap entryBytes)[j]? = some b → s.memReadIn (2 + j) = b :=
    fun hj hb => memReadIn_of_input (by
      rw [h.input, headerBytes, Nat.add_comm 2, List.cons_append, List.cons_append, List.getElem?_cons_succ,
        List.getElem?_cons_succ, List.getElem?_append_left (hlen ▸ hj)]
      exact hb)
  obtain ⟨hsym, hhigh, hlow⟩ := flatMap_entryBytes_getElem? he
  have hsymByte : s.memReadIn (2 + 3 * i) = e.sym := hread (by omega) hsym
  have hhighByte : s.memReadIn (3 + 3 * i) = BitVec.ofNat 8 (e.cnt / 256) := by
    rw [← hread (by omega) hhigh]
    congr 1
    omega
  have hlowByte : s.memReadIn (4 + 3 * i) = BitVec.ofNat 8 (e.cnt % 256) := by
    rw [← hread (by omega) hlow]
    congr 1
    omega
  have hcount : e.cnt / 256 % 2 ^ 8 * 256 + e.cnt % 256 % 2 ^ 8 = e.cnt := by omega
  rw [Machine.headerEntry_eq, hsymByte, hhighByte, hlowByte, BitVec.toNat_ofNat, BitVec.toNat_ofNat, hcount]

theorem Contained.parsed_ft : s.parsed.ft = ft := by
  refine List.ext_getElem (by simp [State.parsed, h.headerCount_eq]) fun i h1 h2 => ?_
  have hentry := h.headerEntry_eq (List.getElem?_eq_getElem h2)
  simpa [State.parsed] using hentry

theorem Contained.hdrparseBody_eq : hdrparseBody s = .ok s.parsed := by
  have hlen := h.inLen_eq
  have htwo : 2 ≤ s.inLen.toNat := by
    unfold headerLength at hlen
    omega
  have hlong : ¬ s.inLen.toNat < headerLength s.headerCount := by
    rw [h.headerCount_eq]
    omega
  have hpad : ¬ 7 < s.headerPad := by
    rw [h.headerPad_eq]
    exact Nat.not_lt.2 h.pad_le
  have hend : ¬ (s.inLen.toNat = headerLength s.headerCount ∧ s.headerPad ≠ 0) := by
    rintro ⟨heq, hne⟩
    rw [h.headerCount_eq] at heq
    rw [h.headerPad_eq] at hne
    exact hne (h.pad_zero (List.eq_nil_of_length_eq_zero (by omega)))
  rw [hdrparseBody_of_two_le h.fits htwo, if_neg hlong, if_neg hpad, if_neg hend]

theorem Contained.parsed_eq : s.parsed = { internalClear s with
    ft := ft, nsym := ft.length, padBits := pad, hlen := headerLength ft.length
    status := s.status.clearValid.afterHdrparse } := by
  have hft : (List.range s.headerCount).map s.headerEntry = ft := h.parsed_ft
  rw [State.parsed, hft, h.headerCount_eq, h.headerPad_eq]

/-! ### The state DECODE finds in DECOMPRESS -/

theorem Contained.parsed_nsym : s.parsed.nsym = s.parsed.ft.length := by
  rw [h.parsed_eq]

theorem Contained.decompressBody_eq : decompressBody s = decodeBody s.parsed.built :=
  decompressBody_of_parsed h.hdrparseBody_eq

theorem Contained.built_wholeTree : WholeTree s.parsed.built := Machine.built_wholeTree h.parsed_nsym (parsed_nsym_pos s)

theorem Contained.built_sameBuilder : SameBuilder s.parsed.built (treeOf ft) := by
  have := built_sameBuilder_treeOf h.parsed_nsym (parsed_nsym_pos s)
  rwa [h.parsed_ft] at this

theorem Contained.built_codeTable : s.parsed.built.codeTable = codesOf ft :=
  h.built_wholeTree.codeTable_congr h.built_sameBuilder

/-- What BUILD leaves of the state HDRPARSE makes. -/
theorem Contained.built_eq : s.parsed.built = { s.parsed with
    node := (treeOf ft).node, nnodes := 2 * ft.length - 1, wl := [2 * ft.length - 2], wlLen := 1
    root := 2 * ft.length - 2, ct := [], ctLen := 0
    status := { s.status.clearValid with ftValid := true, hdrValid := true, wlValid := true, treeValid := true } } := by
  have hwhole := h.built_wholeTree
  have hnsym : s.parsed.built.nsym = ft.length := by
    rw [h.built_sameBuilder.nsym, (treeOf_wholeTree h.pos).nsym, ← h.built_sameBuilder.ft]
    exact (congrArg List.length (built_keeps (f := State.ft) (fun _ => rfl) (fun _ => rfl) s.parsed)).trans
      (congrArg List.length h.parsed_ft)
  have hnnodes : s.parsed.built.nnodes = 2 * ft.length - 1 := hnsym ▸ hwhole.nnodes_eq
  have hroot : s.parsed.built.root = 2 * ft.length - 2 := hnsym ▸ hwhole.root_eq
  rw [Machine.built_eq, hnnodes, hwhole.wl_eq, hwhole.one, hroot, h.built_sameBuilder.node, built_status (parsed_nsym_pos s)]
  rfl

theorem Contained.built_nsym : s.parsed.built.nsym = ft.length := by
  rw [h.built_eq]
  exact h.headerCount_eq

theorem Contained.built_checked : DecodeChecked s.parsed.built where
  ready := by rw [h.built_eq]; rfl
  fits := by
    rw [h.built_eq]
    exact inputFits_of_le h.fits
  consistent := by
    obtain ⟨e, he, -⟩ | he | ⟨-, hlen⟩ := hdrparseBody_cases s
    · cases he.symm.trans h.hdrparseBody_eq
    · cases he.symm.trans h.hdrparseBody_eq
    · rw [h.built_eq]
      exact hlen

theorem Contained.built_payloadBits : s.parsed.built.payloadBits = 8 * payload.length - pad := by
  have hlen := h.inLen_eq
  rw [h.built_eq, h.parsed_eq]
  show 8 * (s.inLen.toNat - headerLength ft.length) - pad = _
  rw [hlen, Nat.add_sub_cancel_left]

theorem Contained.built_stream :
    s.parsed.built.stream = (payload.flatMap byteBits).take (8 * payload.length - pad) := by
  have hlen : s.parsed.built.hlen = headerLength ft.length := by rw [h.built_eq, h.parsed_eq]
  have hinLen : s.parsed.built.inLen = s.inLen := (parsed_built_sameInput s).inLen
  have hinput : s.parsed.built.input = s.input := by rw [h.built_eq]; rfl
  have hheader : (headerBytes ft.length pad ft).length = headerLength ft.length := headerBytes_length _ _ _
  have hdrop : s.parsed.built.input.drop s.parsed.built.hlen = payload := by
    rw [hinput, hlen, h.input, ← hheader, List.drop_left]
  have hshort : s.parsed.built.hlen ≤ s.parsed.built.inLen.toNat := by
    rw [hlen, hinLen, h.inLen_eq]
    exact Nat.le_add_right _ _
  rw [stream_eq hshort, hdrop, ← State.payloadBits, h.built_payloadBits]

/-- Two entries or more: the payload without the padding is the stream, and its codes give their symbols. -/
theorem Contained.built_decoded {cs : List CodeTuple} (hn : 2 ≤ ft.length) (hcs : ∀ c ∈ cs, c ∈ codesOf ft)
    (hbits : (payload.flatMap byteBits).take (8 * payload.length - pad) = cs.flatMap CodeTuple.bits) :
    s.parsed.built.decoded =
      if cs.length ≤ s.caps.outCap.val then .ok (cs.map CodeTuple.sym) else .error .capacityOut := by
  have hstream : s.parsed.built.stream = cs.flatMap CodeTuple.bits ++ [] := by
    rw [List.append_nil, h.built_stream, hbits]
  have hcaps : s.parsed.built.caps = s.caps := (parsed_built_sameInput s).caps
  rw [h.built_wholeTree.decoded_eq (h.built_nsym ▸ hn) (h.built_codeTable ▸ hcs) (.inl rfl) hstream, if_pos rfl, hcaps]

end

/-- One entry and no payload: the count is the length of the result. -/
theorem Contained.built_decoded_single {s : State} {b : Byte} {w : Nat} (h : Contained s [⟨b, w⟩] 0 []) :
    s.parsed.built.decoded = if s.caps.outCap.val < w then .error .capacityOut else .ok (List.replicate w b) := by
  have hroot : s.parsed.built.nodeAt s.parsed.built.root = .leaf b w := by
    rw [h.built_eq]
    rfl
  have hcaps : s.parsed.built.caps = s.caps := (parsed_built_sameInput s).caps
  have hbits : s.parsed.built.payloadBits = 0 := h.built_payloadBits
  rw [decoded_of_root_leaf hroot, if_neg (not_not.2 hbits), hcaps]

/-- The state DECOMPRESS ends in when it has decoded a container of the table `ft` and `payload` bytes to `out` (R218). -/
def State.decompressed (s : State) (ft : List FtEntry) (pad payload : Nat) (out : List Byte) : State :=
  { (internalClear s).putOut out with
    ft := ft, nsym := ft.length, padBits := pad, hlen := headerLength ft.length, bitLen := 8 * payload - pad
    node := (treeOf ft).node, nnodes := 2 * ft.length - 1, wl := [2 * ft.length - 2], wlLen := 1
    root := 2 * ft.length - 2
    status := { Status.zero with
      done := true, ftValid := true, hdrValid := true, wlValid := true, treeValid := true, outValid := true } }

theorem decompressed_output (s : State) (ft : List FtEntry) (pad payload : Nat) (out : List Byte) :
    (s.decompressed ft pad payload out).output = out := output_of_putOut rfl rfl rfl

theorem Contained.fresh {s : State} {ft : List FtEntry} {pad : Nat} {payload : List Byte}
    (h : Contained s ft pad payload) : Contained s.fresh ft pad payload := { h with }

section
variable {s : State} {ft : List FtEntry} {pad : Nat} {payload : List Byte} (h : Contained s ft pad payload)
  (herr : s.status.err = false)
include h herr

theorem Contained.unpacked_eq (out : List Byte) :
    (s.parsed.built.unpacked out).finish = s.decompressed ft pad payload.length out := by
  rw [State.unpacked, h.built_payloadBits, h.built_eq, h.parsed_eq, clearValid_of_not_err herr]
  rfl

theorem Contained.exec_decompress {out : List Byte} (hdec : s.fresh.parsed.built.decoded = .ok out) :
    exec .decompress s = .next (s.fresh.decompressed ft pad payload.length out) :=
  h.fresh.unpacked_eq herr out ▸ run_ok herr (h.fresh.decompressBody_eq.trans (h.fresh.built_checked.decodeBody_eq hdec))

theorem Contained.exec_decompress_error {e : Cause} (hdec : s.fresh.parsed.built.decoded = .error e) :
    exec .decompress s = .next (raise e s.fresh) :=
  run_error herr (h.fresh.decompressBody_eq.trans (h.fresh.built_checked.decodeBody_eq_error hdec))

end

/-! ### The obligations -/

/-- Settles O53: byte by byte, and HDRPARSE's checks pass. -/
theorem headerRoundTrip : Obligations.HeaderRoundTrip := by
  intro s ft pad payload herr hcap hinput hpos hlen hcounts hpad hzero
  have hc : Contained s.fresh ft pad payload := ⟨hcap, hinput, hpos, hlen, hcounts, hpad, hzero⟩
  have hexec : exec .hdrparse s = .next s.fresh.parsed.finish := run_ok herr hc.hdrparseBody_eq
  rw [hexec, hc.parsed_eq, ← hdrparse_status herr]
  rfl

/-- Settles O57: DECODE finds the tree of the table and the payload's bits. -/
theorem decompressDecodesContainers : Obligations.DecompressDecodesContainers := by
  intro s ft pad payload herr hcap hinput hlen hcounts hpad hzero
  have hcontained : 1 ≤ ft.length → Contained s ft pad payload := fun hpos =>
    ⟨hcap, hinput, hpos, hlen, hcounts, hpad, hzero⟩
  have hsingle : ∀ b w, ft = [⟨b, w⟩] → payload = [] → Contained s [⟨b, w⟩] 0 [] := by
    rintro b w rfl rfl
    obtain rfl := hzero rfl
    exact hcontained (Nat.le_refl _)
  refine ⟨fun cs hn hcs hbits hroom => ?codes, fun b w hft hpayload hroom => ?single, fun cs hn hcs hbits hroom => ?codesFull,
    fun b w hft hpayload hroom => ?singleFull⟩
  case codes =>
    have hc := hcontained (by omega)
    have hdec := (hc.fresh.built_decoded hn hcs hbits).trans (if_pos hroom)
    exact ⟨_, hc.exec_decompress herr hdec, decompressed_output _ _ _ _ _, List.length_map _, rfl, rfl, rfl, rfl, rfl, rfl,
      rfl, rfl, rfl, rfl, rfl, rfl, rfl, rfl, ⟨rfl, rfl, rfl, rfl, rfl⟩, rfl⟩
  case single =>
    have hc := hsingle b w hft hpayload
    have hdec := hc.fresh.built_decoded_single.trans (if_neg (Nat.not_lt.2 hroom))
    exact ⟨_, hc.exec_decompress herr hdec, decompressed_output _ _ _ _ _, List.length_replicate, rfl, rfl, rfl,
      ⟨rfl, rfl, rfl, rfl, rfl⟩, rfl⟩
  case codesFull =>
    have hc := hcontained (by omega)
    exact hc.exec_decompress_error herr ((hc.fresh.built_decoded hn hcs hbits).trans (if_neg (Nat.not_le.2 hroom)))
  case singleFull =>
    have hc := hsingle b w hft hpayload
    exact hc.exec_decompress_error herr (hc.fresh.built_decoded_single.trans (if_pos hroom))

end Sys2Proof.Machine

/-! ## COMPRESS, the length of a result, and the round trip (R19, R20, R96, R198, R222)

COMPRESS either ends in an error of FREQ, or meets a container that does not fit OUT, or writes the container of the input.
The container is a written header and the codes of the input's bytes, so DECOMPRESS gives the input back. -/

namespace Sys2Proof.Machine

/-! ### What COMPRESS makes of the input (R198) -/

theorem tabled_built_nsym (s : State) (ft : List FtEntry) : (s.tabled ft).built.nsym = ft.length :=
  built_keeps (f := State.nsym) (fun _ => rfl) (fun _ => rfl) (s.tabled ft)

/-- The state after the three stages before ENCODE, over a table that is not empty. -/
theorem compressed_eq {s : State} {ft : List FtEntry} (hn : 1 ≤ ft.length) : s.compressed ft = { internalClear s with
    ft := ft, nsym := ft.length, node := (treeOf ft).node, nnodes := 2 * ft.length - 1, wl := [2 * ft.length - 2]
    wlLen := 1, root := 2 * ft.length - 2, ct := codesOf ft, ctLen := ft.length
    status := { s.status.clearValid with ftValid := true, wlValid := true, treeValid := true, ctValid := true } } := by
  have hwhole : WholeTree (s.tabled ft).built := built_wholeTree (s := s.tabled ft) rfl hn
  have hsame : SameBuilder (s.tabled ft).built (treeOf ft) := built_sameBuilder_treeOf (s := s.tabled ft) rfl hn
  have hnsym := tabled_built_nsym s ft
  have htable : (s.tabled ft).built.codeTable = codesOf ft := hwhole.codeTable_congr hsame
  have hlength : (codesOf ft).length = ft.length := by rw [← htable, hwhole.codeTable_length, hnsym]
  have hnnodes : (s.tabled ft).built.nnodes = 2 * ft.length - 1 := hnsym ▸ hwhole.nnodes_eq
  have hroot : (s.tabled ft).built.root = 2 * ft.length - 2 := hnsym ▸ hwhole.root_eq
  rw [State.compressed, State.coded, htable, hlength, built_eq, hnnodes, hwhole.wl_eq, hwhole.one, hroot, hsame.node,
    tabled_built_status hn]
  rfl

/-- The codes of the tree over a table: at most 255 bits for at most 256 entries. -/
theorem codesOf_len_lt {ft : List FtEntry} (hn : 1 ≤ ft.length) {c : CodeTuple} (hc : c ∈ codesOf ft) :
    c.len < ft.length := by
  have hwhole := treeOf_wholeTree hn
  have hsame := treeOf_sameBuilder hn
  have hnsym : (treeOf ft).nsym = ft.length := by
    rw [← hsame.nsym]
    exact built_keeps (f := State.nsym) (fun _ => rfl) (fun _ => rfl) (tableState ft)
  exact hnsym ▸ hwhole.len_lt hc

theorem codesOf_prefixFree {ft : List FtEntry} (hn : 1 ≤ ft.length) : PrefixFree (codesOf ft) :=
  (treeOf_wholeTree hn).codeTable_prefixFree

theorem codesOf_syms {ft : List FtEntry} (hn : 1 ≤ ft.length) :
    ((codesOf ft).map CodeTuple.sym).Perm (ft.map FtEntry.sym) := by
  have hft : (treeOf ft).ft = ft := by
    rw [← (treeOf_sameBuilder hn).ft]
    exact built_keeps (f := State.ft) (fun _ => rfl) (fun _ => rfl) (tableState ft)
  have hsyms : ((codesOf ft).map CodeTuple.sym).Perm ((treeOf ft).ft.map FtEntry.sym) :=
    (treeOf_wholeTree hn).codeTable_syms
  rwa [hft] at hsyms

/-- The state after FREQ, BUILD and CODEGEN. -/
abbrev State.staged (s : State) : State := s.compressed (freqTable s.input)

/-- The bit-stream of a byte sequence under the codes of its own table (R191, R198). -/
def streamOf (x : List Byte) : List Bool := x.flatMap (codeBits (codesOf (freqTable x)))

/-- Every byte of a sequence has a code in the tree of its table. -/
theorem exists_codeOf_of_mem {x : List Byte} {b : Byte} (hb : b ∈ x) :
    ∃ c, codeOf (codesOf (freqTable x)) b = some c := by
  have hmem : b ∈ (codesOf (freqTable x)).map CodeTuple.sym := by
    rw [(codesOf_syms (freqTable_length_pos (List.ne_nil_of_mem hb))).mem_iff, freqTable_syms]
    exact List.mem_eraseDups.2 hb
  obtain ⟨c, hc, rfl⟩ := List.mem_map.1 hmem
  exact Option.isSome_iff_exists.1 (List.find?_isSome.2 ⟨c, hc, by simp⟩)

theorem containerOf_of_ne_nil {x : List Byte} (hne : x ≠ []) : containerOf x =
    headerBytes (freqTable x).length (padCount (streamOf x).length) (freqTable x) ++ payloadOf (streamOf x) :=
  if_neg hne

theorem containerOf_length {x : List Byte} (hne : x ≠ []) :
    (containerOf x).length = headerLength (freqTable x).length + payloadLength (streamOf x).length := by
  rw [containerOf_of_ne_nil hne, List.length_append, headerBytes_length, payloadOf_length]
  rfl

/-- The state COMPRESS ends in when the input is not empty and its container fits OUT (R198). -/
def State.packed (s : State) : State :=
  { (internalClear s).putOut (containerOf s.input) with
    ft := freqTable s.input, nsym := (freqTable s.input).length, node := (treeOf (freqTable s.input)).node
    nnodes := 2 * (freqTable s.input).length - 1, wl := [2 * (freqTable s.input).length - 2], wlLen := 1
    root := 2 * (freqTable s.input).length - 2, ct := codesOf (freqTable s.input), ctLen := (freqTable s.input).length
    hlen := headerLength (freqTable s.input).length, bitLen := (streamOf s.input).length
    padBits := padCount (streamOf s.input).length
    status := { Status.zero with
      done := true, ftValid := true, wlValid := true, treeValid := true, ctValid := true, outValid := true } }

theorem packed_output (s : State) : s.packed.output = containerOf s.input := output_of_putOut rfl rfl rfl

section
variable {s : State} (hne : s.input ≠ [])
include hne

theorem staged_bitStream : s.staged.bitStream = streamOf s.input := by
  rw [State.bitStream, State.staged, compressed_eq (freqTable_length_pos hne)]
  rfl

theorem staged_encoded (herr : s.status.err = false) : (s.staged.encoded (streamOf s.input).length).finish = s.packed := by
  have hbytes : s.staged.containerBytes (streamOf s.input).length = containerOf s.input := by
    rw [containerBytes_eq, staged_bitStream hne, containerOf_of_ne_nil hne, State.staged,
      compressed_eq (freqTable_length_pos hne)]
  rw [State.encoded, hbytes, State.staged, compressed_eq (freqTable_length_pos hne), clearValid_of_not_err herr]
  rfl

theorem staged_ready : s.staged.encodeReady = true := by
  rw [State.staged, compressed_eq (freqTable_length_pos hne)]
  rfl

theorem staged_fits (hfits : s.inputFits = true) : s.staged.inputFits = true := by
  rw [State.staged, compressed_eq (freqTable_length_pos hne)]
  exact hfits

theorem staged_nsym : s.staged.nsym = (freqTable s.input).length := by
  rw [State.staged, compressed_eq (freqTable_length_pos hne)]

theorem staged_measured : measure s.staged.ct s.staged.input 0 = .ok (streamOf s.input).length := by
  rw [State.staged, compressed_eq (freqTable_length_pos hne)]
  exact measure_eq_ok_iff.2 ⟨fun b hb => exists_codeOf_of_mem hb, (Nat.zero_add _).symm⟩

theorem staged_room : headerLength s.staged.nsym + payloadLength (streamOf s.input).length =
    (containerOf s.input).length := by
  rw [staged_nsym hne, containerOf_length hne]

/-- COMPRESS of an input within the count limit: the container, or Capacity(2) (R198, R245). -/
theorem compressBody_of_ne_nil (hfits : s.inputFits = true) (hcount : ∀ b, s.input.count b ≤ 65535) :
    compressBody s = if (containerOf s.input).length ≤ s.caps.outCap.val then
        .ok (s.staged.encoded (streamOf s.input).length)
      else .error .capacityOut := by
  have hcaps : s.staged.caps = s.caps := (compressed_sameInput s _).caps
  have hroom := staged_room hne
  rw [compressBody_of_countAll hfits ((countAll_eq_ok_iff s.input _).2 ⟨hcount, rfl⟩) (freqTable_length_pos hne)]
  split
  next hle =>
    exact encodeBody_of_measure (staged_ready hne) (staged_fits hne hfits) (staged_measured hne)
      (by rwa [hroom, hcaps])
  next hfull =>
    exact encodeBody_of_full (staged_ready hne) (staged_fits hne hfits) (staged_measured hne)
      (by rw [hroom, hcaps]; exact Nat.not_le.1 hfull)

end

/-- ENCODE raises Capacity(2) exactly for lack of room, once its other tests pass. -/
theorem encodeBody_capacityOut {s : State} (h : encodeBody s = .error .capacityOut) :
    s.caps.outCap.val < headerLength s.nsym + payloadLength s.bitStream.length := by
  by_contra hroom
  cases hready : s.encodeReady with
  | false => simp [encodeBody, hready] at h
  | true =>
    cases hfits : s.inputFits with
    | false => simp [encodeBody, hready, hfits] at h
    | true =>
      cases hbits : measure s.ct s.input 0 with
      | error e =>
        obtain ⟨b, rfl⟩ := measure_error hbits
        simp [encodeBody, hready, hfits, hbits] at h
      | ok bits =>
        obtain rfl : bits = s.bitStream.length := (measure_eq_ok_iff.1 hbits).2.trans (Nat.zero_add _)
        cases (encodeBody_of_measure hready hfits hbits (Nat.not_lt.1 hroom)).symm.trans h

/-- COMPRESS completes on an input that is not empty, when its container fits OUT. -/
theorem exec_compress_of_room {s : State} (hne : s.input ≠ []) (herr : s.status.err = false)
    (hcap : s.inLen.toNat ≤ s.caps.inCap.val) (hcount : ∀ b, s.input.count b ≤ 65535)
    (hroom : (containerOf s.input).length ≤ s.caps.outCap.val) : exec .compress s = .next s.fresh.packed := by
  have hbody := compressBody_of_ne_nil (s := s.fresh) hne (inputFits_of_le (s := s.fresh) hcap) hcount
  rw [← staged_encoded (s := s.fresh) hne herr]
  exact run_ok herr (hbody.trans (if_pos hroom))

/-- What a COMPRESS that completes has met and made. -/
theorem compress_completes {s t : State} (herr : s.status.err = false) (h : exec .compress s = .next t)
    (ht : t.status.err = false) : (∀ b, s.input.count b ≤ 65535) ∧
      ((s.input = [] ∧ t = (s.fresh.tabled []).putEmpty.finish) ∨ (s.input ≠ [] ∧ t = s.fresh.packed)) := by
  obtain ⟨u, hu, rfl⟩ := exec_ok rfl herr h ht
  obtain ⟨hfits, ⟨hcount, rfl⟩ | ⟨ft, bits, hcount, hn, hchecked, rfl⟩⟩ := compressBody_ok hu
  · obtain ⟨hle, hft⟩ := (countAll_eq_ok_iff _ _).1 hcount
    have hempty : s.input = [] :=
      List.eq_nil_of_length_eq_zero ((freqTable_length_eq_zero _).1 (congrArg List.length hft.symm))
    exact ⟨hle, .inl ⟨hempty, rfl⟩⟩
  · obtain ⟨hle, rfl⟩ := (countAll_eq_ok_iff _ _).1 hcount
    have hne : s.input ≠ [] := fun hempty => by
      have : (freqTable s.input).length = 0 := (freqTable_length_eq_zero _).2 (congrArg List.length hempty)
      have : 1 ≤ (freqTable s.input).length := hn
      omega
    have hbits : bits = (streamOf s.input).length :=
      hchecked.bits_eq.trans (congrArg List.length (staged_bitStream (s := s.fresh) hne))
    exact ⟨hle, .inr ⟨hne, by rw [hbits]; exact staged_encoded (s := s.fresh) hne herr⟩⟩

theorem containerOf_nil : containerOf [] = [] := rfl

theorem inLen_eq_zero_iff (s : State) : s.inLen.toNat = 0 ↔ s.input = [] := by
  rw [← input_length, List.length_eq_zero_iff]

/-- BITLEN as a sum over the table (R195). -/
theorem streamOf_length (x : List Byte) : (streamOf x).length =
    ((freqTable x).map fun e => e.cnt * (codeBits (codesOf (freqTable x)) e.sym).length).sum := by
  rw [sum_freqTable x fun b => (codeBits (codesOf (freqTable x)) b).length, streamOf, List.length_flatMap]

/-- Settles O48: the empty input has the empty container, and another one is packed. -/
theorem compressWritesTheContainer : Obligations.CompressWritesTheContainer := by
  intro s herr hcap hcount hroom
  obtain hempty | hne := eq_or_ne s.input []
  · have hlen : s.inLen = 0 := BitVec.eq_of_toNat_eq ((inLen_eq_zero_iff s).2 hempty)
    obtain ⟨houtLen, houtput, -, -, -, -, hsame⟩ := emptyResult_fields s s.status.clearValid.afterFreq
    rw [hempty]
    exact ⟨_, exec_compress_of_inLen_zero herr hlen, houtput, houtLen, rfl, rfl,
      fun hne => absurd (congrArg BitVec.toNat hlen) hne, rfl, rfl, hsame⟩
  · exact ⟨_, exec_compress_of_room hne herr hcap hcount hroom, packed_output _, rfl, rfl, rfl,
      fun _ => ⟨rfl, rfl, rfl, rfl, rfl, rfl, rfl, rfl, streamOf_length s.input, rfl, rfl⟩, rfl, rfl,
      ⟨rfl, rfl, rfl, rfl, rfl⟩⟩

/-! ### The length of a result (R96) -/

/-- Settles O49: at most 256 entries in the header, and at most 255 bits for each byte. -/
theorem containerLengthBound : Obligations.ContainerLengthBound := by
  intro x
  obtain rfl | hne := eq_or_ne x []
  · exact Nat.zero_le _
  · have hn := freqTable_length_pos hne
    have hsyms := freqTable_length_le x
    have hbits := flatMap_codeBits_length_le (ct := codesOf (freqTable x)) (m := 255)
      (fun t ht => by have := codesOf_len_lt hn ht; omega) x
    have hpayload : payloadLength (streamOf x).length ≤ payloadLength (255 * x.length) := payloadLength_mono hbits
    rw [containerOf_length hne]
    unfold headerLength
    unfold payloadLength at hpayload ⊢
    omega

end Sys2Proof.Machine

/-! ## Output lengths, the source's properties, and the round trip (R19, R20, R96, R222) -/

namespace Sys2Proof.Machine

/-! ### How long DECODE's result is -/

/-- A symbol takes at least one bit. -/
theorem decodeBits_length_le_bits {nodeOf : Nat → Node} {root cap cur n : Nat} {bits : List Bool} {out : List Byte}
    (h : decodeBits nodeOf root cap bits cur n = .ok out) : out.length ≤ bits.length := by
  induction bits generalizing cur n out with
  | nil =>
    unfold decodeBits at h
    split at h <;> cases h
    exact Nat.le_refl _
  | cons b bs ih =>
    unfold decodeBits at h
    split at h
    next => cases h
    next =>
      dsimp only at h
      split at h
      next => exact (ih h).trans (Nat.le_succ _)
      next =>
        split at h
        next =>
          split at h <;> cases h
          next hrest => exact Nat.succ_le_succ (ih hrest)
        next => cases h

/-- With room for a symbol for each bit the walk never finds OUT full. -/
theorem decodeBits_ne_capacityOut {nodeOf : Nat → Node} {root cap cur n : Nat} {bits : List Bool}
    (hroom : n + bits.length ≤ cap) : decodeBits nodeOf root cap bits cur n ≠ .error .capacityOut := by
  intro h
  induction bits generalizing cur n with
  | nil =>
    unfold decodeBits at h
    split at h <;> cases h
  | cons b bs ih =>
    rw [List.length_cons] at hroom
    unfold decodeBits at h
    split at h
    next => cases h
    next =>
      dsimp only at h
      split at h
      next => exact ih (by omega) h
      next =>
        split at h
        next =>
          split at h <;> cases h
          next hrest => exact ih (by omega) hrest
        next => omega

theorem stream_length (s : State) : s.stream.length = s.payloadBits := by simp [State.stream]

theorem payloadBits_le (s : State) : s.payloadBits ≤ 8 * (s.inLen.toNat - s.hlen) := Nat.sub_le _ _

section
variable {s : State} (h : WholeTree s) (hcnt : ∀ e ∈ s.ft, e.cnt < 2 ^ 16)
include h hcnt

/-- The root of a tree of one entry is a leaf of at most 65535. -/
theorem WholeTree.root_leaf_weight {b : Byte} {w : Nat} (hroot : s.nodeAt s.root = .leaf b w) :
    s.nsym = 1 ∧ w ≤ 65535 := by
  have hft := h.finishedTree.ft_of_root_leaf hroot
  have hw : w < 2 ^ 16 := hcnt ⟨b, w⟩ (by rw [hft]; exact List.mem_singleton_self _)
  exact ⟨h.finishedTree.root_leaf_iff.1 ⟨b, w, hroot⟩, by omega⟩

theorem WholeTree.decoded_bounds {out : List Byte} (hdec : s.decoded = .ok out) :
    (2 ≤ s.nsym → out.length ≤ 8 * (s.inLen.toNat - s.hlen)) ∧ (s.nsym = 1 → out.length ≤ 65535) := by
  cases hroot : s.nodeAt s.root with
  | leaf b w =>
    obtain ⟨hone, hw⟩ := h.root_leaf_weight hcnt hroot
    rw [decoded_of_root_leaf hroot] at hdec
    split_ifs at hdec
    cases hdec
    exact ⟨fun hn => by omega, fun _ => by rwa [List.length_replicate]⟩
  | internal w l r =>
    have hne : s.nsym ≠ 1 := fun hone => by
      obtain ⟨b, w', hleaf⟩ := h.finishedTree.root_leaf_iff.2 hone
      cases hroot.symm.trans hleaf
    simp only [State.decoded, hroot] at hdec
    have hlen := decodeBits_length_le_bits hdec
    rw [stream_length] at hlen
    exact ⟨fun _ => hlen.trans (payloadBits_le s), fun hone => absurd hone hne⟩

theorem WholeTree.decoded_ne_capacityOut (hmany : 2 ≤ s.nsym → 8 * (s.inLen.toNat - s.hlen) ≤ s.caps.outCap.val)
    (hone : s.nsym = 1 → 65535 ≤ s.caps.outCap.val) : s.decoded ≠ .error .capacityOut := by
  intro hdec
  cases hroot : s.nodeAt s.root with
  | leaf b w =>
    obtain ⟨hsym, hw⟩ := h.root_leaf_weight hcnt hroot
    have hroom := hone hsym
    rw [decoded_of_root_leaf hroot] at hdec
    split_ifs at hdec
    · cases hdec
    · omega
  | internal w l r =>
    have hne : s.nsym ≠ 1 := fun hone => by
      obtain ⟨b, w', hleaf⟩ := h.finishedTree.root_leaf_iff.2 hone
      cases hroot.symm.trans hleaf
    have hroom := hmany (by have := h.arena.seeded; omega)
    simp only [State.decoded, hroot] at hdec
    refine decodeBits_ne_capacityOut ?_ hdec
    rw [stream_length, Nat.zero_add]
    exact (payloadBits_le s).trans hroom

end

theorem decodeBody_capacityOut {s : State} (h : decodeBody s = .error .capacityOut) :
    DecodeChecked s ∧ s.decoded = .error .capacityOut := by
  cases hready : s.decodeReady with
  | false => simp [decodeBody, hready] at h
  | true =>
    cases hfits : s.inputFits with
    | false => simp [decodeBody, hready, hfits] at h
    | true =>
      cases hlen : s.lengthConsistent with
      | false => simp [decodeBody, hready, hfits, hlen] at h
      | true =>
        have hchecked : DecodeChecked s := ⟨hready, hfits, hlen⟩
        cases hdec : s.decoded with
        | ok out => cases (hchecked.decodeBody_eq hdec).symm.trans h
        | error e => cases (hchecked.decodeBody_eq_error hdec).symm.trans h; exact ⟨hchecked, rfl⟩

/-! ### How long ENCODE's result is -/

/-- A container over at most 256 entries with codes of at most 255 bits (R96). -/
theorem container_length_le {nsym bits n : Nat} (hn : nsym ≤ 256) (hbits : bits ≤ 255 * n) :
    headerLength nsym + payloadLength bits ≤ 770 + (255 * n + 7) / 8 := by
  have hpayload := payloadLength_mono hbits
  unfold headerLength
  unfold payloadLength at hpayload ⊢
  omega

theorem Sound.bitStream_length_le {s : State} (h : Sound s) : s.bitStream.length ≤ 255 * s.inLen.toNat :=
  Machine.bitStream_length_le fun t ht => Nat.le_of_lt_succ (h.inv.widths.ct.2 t ht).1

theorem Sound.encoded_outLen {s : State} (h : Sound s) {bits : Nat} (hchecked : EncodeChecked s bits) :
    (s.encoded bits).outLen = headerLength s.nsym + payloadLength bits ∧
      headerLength s.nsym + payloadLength bits ≤ 770 + (255 * s.inLen.toNat + 7) / 8 := by
  rw [hchecked.bits_eq]
  exact ⟨containerBytes_length h.nsym _, container_length_le h.nsym_le h.bitStream_length_le⟩

/-- Capacity(2) is raised by its own cause only. -/
theorem eq_capacityOut_of_raise {e : Cause} {s : State} (h : raise e s = raise .capacityOut s) : e = .capacityOut := by
  have hcode : e.code = 5 := congrArg State.errCode h
  have hinfo : e.info = 2 := congrArg State.errInfo h
  cases e with
  | capacityOut => rfl
  | capacityIn => exact absurd hinfo (by decide)
  | _ => simp [Cause.code] at hcode

/-- A command that ends in Capacity(2) has a body that raises it. -/
theorem body_capacityOut {i : Instr} {body : State → Except Cause State} (hi : commandBody i = some body) {s : State}
    (herr : s.status.err = false) (h : exec i s = .next (raise .capacityOut s.fresh)) :
    body s.fresh = .error .capacityOut := by
  rw [exec_eq_run hi] at h
  cases hb : body s.fresh with
  | ok t =>
    rw [run_ok herr hb] at h
    have hok : t.finish.status.err = true := by rw [Host.Outcome.next.inj h]; rfl
    exact absurd ((commandBody_ok_err hi (s := s.fresh) herr hb).symm.trans hok) Bool.false_ne_true
  | error e =>
    rw [run_error herr hb] at h
    rw [eq_capacityOut_of_raise (Host.Outcome.next.inj h)]

theorem compressBody_capacityOut {s : State} (h : compressBody s = .error .capacityOut) :
    ∃ ft, countAll s.input [] = .ok ft ∧ 1 ≤ ft.length ∧ encodeBody (s.compressed ft) = .error .capacityOut := by
  obtain ⟨e, hfreq, he⟩ | ⟨-, -, he⟩ | ⟨ft, -, hcount, hn, he⟩ := compressBody_cases s
  · cases he.symm.trans h
    obtain hf | ⟨b, hf⟩ | ⟨ft, -, hf⟩ := freqBody_cases s <;> cases hf.symm.trans hfreq
  · cases he.symm.trans h
  · exact ⟨ft, hcount, hn, he.symm.trans h⟩

theorem decompressBody_capacityOut {s : State} (h : decompressBody s = .error .capacityOut) :
    decodeBody s.parsed.built = .error .capacityOut := by
  obtain ⟨e, hparse, he⟩ | ⟨-, he⟩ | ⟨-, -, he⟩ := decompressBody_cases s
  · cases he.symm.trans h
    obtain ⟨e, hp, hmem⟩ | hp | ⟨hp, -⟩ := hdrparseBody_cases s <;> cases hp.symm.trans hparse
    exact absurd hmem (by decide)
  · cases he.symm.trans h
  · exact he.symm.trans h

theorem parsed_built_wholeTree (s : State) : WholeTree s.parsed.built :=
  built_wholeTree (s := s.parsed) (by simp [State.parsed]) (parsed_nsym_pos s)

theorem parsed_built_ft (s : State) : s.parsed.built.ft = s.parsed.ft :=
  built_keeps (f := State.ft) (fun _ => rfl) (fun _ => rfl) s.parsed

theorem parsed_built_nsym (s : State) : s.parsed.built.nsym = s.headerCount :=
  built_keeps (f := State.nsym) (fun _ => rfl) (fun _ => rfl) s.parsed

theorem parsed_built_hlen (s : State) : s.parsed.built.hlen = headerLength s.headerCount :=
  built_keeps (f := State.hlen) (fun _ => rfl) (fun _ => rfl) s.parsed

theorem parsed_built_counts (s : State) : ∀ e ∈ s.parsed.built.ft, e.cnt < 2 ^ 16 := by
  intro e he
  rw [parsed_built_ft] at he
  obtain ⟨i, -, rfl⟩ := List.mem_map.1 he
  exact headerEntry_cnt_lt s i

/-- The lengths of a result of DECODE and DECOMPRESS. -/
theorem unpacked_outLen {s : State} (h : WholeTree s) (hcnt : ∀ e ∈ s.ft, e.cnt < 2 ^ 16) {out : List Byte}
    (hdec : s.decoded = .ok out) :
    (2 ≤ (s.unpacked out).nsym → (s.unpacked out).outLen ≤ 8 * (s.inLen.toNat - (s.unpacked out).hlen)) ∧
      ((s.unpacked out).nsym = 1 → (s.unpacked out).outLen ≤ 65535) := h.decoded_bounds hcnt hdec

/-- Settles O50: the header and the payload bound a container, the number of bits or the count a decoded result. -/
theorem outputLengths : Obligations.OutputLengths := by
  refine ⟨fun i s t hinv herr h ht => ⟨fun hi => ?_, fun hi => ?_⟩, fun i s hinv herr hi hroom h => ?_,
    fun s hinv herr hmany hone h => ?_, fun s n herr hn hmany hone h => ?_⟩
  · have hsound := hinv.sound herr
    simp only [List.mem_cons, List.not_mem_nil, or_false] at hi
    obtain rfl | rfl := hi
    · obtain ⟨u, hu, rfl⟩ := exec_ok rfl herr h ht
      obtain ⟨bits, hchecked, rfl⟩ := encodeBody_ok hu
      obtain ⟨hlen, hbound⟩ := hsound.encoded_outLen hchecked
      exact ⟨hlen, hlen.trans_le hbound⟩
    · obtain ⟨u, hu, rfl⟩ := exec_ok rfl herr h ht
      obtain ⟨-, ⟨-, rfl⟩ | ⟨ft, bits, hcount, hn, hchecked, rfl⟩⟩ := compressBody_ok hu
      · exact ⟨by show 0 = 0 + (0 + 7) / 8; rfl, Nat.zero_le _⟩
      · obtain ⟨hlen, hbound⟩ := (hsound.compressed hcount hn).encoded_outLen hchecked
        rw [(compressed_sameInput s.fresh ft).inLen] at hbound
        exact ⟨hlen, hlen.trans_le hbound⟩
  · have hsound := hinv.sound herr
    simp only [List.mem_cons, List.not_mem_nil, or_false] at hi
    obtain rfl | rfl := hi
    · obtain ⟨u, hu, rfl⟩ := exec_ok rfl herr h ht
      obtain ⟨out, hchecked, hdec, rfl⟩ := decodeBody_ok hu
      exact unpacked_outLen (hsound.wholeTree ((decodeReady_iff _).1 hchecked.ready).2) hinv.widths.ft.2 hdec
    · obtain ⟨u, hu, rfl⟩ := exec_ok rfl herr h ht
      obtain ⟨-, rfl⟩ | ⟨out, -, hchecked, hdec, rfl⟩ := decompressBody_ok hu
      · exact ⟨fun _ => Nat.zero_le _, fun _ => Nat.zero_le _⟩
      · have hlen := unpacked_outLen (parsed_built_wholeTree s.fresh) (parsed_built_counts s.fresh) hdec
        rwa [(parsed_built_sameInput s.fresh).inLen] at hlen
  · have hsound := hinv.sound herr
    simp only [List.mem_cons, List.not_mem_nil, or_false] at hi
    obtain rfl | rfl := hi
    · have hfull := encodeBody_capacityOut (body_capacityOut rfl herr h)
      have hbound := container_length_le hsound.nsym_le hsound.bitStream_length_le
      exact absurd (hfull.trans_le hbound) (Nat.not_lt.2 hroom)
    · obtain ⟨ft, hcount, hn, hbody⟩ := compressBody_capacityOut (body_capacityOut rfl herr h)
      have hstaged := hsound.compressed hcount hn
      have hsame := compressed_sameInput s.fresh ft
      have hfull := encodeBody_capacityOut hbody
      have hbound := container_length_le hstaged.nsym_le hstaged.bitStream_length_le
      rw [hsame.inLen] at hbound
      rw [hsame.caps] at hfull
      exact absurd (hfull.trans_le hbound) (Nat.not_lt.2 hroom)
  · have hsound := hinv.sound herr
    obtain ⟨hchecked, hdec⟩ := decodeBody_capacityOut (body_capacityOut rfl herr h)
    exact (hsound.wholeTree ((decodeReady_iff _).1 hchecked.ready).2).decoded_ne_capacityOut hinv.widths.ft.2 hmany hone
      hdec
  · have hbody := decompressBody_capacityOut (body_capacityOut rfl herr h)
    obtain ⟨-, hdec⟩ := decodeBody_capacityOut hbody
    have hsame := parsed_built_sameInput s.fresh
    have hcount : s.fresh.headerCount = n := hn.symm
    refine (parsed_built_wholeTree s.fresh).decoded_ne_capacityOut (parsed_built_counts s.fresh) ?_ ?_ hdec
    · rw [parsed_built_nsym, parsed_built_hlen, hsame.inLen, hsame.caps, hcount]
      exact hmany
    · rw [parsed_built_nsym, hsame.caps, hcount]
      exact hone

/-! ### The source's invariants and properties (R19, R20) -/

theorem countP_sym_eq_one {α : Type} {l : List α} {sym : α → Byte} (h : (l.map sym).Nodup) {b : Byte}
    (hb : b ∈ l.map sym) : l.countP (fun e => sym e == b) = 1 := by
  have hcount := List.count_eq_one_of_mem h hb
  rwa [List.count, List.countP_map] at hcount

theorem packed_sourceInvariants {s : State} (hne : s.input ≠ []) : SourceInvariants s.input s.packed := by
  have hn := freqTable_length_pos hne
  have hnodup : ((freqTable s.input).map FtEntry.sym).Nodup := by
    rw [freqTable_syms]
    exact eraseDups_nodup _
  have hsyms := codesOf_syms hn
  refine ⟨fun b hb => ?_, ?_, codesOf_prefixFree hn, (streamOf_length s.input).symm⟩
  · have hmem : b ∈ (freqTable s.input).map FtEntry.sym := by
      rw [freqTable_syms]
      exact List.mem_eraseDups.2 hb
    exact ⟨countP_sym_eq_one hnodup hmem, countP_sym_eq_one (hsyms.nodup_iff.2 hnodup) (hsyms.mem_iff.2 hmem)⟩
  · have hft : (treeOf (freqTable s.input)).ft = freqTable s.input := by
      rw [← (treeOf_sameBuilder hn).ft]
      exact built_keeps (f := State.ft) (fun _ => rfl) (fun _ => rfl) (tableState _)
    have hleaves := (treeOf_wholeTree hn).filter_isLeaf
    rw [List.countP_eq_length_filter]
    exact (congrArg List.length hleaves).trans (by rw [List.length_map, hft]; rfl)

theorem compress_output {s t : State} (herr : s.status.err = false) (h : exec .compress s = .next t)
    (ht : t.status.err = false) : t.output = containerOf s.input := by
  obtain ⟨-, ⟨hempty, rfl⟩ | ⟨-, rfl⟩⟩ := compress_completes herr h ht
  · rw [hempty]
    exact output_of_outLen_zero rfl
  · exact packed_output s.fresh

/-- HDRPARSE comes to no table only from an empty IN. -/
theorem hdrparseBody_eq_parsed {s t : State} (h : hdrparseBody s = .ok t) (hlen : s.inLen ≠ 0) : t = s.parsed := by
  have hpos : s.inLen.toNat ≠ 0 := fun hzero => hlen (BitVec.eq_of_toNat_eq hzero)
  obtain hcap | hcap := Nat.lt_or_ge s.caps.inCap.val s.inLen.toNat
  · cases (hdrparseBody_of_not_fits hcap).symm.trans h
  obtain htwo | hone : 2 ≤ s.inLen.toNat ∨ s.inLen.toNat = 1 := by omega
  · rw [hdrparseBody_of_two_le hcap htwo] at h
    split_ifs at h
    cases h
    rfl
  · cases (hdrparseBody_of_inLen_one (BitVec.eq_of_toNat_eq hone) (hone.ge.trans hcap)).symm.trans h

/-- Settles O60: by the state COMPRESS packs and the state HDRPARSE reads. -/
theorem sourceInvariantsAndPropertiesHold : Obligations.SourceInvariantsAndPropertiesHold := by
  refine ⟨fun s t herr h ht => ?_, fun s s' t t' herr herr' hinput h h' ht ht' => ?_, fun s t herr h ht hlen => ?_⟩
  · obtain ⟨-, ⟨hempty, rfl⟩ | ⟨hne, rfl⟩⟩ := compress_completes herr h ht
    · refine ⟨fun b hb => ?_, rfl, fun i j c d hi => ?_, rfl⟩
      · rw [hempty] at hb
        exact absurd hb List.not_mem_nil
      · exact absurd hi (by simp [State.tabled])
    · exact packed_sourceInvariants (s := s.fresh) hne
  · rw [compress_output herr h ht, compress_output herr' h' ht', hinput]
  · obtain ⟨u, hu, rfl⟩ := exec_ok rfl herr h ht
    obtain rfl := hdrparseBody_eq_parsed hu hlen
    exact ⟨rfl, rfl, by simp [State.parsed]⟩

/-! ### The round trip (R222) -/

/-- The tuples of a byte sequence's codes. -/
def codeTuples (ct : List CodeTuple) (x : List Byte) : List CodeTuple := x.filterMap (codeOf ct)

theorem codeTuples_laws {ct : List CodeTuple} {x : List Byte} (h : ∀ b ∈ x, ∃ c, codeOf ct b = some c) :
    (codeTuples ct x).map CodeTuple.sym = x ∧ (codeTuples ct x).flatMap CodeTuple.bits = x.flatMap (codeBits ct) := by
  induction x with
  | nil => exact ⟨rfl, rfl⟩
  | cons b x ih =>
    obtain ⟨⟨c, hc⟩, hx⟩ := List.forall_mem_cons.1 h
    obtain ⟨hsyms, hbits⟩ := ih hx
    have hsym : c.sym = b := by simpa using List.find?_some hc
    have hcons : codeTuples ct (b :: x) = c :: codeTuples ct x := List.filterMap_cons_some hc
    rw [hcons, List.map_cons, List.flatMap_cons, List.flatMap_cons, hsyms, hbits, hsym, codeBits_of_codeOf hc]
    exact ⟨rfl, rfl⟩

theorem mem_of_mem_codeTuples {ct : List CodeTuple} {x : List Byte} {c : CodeTuple} (h : c ∈ codeTuples ct x) : c ∈ ct := by
  obtain ⟨b, -, hb⟩ := List.mem_filterMap.1 h
  exact List.mem_of_find?_eq_some hb

/-- The payload's bits without the padding are the stream (R215). -/
theorem payloadOf_bits_take (bits : List Bool) :
    ((payloadOf bits).flatMap byteBits).take (8 * (payloadOf bits).length - padCount bits.length) = bits := by
  have hlen : 8 * (payloadOf bits).length - padCount bits.length = bits.length := by
    rw [payloadOf_length, eight_mul_payloadLength, Nat.add_sub_cancel]
  rw [hlen, payloadOf_flatMap_byteBits, List.take_left]

/-- `.mov` makes the bytes of OUT the input (R97). -/
def State.moved (s : State) : State :=
  { s with inMem := Memory.writeBytes 0 s.output s.inMem, inLen := BitVec.ofNat 32 s.outLen }

theorem hostMov_of_le {s : State} (h : s.outLen ≤ s.caps.inCap.val) : hostMov s = .next s.moved := if_pos h

section
variable {s : State} (h : s.outLen ≤ s.caps.inCap.val)
include h

theorem moved_inLen : s.moved.inLen.toNat = s.outLen := by
  have hmax := s.caps.inCap.isLt
  show (BitVec.ofNat 32 s.outLen).toNat = _
  rw [BitVec.toNat_ofNat, Nat.mod_eq_of_lt (by omega)]

theorem moved_input : s.moved.input = s.output := by
  refine List.ext_getElem (by rw [input_length, output_length, moved_inLen h]) fun i h1 h2 => ?_
  have hread : s.moved.inMem.read i = s.output[i]? := by
    simpa [State.moved] using Memory.writeBytes_read_inside s.output 0 i s.inMem h2
  rw [List.getElem?_eq_getElem h2] at hread
  simp [State.input, State.memReadIn, hread]

end

/-- The container of an input within the count limit, in IN, is a header and a payload of the input's table. -/
theorem contained_of_container {s : State} {x : List Byte} (hne : x ≠ []) (hcount : ∀ b, x.count b ≤ 65535)
    (hcap : s.inLen.toNat ≤ s.caps.inCap.val) (hinput : s.input = containerOf x) :
    Contained s (freqTable x) (padCount (streamOf x).length) (payloadOf (streamOf x)) where
  fits := hcap
  input := hinput.trans (containerOf_of_ne_nil hne)
  pos := freqTable_length_pos hne
  length := freqTable_length_le x
  counts e he := (mem_freqTable.1 he).2 ▸ hcount e.sym
  pad_le := padCount_le _
  pad_zero hnil := by
    have hlen : payloadLength (streamOf x).length = 0 := by rw [← payloadOf_length, hnil]; rfl
    rw [padCount, hlen]
    exact Nat.zero_sub _

/-- A byte sequence of one symbol, from its table. -/
theorem eq_replicate_of_freqTable {x : List Byte} {b : Byte} {w : Nat} (h : freqTable x = [⟨b, w⟩]) :
    x = List.replicate w b := by
  have hlen : x.length = w := by
    rw [← totalCount_freqTable, h]
    rfl
  refine List.eq_replicate_iff.2 ⟨hlen, fun a ha => ?_⟩
  have hmem : a ∈ (freqTable x).map FtEntry.sym := by
    rw [freqTable_syms]
    exact List.mem_eraseDups.2 ha
  rw [h] at hmem
  exact List.mem_singleton.1 hmem

/-- A table of one entry has the code of no bits. -/
theorem streamOf_of_single {x : List Byte} (h : (freqTable x).length = 1) : streamOf x = [] := by
  have hlen := flatMap_codeBits_length_le (ct := codesOf (freqTable x)) (m := 0)
    (fun t ht => by have := codesOf_len_lt (by omega) ht; omega) x
  exact List.eq_nil_of_length_eq_zero (by rw [Nat.zero_mul] at hlen; exact Nat.le_zero.1 hlen)

/-- DECOMPRESS of the container of an input within the count limit, when the input fits OUT. -/
theorem exec_decompress_of_container {s : State} {x : List Byte} (hne : x ≠ []) (herr : s.status.err = false)
    (hcount : ∀ b, x.count b ≤ 65535) (hcap : s.inLen.toNat ≤ s.caps.inCap.val) (hinput : s.input = containerOf x)
    (hroom : x.length ≤ s.caps.outCap.val) :
    ∃ t, exec .decompress s = .next t ∧ t.status.err = false ∧ t.status.outValid = true ∧ t.output = x := by
  have hc := contained_of_container hne hcount hcap hinput
  have hn := freqTable_length_pos hne
  obtain hmany | hone : 2 ≤ (freqTable x).length ∨ (freqTable x).length = 1 := by omega
  · obtain ⟨hsyms, hbits⟩ := codeTuples_laws (x := x) fun b hb => exists_codeOf_of_mem hb
    have hlen : (codeTuples (codesOf (freqTable x)) x).length = x.length := by
      rw [← List.length_map CodeTuple.sym, hsyms]
    have hdec := hc.fresh.built_decoded hmany (fun c => mem_of_mem_codeTuples) ((payloadOf_bits_take _).trans hbits.symm)
    rw [fresh_caps, if_pos (hlen.trans_le hroom), hsyms] at hdec
    exact ⟨_, hc.exec_decompress herr hdec, rfl, rfl, decompressed_output _ _ _ _ _⟩
  · obtain ⟨⟨b, w⟩, hft⟩ := List.length_eq_one_iff.1 hone
    rw [streamOf_of_single hone, hft] at hc
    have hx := eq_replicate_of_freqTable hft
    have hdec := Contained.built_decoded_single (s := s.fresh) hc.fresh
    have hw : w ≤ s.caps.outCap.val := by rwa [hx, List.length_replicate] at hroom
    rw [fresh_caps, if_neg (Nat.not_lt.2 hw), ← hx] at hdec
    exact ⟨_, hc.exec_decompress herr hdec, rfl, rfl, decompressed_output _ _ _ _ _⟩

/-- Settles O59: OUT is the container, `.mov` makes it the input, and DECOMPRESS decodes it; the empty input has the
empty container. -/
theorem compressMovDecompressIsTheIdentity : Obligations.CompressMovDecompressIsTheIdentity := by
  intro s herr hcap hcount hout hin
  obtain hempty | hne := eq_or_ne s.input []
  · have hlen : s.inLen = 0 := BitVec.eq_of_toNat_eq ((inLen_eq_zero_iff s).2 hempty)
    have hmov : hostMov (s.fresh.emptyResult s.status.clearValid.afterFreq) = _ := hostMov_of_le (Nat.zero_le _)
    rw [RoundTrips, hempty]
    exact ⟨_, _, _, exec_compress_of_inLen_zero herr hlen, hmov, exec_decompress_of_inLen_zero herr rfl, herr, rfl,
      output_of_outLen_zero rfl⟩
  · have hbound := containerLengthBound s.input
    rw [input_length] at hbound
    have hmov : hostMov s.fresh.packed = .next s.fresh.packed.moved := hostMov_of_le hin
    have hinput : s.fresh.packed.moved.input = containerOf s.input :=
      (moved_input (s := s.fresh.packed) hin).trans (packed_output s.fresh)
    have hinLen : s.fresh.packed.moved.inLen.toNat ≤ s.caps.inCap.val :=
      (moved_inLen (s := s.fresh.packed) hin).trans_le hin
    obtain ⟨v, hexec, hverr, hvalid, houtput⟩ := exec_decompress_of_container (s := s.fresh.packed.moved) hne rfl hcount
      hinLen hinput (by rw [input_length]; exact le_trans (by omega) hout)
    exact ⟨_, _, v, exec_compress_of_room hne herr hcap hcount (hbound.trans hout), hmov, hexec, hverr, hvalid, houtput⟩

end Sys2Proof.Machine

/-! ## The host's accesses and the values it reads (R34, R80 to R83, R97, R240, R275)

An access inside its space completes, one outside it stops: each statement is the branch of the access's own test. -/

namespace Sys2Proof.Machine

/-! ### STATUS and the causes as values -/

theorem Status.toWord_toNat_lt (f : Status) : f.toWord.toNat < 2 ^ 8 := by
  have := Bool.toNat_le f.done; have := Bool.toNat_le f.err; have := Bool.toNat_le f.ftValid
  have := Bool.toNat_le f.hdrValid; have := Bool.toNat_le f.wlValid; have := Bool.toNat_le f.treeValid
  have := Bool.toNat_le f.ctValid; have := Bool.toNat_le f.outValid
  rw [Status.toWord, BitVec.toNat_ofNat]
  omega

theorem Status.toWord_low_bits : ∀ done err ft hdr wl tree ct out : Bool,
    let w := (Status.mk done err ft hdr wl tree ct out).toWord
    w.getLsbD 0 = done ∧ w.getLsbD 1 = err ∧ w.getLsbD 2 = ft ∧ w.getLsbD 3 = hdr ∧ w.getLsbD 4 = wl ∧
      w.getLsbD 5 = tree ∧ w.getLsbD 6 = ct ∧ w.getLsbD 7 = out := by decide

/-- Settles O4: the eight bits by the values of the eight flags; the register's value is below 2^8. -/
theorem statusBits : Obligations.StatusBits := by
  intro f
  obtain ⟨h0, h1, h2, h3, h4, h5, h6, h7⟩ := Status.toWord_low_bits f.done f.err f.ftValid f.hdrValid f.wlValid
    f.treeValid f.ctValid f.outValid
  refine ⟨h0, h1, h2, h3, h4, h5, h6, h7, fun j hj => ?_⟩
  exact Nat.testBit_lt_two_pow (f.toWord_toNat_lt.trans_le (Nat.pow_le_pow_right (by decide) hj))

theorem Cause.code_bounds (e : Cause) : 1 ≤ e.code.toNat ∧ e.code.toNat ≤ 6 := by
  cases e <;> simp [Cause.code]

/-- Settles O18: a row of the tables each; a byte and an operation code fit the 32 bits of ERRINFO. -/
theorem causesAndDetails : Obligations.CausesAndDetails := by
  refine ⟨rfl, rfl, rfl, rfl, rfl, rfl, rfl, rfl, rfl, rfl, rfl, rfl, fun b => ⟨rfl, ?_⟩, fun op => ⟨rfl, ?_⟩,
    fun b => ⟨rfl, ?_⟩, rfl, rfl, rfl, rfl, fun _ => ⟨rfl, rfl⟩, Cause.code_bounds⟩ <;>
    rw [Cause.info, BitVec.toNat_ofNat, Nat.mod_eq_of_lt (by omega)]

/-! ### IN and `.mov` -/

theorem memReadIn_of_read {s : State} {a : Nat} {b : Byte} (h : s.inMem.read a = some b) : s.memReadIn a = b := by
  simp only [State.memReadIn, h]

theorem memReadIn_congr {s t : State} {a : Nat} (h : t.inMem.read a = s.inMem.read a) : t.memReadIn a = s.memReadIn a := by
  rw [State.memReadIn, State.memReadIn, h]

/-- Settles O6: a byte written is read back, and a write leaves the other offsets. -/
theorem inputByteReadsAsWritten : Obligations.InputByteReadsAsWritten := by
  intro s off b rest hhost hoff
  refine ⟨{ s with host := rest, inMem := Memory.write off b s.inMem }, (step_of_host_cons hhost).trans (if_pos hoff),
    memReadIn_of_read (Memory.read_write_self off b s.inMem),
    fun a ha => memReadIn_congr (Memory.read_write_other ha b s.inMem), rfl⟩

/-- Settles O8: the copy is of OUT_LEN bytes from offset 0, so it reaches no offset from OUT_LEN up. -/
theorem movCopiesTheOutput : Obligations.MovCopiesTheOutput := by
  intro s rest _ hhost hlen
  let u : State := { s with host := rest }
  refine ⟨u.moved, (step_of_host_cons hhost).trans (hostMov_of_le (s := u) hlen), moved_inLen (s := u) hlen,
    moved_input (s := u) hlen, fun a ha => memReadIn_congr ?_, rfl⟩
  exact Memory.writeBytes_read_above s.output 0 a s.inMem (by rw [output_length]; omega)

/-! ### Reads -/

/-- A read that completes changes the value read and nothing else. -/
theorem read_changes_hostData {s t : State} {p : Prop} [Decidable p] {d : HostValue} {r : Fault}
    (h : (if p then .next { s with hostData := d } else .fault r : Result) = .next t) : t = { s with hostData := d } := by
  split at h <;> cases h
  rfl

theorem hostStep_read {s t : State} {a : HostAction} {i : Nat}
    (ha : a ∈ [.readReg i, .readIn i, .readOut i, .readFt i, .readNode i, .readWl i, .readCt i])
    (h : hostStep a s = .next t) : ∃ d, t = { s with hostData := d } := by
  simp only [List.mem_cons, List.not_mem_nil, or_false] at ha
  obtain rfl | rfl | rfl | rfl | rfl | rfl | rfl := ha
  · cases h
    exact ⟨_, rfl⟩
  all_goals exact ⟨_, read_changes_hostData h⟩

/-- Settles O7: each read is the completing branch of its test, and what stands in a list is what the look-up gives. -/
theorem readsHaveNoSideEffect : Obligations.ReadsHaveNoSideEffect := by
  refine ⟨?noEffect, fun s a rest h ha => (step_of_host_cons h).trans (if_pos ha),
    fun s a rest h ha => (step_of_host_cons h).trans (if_pos ha),
    fun s i rest h hi => (step_of_host_cons h).trans (if_pos hi),
    fun s i rest h hi => (step_of_host_cons h).trans (if_pos hi),
    fun s i rest h hi => (step_of_host_cons h).trans (if_pos hi),
    fun s i rest h hi => (step_of_host_cons h).trans (if_pos hi),
    fun s a b h => memReadIn_of_read h, ?outByte, fun s i e h => by simp only [State.ftAt, h],
    fun s i n h => by simp only [State.nodeAt, h], fun s i k h => by simp only [State.wlAt, h],
    fun s i c h => by simp only [State.ctAt, h]⟩
  case noEffect =>
    rintro s t a rest hhost ⟨i, ha⟩ hstep
    obtain ⟨d, rfl⟩ := hostStep_read ha ((step_of_host_cons hhost).symm.trans hstep)
    rfl
  case outByte =>
    intro s a b hvalid ha hread
    simp [State.outByte, hvalid, ha, hread]

/-! ### Accesses outside the spaces, and words placed before the host's accesses -/

/-- Settles O9: each access is the stopping branch of its test. -/
theorem accessOutsideTheSpacesStops : Obligations.AccessOutsideTheSpacesStops :=
  ⟨fun _ _ _ _ h ha => (step_of_host_cons h).trans (if_neg (Nat.not_lt.2 ha)),
    fun _ _ _ h ha => (step_of_host_cons h).trans (if_neg (Nat.not_lt.2 ha)),
    fun _ _ _ h ha => (step_of_host_cons h).trans (if_neg (Nat.not_lt.2 ha)),
    fun _ _ _ h hi => (step_of_host_cons h).trans (if_neg (Nat.not_lt.2 hi)),
    fun _ _ _ h hi => (step_of_host_cons h).trans (if_neg (Nat.not_lt.2 hi)),
    fun _ _ _ h hi => (step_of_host_cons h).trans (if_neg (Nat.not_lt.2 hi)),
    fun _ _ _ h hi => (step_of_host_cons h).trans (if_neg (Nat.not_lt.2 hi)),
    fun _ _ h hlen => ⟨_, (step_of_host_cons h).trans (if_neg (Nat.not_le.2 hlen))⟩⟩

theorem tableWord_of_lt {w : Nat} (h : w < 2 ^ 32) : tableWord 32 w = some (BitVec.ofNat 32 w) := by
  simp only [tableWord, Nat.mod_eq_of_lt h, if_pos h]

/-- A 32-bit word placed before the host's accesses is the next write to CMD. -/
theorem step_withFetchWord {s : State} {w : Nat} (h : w < 2 ^ 32) :
    step (s.withFetchWord 32 w) = issueCommand (BitVec.ofNat 32 w) s := by
  simp only [State.withFetchWord, tableWord_of_lt h]
  rfl

/-- The table's decoder reads what the decoder of words reads. -/
theorem decodeTableWord_of_lt {w : Nat} (h : w < 2 ^ 32) :
    decodeTableWord 32 w = (decodeWord (BitVec.ofNat 32 w)).toOption := by
  simp only [decodeTableWord, tableWord_of_lt h]
  cases decodeWord (BitVec.ofNat 32 w) <;> rfl

/-- Settles O11: the word is the next write to CMD, which runs what the decoder reads. -/
theorem placedWordRunsAndEmptyListIdles : Obligations.PlacedWordRunsAndEmptyListIdles := by
  refine ⟨fun s i => ?_, fun s w hw => ?_, fun s h => by simp only [step, h]⟩
  · rw [step_withFetchWord (encode i).isLt, BitVec.ofNat_toNat, BitVec.setWidth_eq, issueCommand, decodeWord_encode]
  · rw [step_withFetchWord hw, decodeTableWord_of_lt hw, issueCommand]
    cases decodeWord (BitVec.ofNat 32 w) with
    | ok i =>
      refine ⟨fun j hj => ?_, fun hnone => nomatch hnone⟩
      cases hj
      rfl
    | error e => exact ⟨fun j hj => (nomatch hj), fun _ => rfl⟩

end Sys2Proof.Machine

/-! ## What a command leaves as it was (R161, R163, R165, R181, R191, R213, R230) -/

namespace Sys2Proof.Machine

/-! ### NOP and the commands that build -/

/-- The state without the arena, the working list, the code table, their registers and flags, DONE and the draw. -/
def State.unbuilt (s : State) : State :=
  { s with
    node := [], nnodes := 0, wl := [], wlLen := 0, root := 0, ct := [], ctLen := 0, freeCount := 0
    status := { s.status with done := true, wlValid := false, treeValid := false, ctValid := false } }

theorem built_unbuilt (s : State) : s.built.unbuilt = s.unbuilt := built_keeps (fun _ => rfl) (fun _ => rfl) s

/-- How NOP and the four commands that build end when they succeed. -/
theorem builder_ok {i : Instr} (hi : i ∈ [Instr.nop, .seed, .merge, .build, .codegen]) {s t : State}
    (herr : s.status.err = false) (h : exec i s = .next t) (ht : t.status.err = false) :
    (i = .nop ∧ t = s.finish) ∨ (i = .seed ∧ t = s.fresh.planted.finish) ∨
    (i = .merge ∧ t = (mergeOnce s.fresh).finish) ∨ (i = .build ∧ t = s.fresh.built.finish) ∨
    (i = .codegen ∧ t = s.fresh.coded.finish) := by
  simp only [List.mem_cons, List.not_mem_nil, or_false] at hi
  obtain rfl | rfl | rfl | rfl | rfl := hi
  · cases (exec_nop_of_not_err herr).symm.trans h
    exact .inl ⟨rfl, rfl⟩
  · obtain ⟨u, hu, rfl⟩ := exec_ok rfl herr h ht
    obtain ⟨-, -, rfl⟩ := seedBody_ok hu
    exact .inr (.inl ⟨rfl, rfl⟩)
  · obtain ⟨u, hu, rfl⟩ := exec_ok rfl herr h ht
    obtain ⟨-, -, rfl⟩ := mergeBody_ok hu
    exact .inr (.inr (.inl ⟨rfl, rfl⟩))
  · obtain ⟨u, hu, rfl⟩ := exec_ok rfl herr h ht
    obtain ⟨-, -, rfl⟩ := buildBody_ok hu
    exact .inr (.inr (.inr (.inl ⟨rfl, rfl⟩)))
  · obtain ⟨u, hu, rfl⟩ := exec_ok rfl herr h ht
    obtain ⟨-, rfl⟩ := codegenBody_ok hu
    exact .inr (.inr (.inr (.inr ⟨rfl, rfl⟩)))

theorem builder_unbuilt {i : Instr} (hi : i ∈ [Instr.nop, .seed, .merge, .build, .codegen]) {s t : State}
    (herr : s.status.err = false) (h : exec i s = .next t) (ht : t.status.err = false) : t.unbuilt = s.unbuilt := by
  obtain ⟨-, rfl⟩ | ⟨-, rfl⟩ | ⟨-, rfl⟩ | ⟨-, rfl⟩ | ⟨-, rfl⟩ := builder_ok hi herr h ht
  · rfl
  · rfl
  · rfl
  · exact built_unbuilt s.fresh
  · rfl

/-- Settles O26: the five change nothing outside the builder's part of the state; NOP and CODEGEN leave the tree, NOP and
MERGE the codes. -/
theorem builderLeavesOutputAndTable : Obligations.BuilderLeavesOutputAndTable := by
  intro i s t hi herr h ht
  have hrest := builder_unbuilt hi herr h ht
  have hkept : ∀ {α : Type} (f : State → α), f t.unbuilt = f s.unbuilt := fun f => congrArg f hrest
  have hout : t.outMem = s.outMem := hkept State.outMem
  refine ⟨fun a => by rw [hout], noCommandWritesTheInput i s t h, hkept State.outLen, hkept State.bitLen,
    hkept State.padBits, hkept State.hlen, hkept State.ft, hkept State.nsym, hkept State.errCode, hkept State.errInfo,
    hkept (·.status.ftValid), hkept (·.status.hdrValid), hkept (·.status.outValid), ?tree, ?codes⟩
  case tree =>
    intro hi'
    obtain ⟨rfl, rfl⟩ | ⟨rfl, -⟩ | ⟨rfl, -⟩ | ⟨rfl, -⟩ | ⟨rfl, rfl⟩ := builder_ok hi herr h ht
    · exact ⟨rfl, rfl, rfl, rfl, rfl, rfl, rfl⟩
    · exact absurd hi' (by decide)
    · exact absurd hi' (by decide)
    · exact absurd hi' (by decide)
    · exact ⟨rfl, rfl, rfl, rfl, rfl, rfl, rfl⟩
  case codes =>
    intro hi'
    obtain ⟨rfl, rfl⟩ | ⟨rfl, -⟩ | ⟨rfl, rfl⟩ | ⟨rfl, -⟩ | ⟨rfl, -⟩ := builder_ok hi herr h ht
    · exact ⟨rfl, rfl, rfl⟩
    · exact absurd hi' (by decide)
    · exact ⟨rfl, rfl, rfl⟩
    · exact absurd hi' (by decide)
    · exact absurd hi' (by decide)

/-! ### The commands that fill OUT -/

/-- OUT holds exactly these bytes. -/
structure Holds (t : State) (bytes : List Byte) : Prop where
  valid : t.status.outValid = true
  len : t.outLen = bytes.length
  mem : t.outMem = Memory.writeBytes 0 bytes []

theorem encoded_holds (s : State) (bits : Nat) : Holds (s.encoded bits).finish (s.containerBytes bits) := ⟨rfl, rfl, rfl⟩
theorem unpacked_holds (s : State) (out : List Byte) : Holds (s.unpacked out).finish out := ⟨rfl, rfl, rfl⟩
theorem putEmpty_holds (s : State) : Holds s.putEmpty.finish [] := ⟨rfl, rfl, rfl⟩

section
variable {t : State} {bytes : List Byte} (h : Holds t bytes)
include h

theorem Holds.read (a : Nat) : t.outMem.read a = bytes[a]? := by
  rw [h.mem]
  exact putOut_read t bytes a

theorem Holds.output : t.output = bytes := output_of_putOut h.valid h.len h.mem

end

/-- Settles O27: the container or the symbols go to OUT, and the rest is the state found. -/
theorem encodeAndDecodeLeaveTheArrays : Obligations.EncodeAndDecodeLeaveTheArrays := by
  intro i s t hi herr h ht
  have hin := noCommandWritesTheInput i s t h
  have hread {bytes : List Byte} (hh : Holds t bytes) : (∀ a, t.outLen ≤ a → t.outMem.read a = none) ∧
      (∀ a, a < t.outLen → t.outMem.read a ≠ none) := by
    simp [hh.read, hh.len]
  obtain rfl | rfl : i = .encode ∨ i = .decode := by simpa using hi
  · obtain ⟨u, hu, rfl⟩ := exec_ok rfl herr h ht
    obtain ⟨bits, -, rfl⟩ := encodeBody_ok hu
    exact ⟨hin, rfl, rfl, rfl, rfl, rfl, rfl, rfl, rfl, rfl, rfl, rfl, nofun, rfl, hread (encoded_holds _ bits)⟩
  · obtain ⟨u, hu, rfl⟩ := exec_ok rfl herr h ht
    obtain ⟨out, -, -, rfl⟩ := decodeBody_ok hu
    exact ⟨hin, rfl, rfl, rfl, rfl, rfl, rfl, rfl, rfl, rfl, rfl, rfl, fun _ => ⟨rfl, rfl⟩, rfl,
      hread (unpacked_holds _ out)⟩

theorem exists_holds {i : Instr} (hi : i ∈ [Instr.encode, .decode, .compress, .decompress]) {s t : State}
    (herr : s.status.err = false) (h : exec i s = .next t) (ht : t.status.err = false) : ∃ bytes, Holds t bytes := by
  simp only [List.mem_cons, List.not_mem_nil, or_false] at hi
  obtain rfl | rfl | rfl | rfl := hi <;> obtain ⟨u, hu, rfl⟩ := exec_ok rfl herr h ht
  · obtain ⟨bits, -, rfl⟩ := encodeBody_ok hu
    exact ⟨_, encoded_holds _ bits⟩
  · obtain ⟨out, -, -, rfl⟩ := decodeBody_ok hu
    exact ⟨_, unpacked_holds _ out⟩
  · obtain ⟨-, ⟨-, rfl⟩ | ⟨ft, bits, -, -, -, rfl⟩⟩ := compressBody_ok hu
    · exact ⟨_, putEmpty_holds _⟩
    · exact ⟨_, encoded_holds _ bits⟩
  · obtain ⟨-, rfl⟩ | ⟨out, -, -, -, rfl⟩ := decompressBody_ok hu
    · exact ⟨_, putEmpty_holds _⟩
    · exact ⟨_, unpacked_holds _ out⟩

/-- Settles O28: the command put its bytes in an empty OUT, so OUT reads as they are. -/
theorem outHoldsExactlyTheResult : Obligations.OutHoldsExactlyTheResult := by
  intro i s t hi herr h ht
  obtain ⟨bytes, hh⟩ := exists_holds hi herr h ht
  refine ⟨hh.valid, output_length t, fun a => by rw [hh.read, hh.output], fun a ha => ?_⟩
  simp [State.output, ha]

end Sys2Proof.Machine

/-! ## The commands look at the data of their task alone, and the composites are their stages (R53, R126, R199, R219)

Two states are alike when they agree on everything but DONE, the bytes of IN outside the input, the host's side and the
draw. Every stage takes alike states to alike results, and that is why the four commands that clear first forget the
past, and why a composite ends as the program of its stages does. -/

namespace Sys2Proof.Machine

/-- The state without DONE, IN, the host's side and the draw. -/
def State.task (s : State) : State :=
  { s with status := s.status.setDone, inMem := [], host := [], hostData := .nothing, freeCount := 0 }

/-- Two states hold the same task: the same input and the same rest, but for DONE, the host's side and the draw. -/
structure Alike (s t : State) : Prop where
  task : s.task = t.task
  input : s.input = t.input

/-- Two bodies answer alike: alike states, or the same error. -/
def AlikeResults : Except Cause State → Except Cause State → Prop
  | .ok s, .ok t => Alike s t
  | .error e, .error e' => e = e'
  | _, _ => False

/-- ENCODE's tests: the number of bits of its stream, or its error (R191). -/
def State.encodeBits (s : State) : Except Cause Nat :=
  if !s.encodeReady then .error (.sequence 0x4)
  else if !s.inputFits then .error .capacityIn
  else
    match measure s.ct s.input 0 with
    | .error c => .error c
    | .ok bits =>
      if s.caps.outCap.val < headerLength s.nsym + payloadLength bits then .error .capacityOut else .ok bits

theorem encodeBody_eq_map (s : State) : encodeBody s = s.encodeBits.map s.encoded := by
  unfold encodeBody State.encodeBits
  split_ifs
  · rfl
  · rfl
  · cases measure s.ct s.input 0 with
    | error c => rfl
    | ok bits =>
      dsimp only
      split_ifs <;> rfl

/-- DECODE's tests and walk: the bytes of OUT, or its error (R213). -/
def State.decodeBytes (s : State) : Except Cause (List Byte) :=
  if !s.decodeReady then .error (.sequence 0x6)
  else if !s.inputFits then .error .capacityIn
  else if !s.lengthConsistent then .error (.sequence 0x6)
  else s.decoded

theorem decodeBody_eq_map (s : State) : decodeBody s = s.decodeBytes.map s.unpacked := by
  unfold decodeBody State.decodeBytes
  split_ifs
  · rfl
  · rfl
  · rfl
  · cases s.decoded <;> rfl

theorem Alike.trans {s t u : State} (h : Alike s t) (h' : Alike t u) : Alike s u :=
  ⟨h.task.trans h'.task, h.input.trans h'.input⟩

theorem Alike.symm {s t : State} (h : Alike s t) : Alike t s := ⟨h.task.symm, h.input.symm⟩

/-- Neither DONE nor the draw is part of the task. -/
theorem alike_finish_fresh (s : State) : Alike s.finish.fresh s := ⟨rfl, rfl⟩

section
variable {s t : State} (h : Alike s t)
include h

/-- What the task fixes is the same. -/
theorem Alike.field {α : Type} (f : State → α) : f s.task = f t.task := congrArg f h.task

theorem Alike.caps : s.caps = t.caps := h.field State.caps
theorem Alike.inLen : s.inLen = t.inLen := h.field State.inLen
theorem Alike.nsym : s.nsym = t.nsym := h.field State.nsym
theorem Alike.ft : s.ft = t.ft := h.field State.ft
theorem Alike.ct : s.ct = t.ct := h.field State.ct
theorem Alike.hlen : s.hlen = t.hlen := h.field State.hlen
theorem Alike.padBits : s.padBits = t.padBits := h.field State.padBits
theorem Alike.status : s.status.setDone = t.status.setDone := h.field State.status
theorem Alike.ftValid : s.status.ftValid = t.status.ftValid := h.field (·.status.ftValid)
theorem Alike.hdrValid : s.status.hdrValid = t.status.hdrValid := h.field (·.status.hdrValid)
theorem Alike.treeValid : s.status.treeValid = t.status.treeValid := h.field (·.status.treeValid)
theorem Alike.ctValid : s.status.ctValid = t.status.ctValid := h.field (·.status.ctValid)

theorem Alike.sameBuilder : SameBuilder s t where
  nsym := h.nsym
  ft := h.ft
  node := h.field State.node
  nnodes := h.field State.nnodes
  wl := h.field State.wl
  wlLen := h.field State.wlLen
  root := h.field State.root

theorem Alike.inputFits : s.inputFits = t.inputFits := by
  rw [State.inputFits, State.inputFits, h.caps, h.inLen]

/-- The bytes of the input are the same. -/
theorem Alike.memReadIn {i : Nat} (hi : i < s.inLen.toNat) : s.memReadIn i = t.memReadIn i := by
  have hread := input_getElem? hi
  rw [h.input] at hread
  exact (memReadIn_of_input hread).symm

/-! ### The stages -/

theorem Alike.tabled (ft : List FtEntry) : Alike (s.tabled ft) (t.tabled ft) :=
  ⟨h.field fun u => (u.tabled ft).task, h.input⟩

theorem Alike.freqBody : AlikeResults (freqBody s) (freqBody t) := by
  have hinput := h.input
  cases hfits : s.inputFits with
  | false => simp [Machine.freqBody, hfits, ← h.inputFits, AlikeResults]
  | true =>
    have hfits' : t.inputFits = true := h.inputFits.symm.trans hfits
    cases hcount : countAll s.input [] with
    | ok ft =>
      rw [freqBody_of_countAll hfits hcount, freqBody_of_countAll hfits' (hinput ▸ hcount)]
      exact h.tabled ft
    | error e =>
      rw [freqBody_of_countAll_error hfits hcount, freqBody_of_countAll_error hfits' (hinput ▸ hcount)]
      rfl

theorem Alike.parsed (hlen : headerLength s.headerCount ≤ s.inLen.toNat) : Alike s.parsed t.parsed := by
  unfold headerLength at hlen
  have hcount : s.headerCount = t.headerCount := by
    rw [State.headerCount, State.headerCount, h.memReadIn (by omega)]
  have hpad : s.headerPad = t.headerPad := by
    rw [State.headerPad, State.headerPad, h.memReadIn (by omega)]
  have hentries : (List.range s.headerCount).map s.headerEntry = (List.range t.headerCount).map t.headerEntry := by
    rw [← hcount]
    refine List.map_congr_left fun i hi => ?_
    have hi := List.mem_range.1 hi
    rw [State.headerEntry, State.headerEntry, h.memReadIn (by omega), h.memReadIn (by omega), h.memReadIn (by omega)]
  refine ⟨?_, h.input⟩
  have hclear : (internalClear s).task = (internalClear t).task := h.field fun u => (internalClear u).task
  have hparsed : ∀ u : State, u.parsed.task = { (internalClear u).task with
      ft := (List.range u.headerCount).map u.headerEntry, nsym := u.headerCount, padBits := u.headerPad
      hlen := headerLength u.headerCount, status := (internalClear u).task.status.afterHdrparse } := fun _ => rfl
  rw [hparsed, hparsed, hclear, hentries, hcount, hpad]

theorem Alike.parsedEmpty : Alike s.parsedEmpty t.parsedEmpty :=
  ⟨h.field fun u => u.parsedEmpty.task, h.input⟩

theorem Alike.hdrparseBody : AlikeResults (hdrparseBody s) (hdrparseBody t) := by
  have hinLen := h.inLen
  have hcaps := h.caps
  obtain hcap | hcap := Nat.lt_or_ge s.caps.inCap.val s.inLen.toNat
  · rw [hdrparseBody_of_not_fits hcap, hdrparseBody_of_not_fits (hinLen ▸ hcaps ▸ hcap)]
    rfl
  obtain hzero | hone | htwo : s.inLen.toNat = 0 ∨ s.inLen.toNat = 1 ∨ 2 ≤ s.inLen.toNat := by omega
  · have hs : s.inLen = 0 := BitVec.eq_of_toNat_eq hzero
    rw [hdrparseBody_of_inLen_zero hs, hdrparseBody_of_inLen_zero (hinLen ▸ hs)]
    exact h.parsedEmpty
  · have hs : s.inLen = 1 := BitVec.eq_of_toNat_eq hone
    rw [hdrparseBody_of_inLen_one hs (hone.ge.trans hcap),
      hdrparseBody_of_inLen_one (hinLen ▸ hs) (hcaps ▸ hone.ge.trans hcap)]
    rfl
  · have hcount : s.headerCount = t.headerCount := by
      rw [State.headerCount, State.headerCount, h.memReadIn (by omega)]
    have hpad : s.headerPad = t.headerPad := by
      rw [State.headerPad, State.headerPad, h.memReadIn (by omega)]
    rw [hdrparseBody_of_two_le hcap htwo, hdrparseBody_of_two_le (hinLen ▸ hcaps ▸ hcap) (hinLen ▸ htwo),
      ← hinLen, ← hcount, ← hpad]
    split_ifs with hshort
    · rfl
    · rfl
    · rfl
    · exact h.parsed (Nat.not_lt.1 hshort)

theorem Alike.built (hs : s.nsym = s.ft.length) (hn : 1 ≤ s.nsym) : Alike s.built t.built := by
  have hsame := built_sameBuilder h.nsym h.ft hs hn
  have hinput : ∀ u : State, u.built.input = u.input := fun u => built_keeps (fun _ => rfl) (fun _ => rfl) u
  refine ⟨?_, by rw [hinput, hinput, h.input]⟩
  have htask : ∀ u : State, 1 ≤ u.nsym → u.built.task = { u.task with
      node := u.built.node, nnodes := u.built.nnodes, wl := u.built.wl, wlLen := u.built.wlLen, root := u.built.root
      ct := [], ctLen := 0
      status := { u.task.status with wlValid := true, treeValid := true, ctValid := false } } := fun u hu => by
    rw [built_eq u, built_status hu]
    rfl
  rw [htask s hn, htask t (h.nsym ▸ hn), h.task, hsame.node, hsame.nnodes, hsame.wl, hsame.wlLen, hsame.root]

theorem Alike.coded (hs : WholeTree s) : Alike s.coded t.coded := by
  have htable := hs.codeTable_congr h.sameBuilder
  refine ⟨?_, h.input⟩
  have htask : ∀ u : State, u.coded.task = { u.task with
      ct := u.codeTable, ctLen := u.codeTable.length, status := u.task.status.afterCodegen } := fun _ => rfl
  rw [htask, htask, h.task, htable]

theorem Alike.encoded (bits : Nat) : Alike (s.encoded bits) (t.encoded bits) := by
  have hbytes : s.containerBytes bits = t.containerBytes bits := by
    rw [State.containerBytes, State.containerBytes, h.nsym, h.ft, h.input, h.ct]
  refine ⟨?_, h.input⟩
  have htask : ∀ u : State, (u.encoded bits).task = { u.task.putOut (u.containerBytes bits) with
      bitLen := bits, padBits := padCount bits, hlen := headerLength u.task.nsym
      status := u.task.status.afterEncode } := fun _ => rfl
  rw [htask, htask, h.task, hbytes]

theorem Alike.encodeBits : s.encodeBits = t.encodeBits := by
  have hready : s.encodeReady = t.encodeReady := by
    rw [State.encodeReady, State.encodeReady, h.ftValid, h.ctValid]
  rw [State.encodeBits, State.encodeBits, hready, h.inputFits, h.ct, h.input, h.caps, h.nsym]

theorem Alike.encodeBody : AlikeResults (encodeBody s) (encodeBody t) := by
  rw [encodeBody_eq_map, encodeBody_eq_map, ← h.encodeBits]
  cases s.encodeBits with
  | error e => rfl
  | ok bits => exact h.encoded bits

/-! ### DECODE -/

theorem Alike.stream (hlen : s.hlen ≤ s.inLen.toNat) : s.stream = t.stream := by
  rw [stream_eq hlen, stream_eq (h.hlen ▸ h.inLen ▸ hlen), h.input, h.hlen, h.inLen, h.padBits]

theorem Alike.payloadBits : s.payloadBits = t.payloadBits := by
  rw [State.payloadBits, State.payloadBits, h.inLen, h.hlen, h.padBits]

/-- On a finished tree DECODE looks at the table, the tree and the stream. -/
theorem Alike.decoded (hs : WholeTree s) (hlen : s.hlen ≤ s.inLen.toNat) : s.decoded = t.decoded := by
  have ht : WholeTree t := hs.congr h.sameBuilder
  obtain hone | hn : s.nsym = 1 ∨ 2 ≤ s.nsym := by have := hs.arena.seeded; omega
  · obtain ⟨b, w, hroot⟩ := hs.finishedTree.root_leaf_iff.2 hone
    obtain ⟨b', w', hroot'⟩ := ht.finishedTree.root_leaf_iff.2 (h.nsym ▸ hone)
    have hft := hs.finishedTree.ft_of_root_leaf hroot
    rw [h.ft, ht.finishedTree.ft_of_root_leaf hroot'] at hft
    cases hft
    rw [decoded_of_root_leaf hroot, decoded_of_root_leaf hroot', h.payloadBits, h.caps]
  · obtain ⟨cs, cut, hcs, hstream, hcut⟩ := hs.exists_codes hn s.stream
    have htable := hs.codeTable_congr h.sameBuilder
    rw [hs.decoded_eq hn hcs hcut hstream, ht.decoded_eq (h.nsym ▸ hn) (htable ▸ hcs) (htable ▸ hcut)
      ((h.stream hlen).symm.trans hstream), h.caps]

theorem Alike.unpacked (out : List Byte) : Alike (s.unpacked out) (t.unpacked out) := by
  refine ⟨?_, h.input⟩
  have htask : ∀ u : State, (u.unpacked out).task = { u.task.putOut out with
      bitLen := u.task.payloadBits, status := u.task.status.setOutValid } := fun _ => rfl
  rw [htask, htask, h.task]

theorem Alike.decodeBytes (hs : s.status.treeValid = true → WholeTree s) : s.decodeBytes = t.decodeBytes := by
  have hready : s.decodeReady = t.decodeReady := by
    rw [State.decodeReady, State.decodeReady, h.hdrValid, h.treeValid]
  have hconsistent : s.lengthConsistent = t.lengthConsistent := by
    rw [State.lengthConsistent, State.lengthConsistent, h.hlen, h.inLen, h.padBits]
  rw [State.decodeBytes, State.decodeBytes, ← hready, ← h.inputFits, ← hconsistent]
  split_ifs with hr hf hc
  · rfl
  · rfl
  · rfl
  · have htree : s.status.treeValid = true := by
      simp [State.decodeReady] at hr
      exact hr.2
    have hlen : s.hlen ≤ s.inLen.toNat := by
      simp [State.lengthConsistent] at hc
      exact hc.1
    exact h.decoded (hs htree) hlen

theorem Alike.decodeBody (hs : s.status.treeValid = true → WholeTree s) :
    AlikeResults (decodeBody s) (decodeBody t) := by
  rw [decodeBody_eq_map, decodeBody_eq_map, ← h.decodeBytes hs]
  cases s.decodeBytes with
  | error e => rfl
  | ok out => exact h.unpacked out

/-! ### The composites -/

theorem Alike.compressed {ft : List FtEntry} (hn : 1 ≤ ft.length) : Alike (s.compressed ft) (t.compressed ft) :=
  ((h.tabled ft).built rfl hn).coded (built_wholeTree (s := s.tabled ft) rfl hn)

theorem Alike.putEmpty : Alike s.putEmpty t.putEmpty := ⟨h.field fun u => u.putEmpty.task, h.input⟩

theorem Alike.compressBody : AlikeResults (compressBody s) (compressBody t) := by
  obtain ⟨e, hfreq, hs⟩ | ⟨hfits, hcount, hs⟩ | ⟨ft, hfits, hcount, hn, hs⟩ := compressBody_cases s
  · have halike := h.freqBody
    rw [hfreq] at halike
    obtain ⟨e', hfreq', ht⟩ | ⟨hfits', hcount', -⟩ | ⟨ft, hfits', hcount', -⟩ := compressBody_cases t
    · rw [hfreq'] at halike
      rw [hs, ht]
      exact halike
    · rw [freqBody_of_countAll hfits' hcount'] at halike
      exact halike.elim
    · rw [freqBody_of_countAll hfits' hcount'] at halike
      exact halike.elim
  · rw [hs, compressBody_of_countAll_nil (h.inputFits ▸ hfits) (h.input ▸ hcount)]
    exact (h.tabled []).putEmpty
  · rw [hs, compressBody_of_countAll (h.inputFits ▸ hfits) (h.input ▸ hcount) hn]
    exact (h.compressed hn).encodeBody

theorem Alike.decompressBody : AlikeResults (decompressBody s) (decompressBody t) := by
  have halike := h.hdrparseBody
  obtain ⟨e, hparse, hs⟩ | ⟨hparse, hs⟩ | ⟨hparse, -, hs⟩ := decompressBody_cases s <;>
    obtain ⟨e', hparse', ht⟩ | ⟨hparse', ht⟩ | ⟨hparse', -, ht⟩ := decompressBody_cases t <;>
    rw [hparse, hparse'] at halike <;> rw [hs, ht]
  · exact halike
  · exact halike.elim
  · exact halike.elim
  · exact halike.elim
  · exact Alike.putEmpty halike
  · exact absurd halike.nsym (Nat.ne_of_lt (parsed_nsym_pos t))
  · exact halike.elim
  · exact absurd halike.nsym (Nat.ne_of_gt (parsed_nsym_pos s))
  · exact (Alike.built halike (by simp [State.parsed]) (parsed_nsym_pos s)).decodeBody fun _ =>
      parsed_built_wholeTree s

end

end Sys2Proof.Machine

/-! ## Runs of the commands: a fresh command forgets the past, a composite is its stages' program (R52, R199) -/

namespace Sys2Proof.Machine

/-! ### The commands that clear first (R53) -/

theorem freqBody_internalClear (s : State) : freqBody (internalClear s) = freqBody s := rfl
theorem hdrparseBody_internalClear (s : State) : hdrparseBody (internalClear s) = hdrparseBody s := rfl

theorem compressBody_internalClear (s : State) : compressBody (internalClear s) = compressBody s := by
  rw [compressBody, compressBody, freqBody_internalClear]

theorem decompressBody_internalClear (s : State) : decompressBody (internalClear s) = decompressBody s := by
  rw [decompressBody, decompressBody, hdrparseBody_internalClear]

/-- What the clearing step leaves of the task. -/
theorem internalClear_task (s : State) : (internalClear s).task =
    { State.resetWith s.caps with
      status := { Status.zero with done := true, err := s.status.err }
      errCode := s.errCode, errInfo := s.errInfo, inLen := s.inLen } := rfl

/-- The four commands that clear first do so before they look at the state, and take alike states to alike results. -/
theorem fresh_commandBody {i : Instr} (hi : i ∈ [Instr.freq, .hdrparse, .compress, .decompress]) :
    ∃ body, commandBody i = some body ∧ (∀ s, body (internalClear s) = body s) ∧
      ∀ s t, Alike s t → AlikeResults (body s) (body t) := by
  simp only [List.mem_cons, List.not_mem_nil, or_false] at hi
  obtain rfl | rfl | rfl | rfl := hi
  · exact ⟨_, rfl, freqBody_internalClear, fun _ _ h => h.freqBody⟩
  · exact ⟨_, rfl, hdrparseBody_internalClear, fun _ _ h => h.hdrparseBody⟩
  · exact ⟨_, rfl, compressBody_internalClear, fun _ _ h => h.compressBody⟩
  · exact ⟨_, rfl, decompressBody_internalClear, fun _ _ h => h.decompressBody⟩

/-- Settles O29: after the clearing step the two states are alike, and alike states give alike results. -/
theorem freshCommandsForgetThePast : Obligations.FreshCommandsForgetThePast := by
  intro i s s' hi herr herr' hcode hinfo hcaps hinput
  obtain ⟨body, hbody, hclear, halike⟩ := fresh_commandBody hi
  have hlen : s.inLen = s'.inLen := BitVec.eq_of_toNat_eq (by rw [← input_length, ← input_length, hinput])
  have hcleared : Alike (internalClear s.fresh) (internalClear s'.fresh) := by
    refine ⟨?_, hinput⟩
    rw [internalClear_task, internalClear_task]
    simp only [fresh_caps, fresh_status, fresh_errCode, fresh_errInfo, fresh_inLen, hcaps, herr, herr', hcode, hinfo,
      hlen]
  have hresults := halike _ _ hcleared
  rw [hclear, hclear] at hresults
  rw [exec_eq_run hbody, exec_eq_run hbody]
  cases hs : body s.fresh with
  | ok t =>
    cases hs' : body s'.fresh with
    | ok t' =>
      rw [hs, hs'] at hresults
      exact ⟨_, _, run_ok herr hs, run_ok herr' hs', Alike.status hresults, Alike.field hresults State.errCode,
        Alike.field hresults State.errInfo, fun _ => hresults.task⟩
    | error e =>
      rw [hs, hs'] at hresults
      exact hresults.elim
  | error e =>
    cases hs' : body s'.fresh with
    | ok t' =>
      rw [hs, hs'] at hresults
      exact hresults.elim
    | error e' =>
      rw [hs, hs'] at hresults
      obtain rfl : e = e' := hresults
      exact ⟨_, _, run_error herr hs, run_error herr' hs', rfl, rfl, rfl, fun hok => nomatch hok⟩

/-! ### Programs of commands (R32, R243) -/

theorem execAll_cons {i : Instr} {is : List Instr} {s t : State} (h : exec i s = .next t) :
    execAll (i :: is) s = execAll is t := by
  simp only [execAll, h]

theorem execAll_append {is js : List Instr} {s t : State} (h : execAll is s = .next t) :
    execAll (is ++ js) s = execAll js t := by
  induction is generalizing s with
  | nil =>
    cases h
    rfl
  | cons i is ih =>
    obtain ⟨u, hu⟩ := everyCommandEnds i s
    rw [execAll_cons hu] at h
    rw [List.cons_append, execAll_cons hu]
    exact ih h

/-- In the error state every command but CLEAR is refused. -/
theorem execAll_of_err {is : List Instr} {s : State} (his : ∀ i ∈ is, i ≠ .clear) (herr : s.status.err = true) :
    execAll is s = .next s := by
  induction is with
  | nil => rfl
  | cons i is ih =>
    obtain ⟨hi, his⟩ := List.forall_mem_cons.1 his
    rw [execAll_cons (exec_refused hi herr)]
    exact ih his

theorem execAll_sameInput {is : List Instr} {s t : State} (h : execAll is s = .next t) : SameInput s t := by
  induction is generalizing s with
  | nil =>
    cases h
    exact .refl _
  | cons i is ih =>
    obtain ⟨u, hu⟩ := everyCommandEnds i s
    rw [execAll_cons hu] at h
    exact (noCommandWritesTheInput i s u hu).trans (ih h)

/-- BUILD on an empty table raises Degenerate (R161, R165). -/
theorem exec_build_of_empty_table {s : State} (herr : s.status.err = false) (hft : s.status.ftValid = true)
    (hn : s.nsym = 0) : exec .build s = .next (raise .degenerate s.fresh) :=
  run_error herr (buildBody_of_seedBody_error (seedBody_of_empty_table 0x2 (s := s.fresh) hft hn))

/-- States alike and with the same input's bytes and host's side differ in the draw alone. -/
theorem Alike.sameButCount {x y : State} (h : Alike x y) (hin : SameInput x y) : SameButCount x.finish y.finish := by
  have hdata : ∀ u : State, { u.finish with freeCount := 0 } =
    { u.task with inMem := u.inMem, host := u.host, hostData := u.hostData } := fun _ => rfl
  rw [SameButCount, hdata, hdata, h.task, hin.inMem, hin.host, hin.hostData]

/-- Two causes that one state's error entry does not tell apart, no state's does. -/
theorem raise_eq_of_raise_eq {e e' : Cause} {s : State} (h : raise e s = raise e' s) (t : State) :
    raise e t = raise e' t := by
  have hcode : e.code = e'.code := congrArg State.errCode h
  have hinfo : e.info = e'.info := congrArg State.errInfo h
  rw [raise, raise, hcode, hinfo]

/-! ### A composite and its stages (R126, R199, R219, R246) -/

/-- How a composite command `i` at `s` ends, against its first stage, the stages before its last, and its last. -/
inductive Splits (i first : Instr) (middle : List Instr) (last : Instr) (s : State) : Prop where
  /-- The first stage fails, and the composite in the same error. -/
  | failsFirst (e : Cause) : exec first s = .next (raise e s.fresh) → exec i s = .next (raise e s.fresh) →
      Splits i first middle last s
  /-- The table is empty: the composite completes, where BUILD would raise. -/
  | empty (u t : State) : exec first s = .next u → u.status.err = false → u.status.ftValid = true → u.nsym = 0 →
      exec i s = .next t → t.status.err = false → t.nsym = 0 → Splits i first middle last s
  /-- The last stage fails, and the composite in the same error. -/
  | failsLast (b : State) (e : Cause) : execAll (first :: .build :: middle) s = .next b → b.status.err = false →
      exec last b = .next (raise e b.fresh) → exec i s = .next (raise e s.fresh) → Splits i first middle last s
  /-- Every stage completes, and the composite in the same state. -/
  | completes (b u t : State) : execAll (first :: .build :: middle) s = .next b → b.status.err = false →
      exec last b = .next u → exec i s = .next t → t.status.err = false → 1 ≤ t.nsym → SameButCount t u →
      Splits i first middle last s

theorem SameInput.symm {s t : State} (h : SameInput s t) : SameInput t s :=
  ⟨h.caps.symm, h.inLen.symm, h.inMem.symm, h.host.symm, h.hostData.symm⟩

theorem SameInput.fresh {s t : State} (h : SameInput s t) : SameInput s.fresh t.fresh :=
  ⟨h.caps, h.inLen, h.inMem, h.host, h.hostData⟩

/-- A composite whose body answers alike its last stage's. -/
theorem Splits.of_stages {i first last : Instr} {middle : List Instr} {s b : State}
    {body lastBody : State → Except Cause State} (hi : commandBody i = some body)
    (hlast : commandBody last = some lastBody) (herr : s.status.err = false)
    (hstages : execAll (first :: .build :: middle) s = .next b) (hb : b.status.err = false)
    (hresults : AlikeResults (body s.fresh) (lastBody b.fresh)) (hn : ∀ t, body s.fresh = .ok t → 1 ≤ t.nsym) :
    Splits i first middle last s := by
  have hinput := (execAll_sameInput hstages).fresh
  cases hx : body s.fresh with
  | error e =>
    cases hy : lastBody b.fresh with
    | ok y =>
      rw [hx, hy] at hresults
      exact hresults.elim
    | error e' =>
      rw [hx, hy] at hresults
      obtain rfl : e = e' := hresults
      exact .failsLast b e hstages hb ((exec_eq_run hlast b).trans (run_error hb hy))
        ((exec_eq_run hi s).trans (run_error herr hx))
  | ok x =>
    cases hy : lastBody b.fresh with
    | error e =>
      rw [hx, hy] at hresults
      exact hresults.elim
    | ok y =>
      rw [hx, hy] at hresults
      have hxy : SameInput x y :=
        ((commandBody_sameInput hi hx).symm.trans hinput).trans (commandBody_sameInput hlast hy)
      have hxerr : x.status.err = false := commandBody_ok_err hi (s := s.fresh) herr hx
      exact .completes b y.finish x.finish hstages hb ((exec_eq_run hlast b).trans (run_ok hb hy))
        ((exec_eq_run hi s).trans (run_ok herr hx)) hxerr (hn x hx) (Alike.sameButCount hresults hxy)

section
variable {i first last : Instr} {middle : List Instr} {s : State} (h : Splits i first middle last s)
include h

theorem Splits.program_of_completes {t : State} (hexec : exec i s = .next t) (ht : t.status.err = false)
    (hn : 1 ≤ t.nsym) : ∃ u, execAll (first :: .build :: middle ++ [last]) s = .next u ∧ SameButCount t u := by
  cases h with
  | failsFirst e _ hi =>
    cases hi.symm.trans hexec
    cases ht
  | empty u t' _ _ _ _ hi _ hzero =>
    cases hi.symm.trans hexec
    omega
  | failsLast b e _ _ _ hi =>
    cases hi.symm.trans hexec
    cases ht
  | completes b u t' hstages _ hlast hi _ _ hsame =>
    cases hi.symm.trans hexec
    exact ⟨u, (execAll_append hstages).trans (execAll_cons hlast), hsame⟩

theorem Splits.program_of_empty {t : State} (hexec : exec i s = .next t) (ht : t.status.err = false)
    (hn : t.nsym = 0) :
    ∃ u, execAll [first, .build] s = .next u ∧ u.status.err = true ∧ u.errCode = 2 ∧ u.errInfo = 0 := by
  cases h with
  | failsFirst e _ hi =>
    cases hi.symm.trans hexec
    cases ht
  | empty u t' hfirst herr hft hzero _ _ _ =>
    exact ⟨_, (execAll_cons hfirst).trans (execAll_cons (exec_build_of_empty_table herr hft hzero)), rfl, rfl, rfl⟩
  | failsLast b e _ _ _ hi =>
    cases hi.symm.trans hexec
    cases ht
  | completes b u t' _ _ _ hi _ hpos _ =>
    cases hi.symm.trans hexec
    omega

theorem Splits.program_of_fails (hclear : ∀ j ∈ .build :: middle ++ [last], j ≠ .clear) {t : State}
    (hexec : exec i s = .next t) (ht : t.status.err = true) :
    ∃ u, execAll (first :: .build :: middle ++ [last]) s = .next u ∧ u.status = t.status ∧ u.errCode = t.errCode ∧
      u.errInfo = t.errInfo := by
  cases h with
  | failsFirst e hfirst hi =>
    cases hi.symm.trans hexec
    exact ⟨_, (execAll_cons hfirst).trans (execAll_of_err hclear rfl), rfl, rfl, rfl⟩
  | empty u t' _ _ _ _ hi herr _ =>
    cases hi.symm.trans hexec
    exact absurd (herr.symm.trans ht) Bool.false_ne_true
  | failsLast b e hstages _ hlast hi =>
    cases hi.symm.trans hexec
    exact ⟨_, (execAll_append hstages).trans (execAll_cons hlast), rfl, rfl, rfl⟩
  | completes b u t' _ _ _ hi herr _ _ =>
    cases hi.symm.trans hexec
    exact absurd (herr.symm.trans ht) Bool.false_ne_true

theorem Splits.fails_of_first (hclear : ∀ j ∈ .build :: middle, j ≠ .clear) {e : Cause}
    (hfails : exec first s = .next (raise e s.fresh)) : exec i s = .next (raise e s.fresh) := by
  have hrun : execAll (first :: .build :: middle) s = .next (raise e s.fresh) :=
    (execAll_cons hfails).trans (execAll_of_err hclear rfl)
  cases h with
  | failsFirst e' hfirst hi => exact hi.trans (hfirst.symm.trans hfails)
  | empty u t' hfirst herr _ _ _ _ _ =>
    cases hfirst.symm.trans hfails
    cases herr
  | failsLast b e' hstages herr _ _ =>
    cases hstages.symm.trans hrun
    cases herr
  | completes b u t' hstages herr _ _ _ _ _ =>
    cases hstages.symm.trans hrun
    cases herr

theorem Splits.fails_of_last (hclear : ∀ j ∈ .build :: middle, j ≠ .clear) {b : State} {e : Cause}
    (hrun : execAll (first :: .build :: middle) s = .next b) (hb : b.status.err = false)
    (hfails : exec last b = .next (raise e b.fresh)) : exec i s = .next (raise e s.fresh) := by
  obtain ⟨-, hmiddle⟩ := List.forall_mem_cons.1 hclear
  cases h with
  | failsFirst e' hfirst _ =>
    cases ((execAll_cons hfirst).trans (execAll_of_err hclear rfl)).symm.trans hrun
    cases hb
  | empty u t' hfirst herr hft hzero _ _ _ =>
    have hbuild := (execAll_cons (exec_build_of_empty_table herr hft hzero)).trans (execAll_of_err hmiddle rfl)
    cases ((execAll_cons hfirst).trans hbuild).symm.trans hrun
    cases hb
  | failsLast b' e' hstages _ hlast hi =>
    cases hstages.symm.trans hrun
    rw [hi, raise_eq_of_raise_eq (Host.Outcome.next.inj (hlast.symm.trans hfails)) s.fresh]
  | completes b' u t' hstages _ hlast _ herr _ hsame =>
    cases hstages.symm.trans hrun
    cases hlast.symm.trans hfails
    have hstatus : t'.status.err = true := congrArg (fun v : State => v.status.err) hsame
    exact absurd (herr.symm.trans hstatus) Bool.false_ne_true

end

end Sys2Proof.Machine

/-! ## COMPRESS and DECOMPRESS against their stages (R198, R199, R218, R219) -/

namespace Sys2Proof.Machine

/-! ### COMPRESS -/

/-- FREQ, BUILD and CODEGEN leave the state that COMPRESS hands to ENCODE, but for DONE and the draw. -/
theorem compress_stages {s : State} {ft : List FtEntry} (herr : s.status.err = false) (hfits : s.fresh.inputFits = true)
    (hcount : countAll s.input [] = .ok ft) (hn : 1 ≤ ft.length) :
    ∃ b, execAll [.freq, .build, .codegen] s = .next b ∧ b.status.err = false ∧
      Alike (s.fresh.compressed ft) b.fresh := by
  let s1 := s.fresh.tabled ft
  let s2 := s1.finish.fresh.built
  have hfreq : exec .freq s = .next s1.finish := run_ok herr (freqBody_of_countAll hfits hcount)
  have hstatus := built_status (s := s1.finish.fresh) hn
  have hbuild : exec .build s1.finish = .next s2.finish :=
    run_ok (s := s1.finish) herr (buildBody_eq_built (s := s1.finish.fresh) rfl hn)
  have herr2 : s2.finish.status.err = false := by
    rw [finish_status, hstatus]
    exact herr
  have hcodegen : exec .codegen s2.finish = .next s2.finish.fresh.coded.finish :=
    run_ok herr2 (codegenBody_of_tree (by rw [fresh_status, finish_status, hstatus]; rfl))
  refine ⟨s2.finish.fresh.coded.finish, (execAll_cons hfreq).trans ((execAll_cons hbuild).trans (execAll_cons hcodegen)),
    herr2, ?_⟩
  have htree : Alike s1.built s2 := (alike_finish_fresh s1).symm.built rfl hn
  have hcodes : Alike s1.built.coded s2.finish.fresh.coded :=
    (htree.trans (alike_finish_fresh s2).symm).coded (built_wholeTree (s := s1) rfl hn)
  exact hcodes.trans (alike_finish_fresh _).symm

theorem compress_splits {s : State} (herr : s.status.err = false) : Splits .compress .freq [.codegen] .encode s := by
  obtain ⟨e, hfreq, hcompress⟩ | ⟨hfits, hcount, hcompress⟩ | ⟨ft, hfits, hcount, hn, hcompress⟩ :=
    compressBody_cases s.fresh
  · exact .failsFirst e (run_error herr hfreq) (run_error herr hcompress)
  · exact .empty _ _ (run_ok herr (freqBody_of_countAll hfits hcount)) herr rfl rfl (run_ok herr hcompress) herr rfl
  · obtain ⟨b, hstages, hb, halike⟩ := compress_stages herr hfits hcount hn
    refine .of_stages rfl rfl herr hstages hb (hcompress ▸ halike.encodeBody) fun t ht => ?_
    obtain ⟨bits, -, rfl⟩ := encodeBody_ok (hcompress.symm.trans ht)
    exact hn.trans (tabled_built_nsym s.fresh ft).ge

/-- COMPRESS ends in Capacity(2) exactly when the container does not fit OUT. -/
theorem compress_capacityOut_iff {s : State} (herr : s.status.err = false) (hcap : s.inLen.toNat ≤ s.caps.inCap.val)
    (hcount : ∀ b, s.input.count b ≤ 65535) :
    exec .compress s = .next (raise .capacityOut s.fresh) ↔ s.caps.outCap.val < (containerOf s.input).length := by
  have hfits : s.fresh.inputFits = true := inputFits_of_le (s := s.fresh) hcap
  have hbody : compressBody s.fresh = .error .capacityOut ↔ s.caps.outCap.val < (containerOf s.input).length := by
    by_cases hne : s.input = []
    · rw [compressBody_of_countAll_nil hfits (by rw [fresh_input, hne]; rfl), hne, containerOf_nil]
      simp
    · rw [compressBody_of_ne_nil (s := s.fresh) hne hfits hcount, fresh_input, fresh_caps]
      split_ifs with hroom
      · simp [hroom]
      · simp [Nat.not_le.1 hroom]
  rw [← hbody]
  exact ⟨body_capacityOut (i := .compress) rfl herr, run_error herr⟩

/-- Settles O51: each clause is a law of the split of COMPRESS into its stages. -/
theorem compressIsTheStageProgram : Obligations.CompressIsTheStageProgram := by
  refine ⟨fun s t herr h ht => ⟨(compress_splits herr).program_of_completes h ht,
      (compress_splits herr).program_of_empty h ht⟩, fun s t herr h ht => ?_, fun s e herr h => ?_,
    fun s b e herr hrun hb h => ?_, fun s herr => compress_capacityOut_iff herr⟩
  · exact (compress_splits herr).program_of_fails (by decide) h ht
  · exact (compress_splits herr).fails_of_first (by decide) h
  · exact (compress_splits herr).fails_of_last (by decide) hrun hb h

/-! ### DECOMPRESS -/

/-- HDRPARSE and BUILD leave the state that DECOMPRESS hands to DECODE, but for DONE and the draw. -/
theorem decompress_stages {s : State} (herr : s.status.err = false) (hparse : hdrparseBody s.fresh = .ok s.fresh.parsed) :
    ∃ b, execAll [.hdrparse, .build] s = .next b ∧ b.status.err = false ∧ Alike s.fresh.parsed.built b.fresh := by
  let s1 := s.fresh.parsed
  let s2 := s1.finish.fresh.built
  have hn : 1 ≤ s1.nsym := parsed_nsym_pos s.fresh
  have hhdrparse : exec .hdrparse s = .next s1.finish := run_ok herr hparse
  have hbuild : exec .build s1.finish = .next s2.finish :=
    run_ok (s := s1.finish) herr (buildBody_eq_built (s := s1.finish.fresh) rfl hn)
  have herr2 : s2.finish.status.err = false := by
    rw [finish_status, built_status (s := s1.finish.fresh) hn]
    exact herr
  have htree : Alike s1.built s2 := (alike_finish_fresh s1).symm.built (by simp [s1, State.parsed]) hn
  exact ⟨s2.finish, (execAll_cons hhdrparse).trans (execAll_cons hbuild), herr2,
    htree.trans (alike_finish_fresh s2).symm⟩

theorem decompress_splits {s : State} (herr : s.status.err = false) : Splits .decompress .hdrparse [] .decode s := by
  obtain ⟨e, hparse, hdecompress⟩ | ⟨hparse, hdecompress⟩ | ⟨hparse, -, hdecompress⟩ := decompressBody_cases s.fresh
  · exact .failsFirst e (run_error herr hparse) (run_error herr hdecompress)
  · exact .empty _ _ (run_ok herr hparse) herr rfl rfl (run_ok herr hdecompress) herr rfl
  · obtain ⟨b, hstages, hb, halike⟩ := decompress_stages herr hparse
    refine .of_stages rfl rfl herr hstages hb
      (hdecompress ▸ halike.decodeBody fun _ => parsed_built_wholeTree s.fresh) fun t ht => ?_
    obtain ⟨out, -, -, rfl⟩ := decodeBody_ok (hdecompress.symm.trans ht)
    exact (parsed_nsym_pos s.fresh).trans (parsed_built_nsym s.fresh).ge

/-- Settles O58: each clause is a law of the split of DECOMPRESS into its stages. -/
theorem decompressIsTheStageProgram : Obligations.DecompressIsTheStageProgram := by
  refine ⟨fun s t herr h ht => ⟨(decompress_splits herr).program_of_completes h ht,
      (decompress_splits herr).program_of_empty h ht⟩, fun s t herr h ht => ?_, fun s e herr h => ?_,
    fun s b e herr hrun hb h => ?_⟩
  · exact (decompress_splits herr).program_of_fails (by decide) h ht
  · exact (decompress_splits herr).fails_of_first (by decide) h
  · exact (decompress_splits herr).fails_of_last (by decide) hrun hb h

end Sys2Proof.Machine
